-- ==== Sys2Proof/Word.lean ====
section
/-!
DEFINITION. The words the block moves (20_memory.md R225) and the sequences the rules speak of (00_scope.md R18).
-/

namespace Sys2Proof

/-- A symbol, a stream byte or a decoded byte: 8 bits (SYM_W, R10, R225). -/
abbrev Byte := BitVec 8

/-- A code, 0 to DEPTH - 1 (R10, R117): 16 bits hold every code the block can store, pack or take. -/
abbrev Code := BitVec 16

/-- A pattern or a byte string: a finite list of bytes, first byte first (R18). -/
abbrev Pattern := List Byte

/-- A bit list, first element first in stream order (R18). -/
abbrev Bits := List Bool

/-- A command word on the command port, CMD_W = 32 bits (R300). -/
abbrev CmdWord := BitVec 32

end Sys2Proof
end

