-- ==== Sys2Proof/Config.lean ====
section
/-!
DEFINITION. The implementation parameters of 00_scope.md R10 and R11. No rule leaves an instruction's result open, so
there is no free value here. The value of FILL stands in Machine/Operands.lean.
-/

namespace Sys2Proof

/-- The order in which stream bits fill a byte: the two values of the parameter FILL (R10, R12). -/
inductive Fill where
  | lsbFirst
  | msbFirst
  deriving DecidableEq, Repr

namespace Config

/-- SEED: the number of seed entries of each table, and the first new code (R10). Log 22. -/
abbrev seed : Nat := 256

/-- W_INIT: the code width at the start of each operation (R10). Log 22. -/
abbrev wInit : Nat := 9

/-- CAP_RESET: the reset value of the CAP register (R10). Log 22. -/
abbrev capReset : Nat := 10000

/-- W_MAX: the widest code the hardware can read or write (R10, D5). -/
abbrev wMax : Nat := 16

/-- DEPTH = 2^W_MAX: the number of code slots of each table (R10, R11). -/
abbrev depth : Nat := 2 ^ wMax

end Config

end Sys2Proof
end

