-- ==== Sys2Proof/Machine/Table.lean ====
section
/-!
DEFINITION. The two symbol tables as finite maps (10_state.md R117, R123; 40_symbol_table.md R400 to R412). A map is a
list of key and value pairs whose keys rise strictly, so that equal maps are equal lists; R163 leaves the organisation
free. Log 14.
-/

namespace Sys2Proof.Machine

/-- The value bound to `k`, or none. -/
def tableLookup {α β : Type} [DecidableEq α] (k : α) : List (α × β) → Option β
  | [] => none
  | e :: t => if k = e.1 then some e.2 else tableLookup k t

/-- Bind `k` to `v`; an old binding of `k` is replaced. Keys keep rising in the order `lt`. -/
def tableInsert {α β : Type} [DecidableEq α] (lt : α → α → Bool) (k : α) (v : β) : List (α × β) → List (α × β)
  | [] => [(k, v)]
  | e :: t =>
    if k = e.1 then (k, v) :: t
    else if lt k e.1 then (k, v) :: e :: t
    else e :: tableInsert lt k v t

/-- The canonical form: keys rise strictly. -/
abbrev tableRises {α β : Type} (lt : α → α → Bool) (t : List (α × β)) : Prop :=
  t.Pairwise fun a b => lt a.1 b.1 = true

/-- The order of ETAB's keys: lexicographic on bytes. -/
def patternLt : Pattern → Pattern → Bool
  | [], [] => false
  | [], _ :: _ => true
  | _ :: _, [] => false
  | a :: p, b :: q => if a = b then patternLt p q else decide (a.toNat < b.toNat)

/-- The order of DTAB's keys. -/
def codeLt (a b : Code) : Bool := decide (a.toNat < b.toNat)

/-- ETAB, pattern to code (R117). -/
abbrev EncTable := List (Pattern × Code)

/-- DTAB, code to pattern (R123). -/
abbrev DecTable := List (Code × Pattern)

/-- ETAB.seed: [b] is bound to b for every byte b (R400). -/
def etabSeed : EncTable :=
  (List.range Config.seed).map fun b => ([BitVec.ofNat 8 b], BitVec.ofNat 16 b)

/-- DTAB.seed: b is bound to [b] for every byte b (R410). -/
def dtabSeed : DecTable :=
  (List.range Config.seed).map fun b => (BitVec.ofNat 16 b, [BitVec.ofNat 8 b])

/-- ETAB.lookup(p) (R401). -/
def etabLookup (p : Pattern) (t : EncTable) : Option Code := tableLookup p t

/-- DTAB.lookup(c) (R411). -/
def dtabLookup (c : Code) (t : DecTable) : Option Pattern := tableLookup c t

/-- The write of ETAB.insert when it succeeds: ETAB[p] <- c (R402). -/
def etabBind (p : Pattern) (c : Code) (t : EncTable) : EncTable := tableInsert patternLt p c t

/-- DTAB.insert(c, p), unconditional: DTAB[c] <- p (R412). -/
def dtabInsert (c : Code) (p : Pattern) (t : DecTable) : DecTable := tableInsert codeLt c p t

end Sys2Proof.Machine
end

