-- ==== Sys2Proof/Syntax.lean ====
section
/-!
DEFINITION. What the block can be told to do: one constructor of `Instr` per row of spec/opcode_table.json, the word
that carries it on its port (30_encoding.md), and the events of the host interface (70_reset_and_hazards.md R1013).
-/

namespace Sys2Proof

/-- The commands (R301), the channel words of the packer (R310) and of the unpacker (R312), and the transaction of the
CSR read port (R314). -/
inductive Instr where
  /-- SET_CAP v (R600) -/
  | setCap (v : BitVec 16)
  /-- ENC_START (R610) -/
  | encStart
  /-- ENC_SYM s (R620) -/
  | encSym (s : Byte)
  /-- ENC_END (R630) -/
  | encEnd
  /-- DEC_START (R700) -/
  | decStart
  /-- DEC_BYTE b (R710) -/
  | decByte (b : Byte)
  /-- DEC_END (R730) -/
  | decEnd
  /-- PK_CODE(v, w), the code v at width w (R500) -/
  | pkCode (v : Code) (w : BitVec 5)
  /-- PK_FLUSH (R510) -/
  | pkFlush
  /-- UP_PUSH(b) (R550) -/
  | upPush (b : Byte)
  /-- UP_TAKE(w) (R560) -/
  | upTake (w : BitVec 5)
  /-- UP_DROP (R570) -/
  | upDrop
  /-- CSR_READ a (R820) -/
  | csrRead (a : BitVec 8)
  deriving DecidableEq, Repr

/-- A word on one of the four places an operation is presented at: the command port (R300), the packer channel (R310),
the unpacker channel (R312), the CSR read port (R314). -/
inductive PortWord where
  | command (w : CmdWord)
  | packer (w : BitVec 22)
  | unpacker (w : BitVec 24)
  | csr (a : BitVec 8)
  deriving DecidableEq, Repr

/-- What reaches the block from outside, one at a time: a word on a port, or the reset input (R1000). `written` are the
command words the host writes while reset is asserted. -/
inductive Event where
  | word (p : PortWord)
  | reset (written : List CmdWord)
  deriving DecidableEq, Repr

/-- The events a host can cause: channel words never cross the block boundary (30_encoding.md section 4). -/
def Event.fromHost : Event → Bool
  | .word (.command _) => true
  | .word (.csr _) => true
  | .word (.packer _) => false
  | .word (.unpacker _) => false
  | .reset _ => true

end Sys2Proof
end

