-- ==== Sys2Proof/Machine/State.lean ====
section
/-!
DEFINITION. The state of the block: 10_state.md R100 to R129, grouped by unit as 20_memory.md R233 groups it, and the
model's own record of its ports. Plain data.
-/

namespace Sys2Proof.Machine

/-- The causes of a fault (R901). NONE is no cause: it is the code 0 that `fault_cause` holds while not halted. -/
inductive FaultCause where
  /-- any illegal command word (R902) -/
  | illegal
  /-- ENC_SYM or ENC_END while `enc_active` = 0 (R903) -/
  | encSeq
  /-- DEC_BYTE or DEC_END while `dec_active` = 0 (R904) -/
  | decSeq
  /-- DEC_BYTE that completes a code neither in DTAB nor a KwK code (R905) -/
  | decBadCode
  /-- DEC_BYTE that completes a 17-bit code (R906) -/
  | decWidth
  deriving DecidableEq, Repr

/-- Why the MODEL stops. The block's own faults are no stops: entering one is a next state (R910, log 5). Each of these
is met only in states that no run of the block reaches (log 11). -/
inductive Fault where
  /-- Raised by ENC_SYM on a miss when ETAB binds the current pattern to no code, which R620 (b) says never happens.
  Safe: the model stops where the rules give no code to send. -/
  | encPatternUnbound
  /-- Raised by DEC_BYTE when the decoded pattern is empty and its first symbol is needed, which R123 rules out.
  Safe: the model stops where R18 leaves `p[0]` undefined. -/
  | decPatternEmpty
  /-- Raised by DEC_BYTE when `dec_next` names no slot of DTAB, which R203 says never happens.
  Safe: the model stops where the rules give no slot to write. -/
  | dtabNoSlot
  deriving DecidableEq, Repr

/-- Why the model refuses an instruction. -/
inductive Refusal where
  /-- an instruction that has no meaning yet; raised by exec's arms only. Safe. -/
  | notModelled (mnemonic : String)
  /-- a packer channel word outside the legal set of R311; raised by PK_CODE on its operand ranges and by the step on a
  word that decodes to nothing. Safe: "A model of PACK on its own refuses every other word". -/
  | packerWordNotLegal
  /-- an unpacker channel word outside the legal set of R313; raised by UP_TAKE on its width and on too few pending bits,
  and by the step on a word that decodes to nothing. Safe: "A model of UNPACK on its own refuses every other word". -/
  | unpackerWordNotLegal
  deriving DecidableEq, Repr

/-- Control state (R110 to R113). -/
structure Ctrl where
  /-- `halted` (R110) -/
  halted : Bool
  /-- `fault_cause` (R111) -/
  faultCause : BitVec 4
  /-- `fault_cmd` (R112) -/
  faultCmd : CmdWord
  /-- `cap` (R113) -/
  cap : BitVec 16
  deriving DecidableEq, Repr

/-- Encoder and packer state, and the encoder's output (R115 to R121, R129). -/
structure Enc where
  /-- `enc_active` (R115) -/
  active : Bool
  /-- `enc_cap` (R116) -/
  cap : BitVec 16
  /-- ETAB (R117) -/
  table : EncTable
  /-- `enc_count` (R118) -/
  count : BitVec 17
  /-- `enc_width` (R119) -/
  width : BitVec 5
  /-- `enc_pattern` (R120) -/
  pattern : Pattern
  /-- `pk_bits` (R121) -/
  pkBits : Bits
  /-- `enc_out`: every byte appended since reset (R129) -/
  out : List Byte
  deriving DecidableEq, Repr

/-- Decoder and unpacker state, and the decoder's output (R122 to R129). -/
structure Dec where
  /-- `dec_active` (R122) -/
  active : Bool
  /-- DTAB (R123) -/
  table : DecTable
  /-- `dec_next` (R124) -/
  next : BitVec 17
  /-- `dec_count` (R125) -/
  count : BitVec 17
  /-- `dec_width` (R126) -/
  width : BitVec 5
  /-- `dec_prev` (R127) -/
  prev : Pattern
  /-- `up_bits` (R128) -/
  upBits : Bits
  /-- `dec_out`: every byte appended since reset (R129) -/
  out : List Byte
  deriving DecidableEq, Repr

/-- The MODEL's own record of what passes the ports: not state of the block (R100). DESIGN CHOICE, logs 1, 2 and 3. -/
structure Ports where
  /-- what the host has sent and the block has not yet accepted, oldest first (R230) -/
  input : List Event
  /-- every value answered on the CSR read port, oldest first (R130, R314) -/
  csrAnswers : List (BitVec 32)
  /-- every response given on the unpacker channel, oldest first: [16] OK, [15:0] VALUE (R312) -/
  takeAnswers : List (BitVec 17)
  deriving DecidableEq, Repr

/-- The state of the block and of its ports. -/
structure State where
  ctrl : Ctrl
  enc : Enc
  dec : Dec
  ports : Ports
  deriving DecidableEq, Repr

/-- The control state after reset (R150). -/
def Ctrl.reset : Ctrl where
  halted := false
  faultCause := 0
  faultCmd := 0
  cap := BitVec.ofNat 16 Config.capReset

/-- The encoder and packer state after reset (R150). -/
def Enc.reset : Enc where
  active := false
  cap := BitVec.ofNat 16 Config.capReset
  table := etabSeed
  count := BitVec.ofNat 17 Config.seed
  width := BitVec.ofNat 5 Config.wInit
  pattern := []
  pkBits := []
  out := []

/-- The decoder and unpacker state after reset (R150). -/
def Dec.reset : Dec where
  active := false
  table := dtabSeed
  next := BitVec.ofNat 17 Config.seed
  count := BitVec.ofNat 17 Config.seed
  width := BitVec.ofNat 5 Config.wInit
  prev := []
  upBits := []
  out := []

/-- No word sent, none answered. DESIGN CHOICE, logs 1, 2 and 3. -/
def Ports.reset : Ports where
  input := []
  csrAnswers := []
  takeAnswers := []

/-- The machine right after reset (R150, R1000). -/
def State.reset : State where
  ctrl := Ctrl.reset
  enc := Enc.reset
  dec := Dec.reset
  ports := Ports.reset

end Sys2Proof.Machine
end

