-- ==== Sys2Proof/Machine/Flags.lean ====
section
/-!
DEFINITION. The status the block shows: the fault cause codes (60_exceptions.md R901), the CSR map (10_state.md R130 to
R145), the level output `halted_o` (46_control.md R830), and bitlen (10_state.md R160 (g)). Nothing here is stored.
-/

namespace Sys2Proof.Machine

/-- The code of a fault cause (R901). -/
def causeCode : FaultCause → BitVec 4
  | .illegal => 1
  | .encSeq => 2
  | .decSeq => 3
  | .decBadCode => 4
  | .decWidth => 5

/-- STATUS.ENC_CAP_REACHED: `enc_count` ≥ `enc_cap` (R131). -/
def encCapReached (s : State) : Bool := decide (s.enc.cap.toNat ≤ s.enc.count.toNat)

/-- STATUS: [7:4] FAULT_CAUSE, [3] ENC_CAP_REACHED, [2] HALTED, [1] DEC_ACTIVE, [0] ENC_ACTIVE, the rest 0 (R131). -/
def statusWord (s : State) : BitVec 32 :=
  (0 : BitVec 24) ++ s.ctrl.faultCause ++ BitVec.ofBool (encCapReached s) ++ BitVec.ofBool s.ctrl.halted ++
    BitVec.ofBool s.dec.active ++ BitVec.ofBool s.enc.active

/-- The value of the ID CSR, hardwired (R141). -/
def idWord : BitVec 32 := 0x4C5A5701

/-- The CSR map (R131 to R144). Each field holds as many bits as R145 gives it and the rest read 0. Log 20. -/
def csrValue (a : BitVec 8) (s : State) : BitVec 32 :=
  match a.toNat with
  | 0x00 => statusWord s
  | 0x04 => s.ctrl.cap.setWidth 32
  | 0x08 => s.enc.cap.setWidth 32
  | 0x0C => s.enc.count.setWidth 32
  | 0x10 => s.enc.width.setWidth 32
  | 0x14 => (BitVec.ofNat 17 s.enc.pattern.length).setWidth 32
  | 0x18 => (BitVec.ofNat 3 s.enc.pkBits.length).setWidth 32
  | 0x1C => s.dec.next.setWidth 32
  | 0x20 => s.dec.count.setWidth 32
  | 0x24 => s.dec.width.setWidth 32
  | 0x28 => idWord
  | 0x2C => (BitVec.ofNat 5 s.dec.upBits.length).setWidth 32
  | 0x30 => s.ctrl.faultCmd
  | _ => 0

/-- The level output `halted_o` (R830, R920). -/
def haltedOut (s : State) : Bool := s.ctrl.halted

/-- bitlen(n), the number of binary digits of n (R160 (g)). -/
def bitlen (n : Nat) : Nat := if n = 0 then 0 else n.log2 + 1

end Sys2Proof.Machine
end

