-- ==== Sys2Proof/WellFormed.lean ====
section
/-!
DEFINITION. The operand ranges the encodings do not enforce by themselves: the legal channel words of 30_encoding.md R311
and R313. Every other operand field admits every value (R302, R303, R314).
-/

namespace Sys2Proof

/-- A code width a channel word may carry: 9 to 16 (R311, R313). -/
def legalWidth (w : BitVec 5) : Bool := Config.wInit ≤ w.toNat && w.toNat ≤ Config.wMax

/-- VALUE < 2^WIDTH (R311). -/
def codeFits (v : Code) (w : BitVec 5) : Bool := v.toNat < 2 ^ w.toNat

/-- The instruction's operands are in the ranges the spec gives it. -/
def WellFormed : Instr → Bool
  | .setCap _ => true
  | .encStart => true
  | .encSym _ => true
  | .encEnd => true
  | .decStart => true
  | .decByte _ => true
  | .decEnd => true
  | .pkCode v w => legalWidth w && codeFits v w
  | .pkFlush => true
  | .upPush _ => true
  | .upTake w => legalWidth w
  | .upDrop => true
  | .csrRead _ => true

end Sys2Proof
end

