-- ==== Sys2Proof/Decode.lean ====
section
/-!
DEFINITION. Decoding of the words of 30_encoding.md, total, rejecting by name, and the encoder written from the same
tables. A command word is decoded as R308 says; a channel word by the match and mask of spec/opcode_table.json (R310,
R312); every CSR address is legal (R314).
-/

namespace Sys2Proof

/-- Why a word is no instruction. -/
inductive Reject where
  /-- OP is 0x0 or 0x8 to 0xF (R301, R305) -/
  | illegalOp
  /-- a bit of RSV, [27:16], is 1 (R304, R305) -/
  | reservedBits
  /-- a must-be-zero bit of IMM is 1 (R304, R305) -/
  | operandBits
  /-- PK_FLUSH with WIDTH or VALUE not 0 (R311) -/
  | flushOperand
  /-- UOP = 3 (R312) -/
  | reservedUop
  /-- an unpacker word with a reserved bit, or a field its operation does not use, not 0 (R312) -/
  | unusedField
  deriving DecidableEq, Repr

/-- OP, bits [31:28] (R300). -/
def opField (w : CmdWord) : BitVec 4 := w.extractLsb' 28 4
/-- RSV, bits [27:16] (R300). -/
def rsvField (w : CmdWord) : BitVec 12 := w.extractLsb' 16 12
/-- IMM, bits [15:0] (R300). -/
def immField (w : CmdWord) : BitVec 16 := w.extractLsb' 0 16

/-- A command without an operand: IMM must be 0 (R304). -/
def noOperand (imm : BitVec 16) (i : Instr) : Except Reject Instr :=
  if imm = 0 then .ok i else .error .operandBits

/-- A command with an 8-bit operand in IMM[7:0]: IMM[15:8] must be 0 (R303, R304). -/
def byteOperand (imm : BitVec 16) (i : Byte → Instr) : Except Reject Instr :=
  if imm.extractLsb' 8 8 = 0 then .ok (i (imm.extractLsb' 0 8)) else .error .operandBits

/-- The command decoder of R308. -/
def decodeCommand (w : CmdWord) : Except Reject Instr :=
  if rsvField w ≠ 0 then .error .reservedBits
  else
    match (opField w).toNat with
    | 1 => .ok (.setCap (immField w))
    | 2 => noOperand (immField w) .encStart
    | 3 => byteOperand (immField w) .encSym
    | 4 => noOperand (immField w) .encEnd
    | 5 => noOperand (immField w) .decStart
    | 6 => byteOperand (immField w) .decByte
    | 7 => noOperand (immField w) .decEnd
    | _ => .error .illegalOp

/-- The packer channel word of R310: K in bit 21, WIDTH in [20:16], VALUE in [15:0]. -/
def decodePacker (w : BitVec 22) : Except Reject Instr :=
  if w.getLsbD 21 then
    if w.extractLsb' 0 21 = 0 then .ok .pkFlush else .error .flushOperand
  else .ok (.pkCode (w.extractLsb' 0 16) (w.extractLsb' 16 5))

/-- The unpacker channel word of R312: UOP in [23:22], WIDTH in [20:16], BYTE in [7:0]; bit 21 and [15:8] reserved. -/
def decodeUnpacker (w : BitVec 24) : Except Reject Instr :=
  match (w.extractLsb' 22 2).toNat with
  | 0 => if w.extractLsb' 8 14 = 0 then .ok (.upPush (w.extractLsb' 0 8)) else .error .unusedField
  | 1 =>
    if w.getLsbD 21 = false ∧ w.extractLsb' 0 16 = 0 then .ok (.upTake (w.extractLsb' 16 5))
    else .error .unusedField
  | 2 => if w.extractLsb' 0 22 = 0 then .ok .upDrop else .error .unusedField
  | _ => .error .reservedUop

/-- The instruction a word on a port carries. -/
def decode : PortWord → Except Reject Instr
  | .command w => decodeCommand w
  | .packer w => decodePacker w
  | .unpacker w => decodeUnpacker w
  | .csr a => .ok (.csrRead a)

/-! ### The encoder -/

/-- A command word from its fields (R300): RSV is 0. -/
def commandWord (op : BitVec 4) (imm : BitVec 16) : CmdWord := op ++ (0 : BitVec 12) ++ imm

/-- IMM of a command with an 8-bit operand (R303, R304). -/
def byteImm (b : Byte) : BitVec 16 := (0 : BitVec 8) ++ b

/-- A packer channel word from its fields (R310). -/
def packerWord (k : Bool) (w : BitVec 5) (v : Code) : BitVec 22 := BitVec.ofBool k ++ w ++ v

/-- An unpacker channel word from its fields (R312). -/
def unpackerWord (uop : BitVec 2) (w : BitVec 5) (b : Byte) : BitVec 24 :=
  uop ++ (0 : BitVec 1) ++ w ++ (0 : BitVec 8) ++ b

/-- The word of an instruction on its port (R301, R302, R310, R312, R314). -/
def encode : Instr → PortWord
  | .setCap v => .command (commandWord 1 v)
  | .encStart => .command (commandWord 2 0)
  | .encSym s => .command (commandWord 3 (byteImm s))
  | .encEnd => .command (commandWord 4 0)
  | .decStart => .command (commandWord 5 0)
  | .decByte b => .command (commandWord 6 (byteImm b))
  | .decEnd => .command (commandWord 7 0)
  | .pkCode v w => .packer (packerWord false w v)
  | .pkFlush => .packer (packerWord true 0 0)
  | .upPush b => .unpacker (unpackerWord 0 0 b)
  | .upTake w => .unpacker (unpackerWord 1 w 0)
  | .upDrop => .unpacker (unpackerWord 2 0 0)
  | .csrRead a => .csr a

/-! ### The words of spec/opcode_table.json as numbers -/

/-- The port a table row's word belongs to, from the row's number of bits: 32 is a command, 22 a packer word, 8 a CSR
address. The two channels both fill 24 bits in whole bytes: there a word that is an unpacker word is taken as one, and
any other as a packer word when bits [23:22] are 0. The LEGAL words of the two channels do not meet (a legal PK_CODE has
WIDTH at least 9, a PK_FLUSH has bit 21 set, and no unpacker word has either with UOP = 0). Log 15. -/
def tablePortWord (nbits w : Nat) : PortWord :=
  if nbits ≤ 8 then .csr (BitVec.ofNat 8 w)
  else if nbits = 22 then .packer (BitVec.ofNat 22 w)
  else if nbits ≤ 24 then
    match decodeUnpacker (BitVec.ofNat 24 w) with
    | .ok _ => .unpacker (BitVec.ofNat 24 w)
    | .error _ =>
      if w / 2 ^ 22 % 4 = 0 then .packer (BitVec.ofNat 22 w) else .unpacker (BitVec.ofNat 24 w)
  else .command (BitVec.ofNat 32 w)

/-- The instruction the decoder reads from a table row's word. -/
def decodeTableWord (nbits w : Nat) : Option Instr :=
  match decode (tablePortWord nbits w) with
  | .ok i => some i
  | .error _ => none

/-- A row's match and mask (R302). -/
structure Row where
  mask : Nat
  value : Nat
  deriving DecidableEq, Repr

/-- (w AND mask) = match (R302). -/
def rowMatches (r : Row) (w : Nat) : Bool := w &&& r.mask == r.value

/-- The match and mask of an instruction's row: R302 for the commands, R310, R312 and R314 for the others. -/
def rowOf : Instr → Row
  | .setCap _ => ⟨0xFFFF0000, 0x10000000⟩
  | .encStart => ⟨0xFFFFFFFF, 0x20000000⟩
  | .encSym _ => ⟨0xFFFFFF00, 0x30000000⟩
  | .encEnd => ⟨0xFFFFFFFF, 0x40000000⟩
  | .decStart => ⟨0xFFFFFFFF, 0x50000000⟩
  | .decByte _ => ⟨0xFFFFFF00, 0x60000000⟩
  | .decEnd => ⟨0xFFFFFFFF, 0x70000000⟩
  | .pkCode _ _ => ⟨0x200000, 0x000000⟩
  | .pkFlush => ⟨0x3FFFFF, 0x200000⟩
  | .upPush _ => ⟨0xFFFF00, 0x000000⟩
  | .upTake _ => ⟨0xE0FFFF, 0x400000⟩
  | .upDrop => ⟨0xFFFFFF, 0x800000⟩
  | .csrRead _ => ⟨0x00, 0x00⟩

/-- The word on a port as a number. -/
def portNat : PortWord → Nat
  | .command w => w.toNat
  | .packer w => w.toNat
  | .unpacker w => w.toNat
  | .csr a => a.toNat

end Sys2Proof
end

