-- ==== Sys2Proof/Machine/Operands.lean ====
section
/-!
DEFINITION. Bits, codes and bytes: the format of the packed stream (20_memory.md R205, R210, R211) and the fold that
reads it back (43_bit_unpacker.md R560).
-/

/-- FILL for this hardware: LSB_FIRST (R10, R12, D7). Log 9. -/
def Sys2Proof.Config.fill : Sys2Proof.Fill := .lsbFirst

namespace Sys2Proof.Machine

/-- The number whose bit i is element i of the list. -/
def lsbValue : Bits → Nat
  | [] => 0
  | b :: bs => b.toNat + 2 * lsbValue bs

/-- "acc = (acc << 1) | bit", from the first element on (R560). -/
def foldMsb (acc : Nat) : Bits → Nat
  | [] => acc
  | b :: bs => foldMsb (2 * acc + b.toNat) bs

/-- byte_of, for a bit list of length 8 (R210). -/
def byteOf (f : Fill) (b : Bits) : Byte :=
  match f with
  | .lsbFirst => BitVec.ofNat 8 (lsbValue b)
  | .msbFirst => BitVec.ofNat 8 (foldMsb 0 b)

/-- bits_of (R211). -/
def bitsOf (f : Fill) (v : Byte) : Bits :=
  match f with
  | .lsbFirst =>
    [v.getLsbD 0, v.getLsbD 1, v.getLsbD 2, v.getLsbD 3, v.getLsbD 4, v.getLsbD 5, v.getLsbD 6, v.getLsbD 7]
  | .msbFirst =>
    [v.getLsbD 7, v.getLsbD 6, v.getLsbD 5, v.getLsbD 4, v.getLsbD 3, v.getLsbD 2, v.getLsbD 1, v.getLsbD 0]

/-- The w bits of a code, most significant first: v[w-1], ..., v[0] (R205, R500). -/
def msbFirst (v : Code) : Nat → Bits
  | 0 => []
  | w + 1 => v.getLsbD w :: msbFirst v w

/-- The code whose bits, most significant first, are the list (R560). -/
def codeOf (b : Bits) : Code := BitVec.ofNat 16 (foldMsb 0 b)

/-- Whole bytes off the front of a bit list while 8 bits are left, and the bits that remain (the loop of R500). The first
argument bounds the rounds; the length of the list is always enough. -/
def drainBytes (f : Fill) : Nat → Bits → List Byte × Bits
  | 0, bits => ([], bits)
  | n + 1, bits =>
    if 8 ≤ bits.length then
      (byteOf f (bits.take 8) :: (drainBytes f n (bits.drop 8)).1, (drainBytes f n (bits.drop 8)).2)
    else ([], bits)

/-- A partial byte with its remaining positions 0 (R210, R510). -/
def padByte (f : Fill) (bits : Bits) : Byte := byteOf f (bits ++ List.replicate (8 - bits.length) false)

/-- A width a channel word may carry: 9 to 16 (R311, R313). -/
def widthInRange (w : BitVec 5) : Bool := decide (9 ≤ w.toNat ∧ w.toNat ≤ 16)

/-- The operands a PK_CODE word may carry: WIDTH in range and VALUE < 2^WIDTH (R311, R500). -/
def codeInRange (v : Code) (w : BitVec 5) : Bool := widthInRange w && decide (v.toNat < 2 ^ w.toNat)

/-- The UP_TAKE words that are legal with these bits pending: WIDTH in range and at least WIDTH bits pending (R313,
93_implementation_defined.md X11). -/
def takeInRange (w : BitVec 5) (pending : Bits) : Bool := widthInRange w && decide (w.toNat ≤ pending.length)

/-- The UP_TAKE response: [16] OK, [15:0] VALUE, and VALUE is 0 when OK is 0 (R312). -/
def takeAnswer (v : Option Code) : BitVec 17 :=
  match v with
  | some c => (1 : BitVec 1) ++ c
  | none => 0

/-- The slot of DTAB that a 17-bit code counter names, when there is one (DEPTH = 65536 slots, R10, R203). -/
def slotOf (n : BitVec 17) : Option Code := if n.toNat < Config.depth then some (n.setWidth 16) else none

end Sys2Proof.Machine
end

