-- ==== Sys2Proof/Machine/Ops.lean ====
section
/-!
DEFINITION. The operations the commands share: fault entry and reset (60_exceptions.md R910, 70_reset_and_hazards.md
R1000), the dispatch checks (46_control.md R800), the width policy (41_width_policy.md R452, R453), the table inserts
with their conditions (40_symbol_table.md R402, R412), the packer (42_bit_packer.md) and the unpacker
(43_bit_unpacker.md).
-/

namespace Sys2Proof.Machine

/-- The three outcomes of an instruction or a step. -/
abbrev Result := Host.Outcome State Fault Refusal

/-- Go on from a next state; a stop stays a stop. -/
def andThen (r : Result) (f : State → Result) : Result :=
  match r with
  | .next s => f s
  | .fault x => .fault x
  | .refused x => .refused x

/-! ### Faults and reset -/

/-- Fault entry: `halted`, `fault_cause` and `fault_cmd` are written, nothing else (R910). -/
def takeFault (c : FaultCause) (w : CmdWord) (s : State) : State :=
  { s with ctrl := { s.ctrl with halted := true, faultCause := causeCode c, faultCmd := w } }

/-- The way out of the halted state (R1001, R915): reset puts every element of the block at its value of R150. What the
host has sent after it, and what was answered before it, are outside the block. Log 4. -/
def applyReset (s : State) : State := { State.reset with ports := s.ports }

/-! ### Dispatch (R800) -/

/-- The command word of a command, the word `fault_cmd` records (R910). R302 and R306 make it the only word that decodes
to the command, so it is the word the host wrote. Log 17. -/
def wordOf (i : Instr) : CmdWord :=
  match encode i with
  | .command w => w
  | .packer _ => 0
  | .unpacker _ => 0
  | .csr _ => 0

/-- A halted block drops every command word (R800, R911). -/
def whenRunning (s : State) (rule : State → Result) : Result := if s.ctrl.halted then .next s else rule s

/-- A command that needs an active compress operation: ENC_SEQ without one (R800, R810, R903). -/
def whenEncoding (i : Instr) (s : State) (rule : State → Result) : Result :=
  whenRunning s fun s => if s.enc.active then rule s else .next (takeFault .encSeq (wordOf i) s)

/-- A command that needs an active decompress operation: DEC_SEQ without one (R800, R810, R904). -/
def whenDecoding (i : Instr) (s : State) (rule : State → Result) : Result :=
  whenRunning s fun s => if s.dec.active then rule s else .next (takeFault .decSeq (wordOf i) s)

/-- A word that is no instruction. A command word takes the fault ILLEGAL unless the block is halted (R305, R800,
R902); a channel word is refused (R311, R313, D26); a CSR address is never rejected (R144). -/
def rejectWord (p : PortWord) (s : State) : Result :=
  match p with
  | .command w => whenRunning s fun s => .next (takeFault .illegal w s)
  | .packer _ => .refused .packerWordNotLegal
  | .unpacker _ => .refused .unpackerWordNotLegal
  | .csr _ => .next s

/-! ### Width policy -/

/-- record_growth_E (R452). -/
def recordGrowthE (e : Enc) : Enc :=
  { e with
    count := e.count + 1
    width := if 2 ^ e.width.toNat ≤ (e.count + 1).toNat then e.width + 1 else e.width }

/-- record_growth_D (R453). -/
def recordGrowthD (d : Dec) : Dec :=
  { d with
    count := d.count + 1
    width := if 2 ^ d.width.toNat ≤ (d.count + 1).toNat then d.width + 1 else d.width }

/-! ### Table insert on the encoder side -/

/-- ETAB.insert(p): Success is the encoder with the new binding, Rejected is none (R402, R403). The code is `enc_count`,
which is below `enc_cap` and so has 16 bits. -/
def etabInsert (p : Pattern) (e : Enc) : Option Enc :=
  if e.count.toNat < e.cap.toNat then some { e with table := etabBind p (e.count.setWidth 16) e.table } else none

/-- The insert of ENC_SYM and the growth that follows a successful one (R620). -/
def insertAndGrow (p : Pattern) (e : Enc) : Enc :=
  match etabInsert p e with
  | some e' => recordGrowthE e'
  | none => e

/-! ### Packer -/

/-- PK_CODE(v, w): the code's bits follow the pending ones, whole bytes go out (R500). -/
def packCode (v : Code) (w : Nat) (e : Enc) : Enc :=
  let bits := e.pkBits ++ msbFirst v w
  let drained := drainBytes Config.fill bits.length bits
  { e with out := e.out ++ drained.1, pkBits := drained.2 }

/-- PK_FLUSH: a zero-padded byte if bits are pending (R510). -/
def packFlush (e : Enc) : Enc :=
  { e with
    out := if e.pkBits.length = 0 then e.out else e.out ++ [padByte Config.fill e.pkBits]
    pkBits := [] }

/-! ### Unpacker -/

/-- UP_PUSH(b) (R550). -/
def unpackPush (b : Byte) (d : Dec) : Dec := { d with upBits := d.upBits ++ bitsOf Config.fill b }

/-- UP_TAKE(w): the code of the first w pending bits, taken when there are as many; else nothing is taken (R560). -/
def unpackTake (w : Nat) (d : Dec) : Option Code × Dec :=
  if d.upBits.length < w then (none, d)
  else (some (codeOf (d.upBits.take w)), { d with upBits := d.upBits.drop w })

/-- UP_DROP (R570). -/
def unpackDrop (d : Dec) : Dec := { d with upBits := [] }

end Sys2Proof.Machine
end

