-- ==== Sys2Proof/Machine/Channel.lean ====
section
/-!
DEFINITION. The channel words as operations of their own: PK_CODE and PK_FLUSH (42_bit_packer.md), UP_PUSH, UP_TAKE and
UP_DROP (43_bit_unpacker.md). They are no command words: no dispatch check applies to them (46_control.md R800). A word
outside the legal set is refused (R311, R313). Log 6.
-/

namespace Sys2Proof.Machine

/-- PK_CODE (R500), refused outside 9 ≤ w ≤ 16 and v < 2^w (R311, R500 (c)). -/
def execPkCode (v : Code) (w : BitVec 5) (s : State) : Result :=
  if codeInRange v w then .next { s with enc := packCode v w.toNat s.enc }
  else .refused .packerWordNotLegal

/-- PK_FLUSH (R510). -/
def execPkFlush (s : State) : Result := .next { s with enc := packFlush s.enc }

/-- UP_PUSH (R550). -/
def execUpPush (b : Byte) (s : State) : Result := .next { s with dec := unpackPush b s.dec }

/-- UP_TAKE (R560). Presented on its own it is refused outside 9 ≤ w ≤ 16 and with fewer than w bits pending (R313,
93_implementation_defined.md X11); the response (0, 0) that R560 gives for too few bits is `unpackTake`'s. Log 7. -/
def execUpTake (w : BitVec 5) (s : State) : Result :=
  if takeInRange w s.dec.upBits then
    let taken := unpackTake w.toNat s.dec
    .next { s with dec := taken.2, ports.takeAnswers := s.ports.takeAnswers ++ [takeAnswer taken.1] }
  else .refused .unpackerWordNotLegal

/-- UP_DROP (R570). -/
def execUpDrop (s : State) : Result := .next { s with dec := unpackDrop s.dec }

end Sys2Proof.Machine
end

