-- ==== Sys2Proof/Machine/Csr.lean ====
section
/-!
DEFINITION. The CSR read port (46_control.md R820).
-/

namespace Sys2Proof.Machine

/-- CSR_READ a (R820): the value goes to the port's DATA output; no state of the block changes; answered in the halted
state too, and not a command, so no dispatch check applies. Log 2. -/
def execCsrRead (a : BitVec 8) (s : State) : Result :=
  .next { s with ports.csrAnswers := s.ports.csrAnswers ++ [csrValue a s] }

end Sys2Proof.Machine
end

