-- ==== Sys2Proof/Machine/Decoder.lean ====
section
/-!
DEFINITION. The decoder commands and the input demux (45_decoder.md R700 to R740).
-/

namespace Sys2Proof.Machine

/-- DEC_START's decoder (R700). `dec_out` stays. -/
def startDecoder (d : Dec) : Dec :=
  { d with
    table := dtabSeed
    next := BitVec.ofNat 17 Config.seed
    count := BitVec.ofNat 17 Config.seed
    width := BitVec.ofNat 5 Config.wInit
    prev := []
    upBits := []
    active := true }

/-- DEC_START (R700); during an operation it restarts. -/
def execDecStart (s : State) : Result :=
  whenRunning s fun s => .next { s with dec := startDecoder s.dec }

/-- How the body of DEC_BYTE ends: the decoder it leaves, a fault of the block, or a stop of the model (log 11). -/
inductive Decoded where
  | done (d : Dec)
  | trap (c : FaultCause)
  | stuck (f : Fault)
  deriving DecidableEq, Repr

/-- Step 4 of R710: with a previous pattern, DTAB.insert(dec_next, dec_prev ++ [e[0]]) and `dec_next` advances; on the
first code of an operation nothing is inserted. -/
def insertNext (e : Pattern) (d : Dec) : Decoded :=
  match d.prev, e with
  | [], _ => .done d
  | _ :: _, [] => .stuck .decPatternEmpty
  | _ :: _, e0 :: _ =>
    match slotOf d.next with
    | some c => .done { d with table := dtabInsert c (d.prev ++ [e0]) d.table, next := d.next + 1 }
    | none => .stuck .dtabNoSlot

/-- Steps 3 to 6 of R710 for a decoded pattern: output, insert, previous pattern, growth. -/
def deliver (e : Pattern) (d : Dec) : Decoded :=
  match insertNext e { d with out := d.out ++ e } with
  | .done d' => .done (recordGrowthD { d' with prev := e })
  | .trap c => .trap c
  | .stuck f => .stuck f

/-- The input demux (R740) for a code c: the table path, the KwK path (R711) or the fault path (R712). -/
def routeCode (c : Code) (d : Dec) : Decoded :=
  match dtabLookup c d.table with
  | some e => deliver e d
  | none =>
    match d.prev with
    | [] => .trap .decBadCode
    | p0 :: _ =>
      if c.toNat = d.next.toNat then
        deliver (d.prev ++ [p0]) { d with table := dtabInsert c (d.prev ++ [p0]) d.table }
      else .trap .decBadCode

/-- The body of DEC_BYTE (R710): push the byte; with a whole code pending, take it at `dec_width` and route it. DEC_WIDTH
comes before the code is read (R713, R913). -/
def decodeByte (b : Byte) (d : Dec) : Decoded :=
  if (unpackPush b d).upBits.length < d.width.toNat then .done (unpackPush b d)
  else if Config.wMax < d.width.toNat then .trap .decWidth
  else
    match unpackTake d.width.toNat (unpackPush b d) with
    | (some c, d') => routeCode c d'
    | (none, d') => .done d'

/-- DEC_BYTE b (R710). A faulting DEC_BYTE writes the fault record and nothing else (R910). -/
def execDecByte (b : Byte) (s : State) : Result :=
  whenDecoding (.decByte b) s fun s =>
    match decodeByte b s.dec with
    | .done d => .next { s with dec := d }
    | .trap c => .next (takeFault c (wordOf (.decByte b)) s)
    | .stuck f => .fault f

/-- The body of DEC_END (R730): the pending bits are dropped, the decoder is idle; nothing is output. -/
def endDecoder (d : Dec) : Dec := { unpackDrop d with prev := [], active := false }

/-- DEC_END (R730). -/
def execDecEnd (s : State) : Result :=
  whenDecoding .decEnd s fun s => .next { s with dec := endDecoder s.dec }

end Sys2Proof.Machine
end

