-- ==== Sys2Proof/Machine/Encoder.lean ====
section
/-!
DEFINITION. The encoder commands and the output mux (44_encoder.md R600 to R641).
-/

namespace Sys2Proof.Machine

/-- SET_CAP v (R600): accepted whether the encoder is active or not. -/
def execSetCap (v : BitVec 16) (s : State) : Result :=
  whenRunning s fun s => .next { s with ctrl := { s.ctrl with cap := v } }

/-- What ENC_START makes of the encoder, with the cap it latches (R610). `enc_out` stays. -/
def startEncoder (cap : BitVec 16) (e : Enc) : Enc :=
  { e with
    table := etabSeed
    count := BitVec.ofNat 17 Config.seed
    width := BitVec.ofNat 5 Config.wInit
    pattern := []
    pkBits := []
    cap := cap
    active := true }

/-- ENC_START (R610); during an operation it restarts (R611). -/
def execEncStart (s : State) : Result :=
  whenRunning s fun s => .next { s with enc := startEncoder s.ctrl.cap s.enc }

/-- A miss of ENC_SYM: the current pattern's code goes out (mux select LOOP, R640) at the width before the insert (R456),
the symbol starts the next pattern, the candidate is inserted if the cap allows (R620 step 3). -/
def encodeMiss (sym : Byte) (c : Code) (e : Enc) : Enc :=
  insertAndGrow (e.pattern ++ [sym]) { packCode c e.width.toNat e with pattern := [sym] }

/-- The body of ENC_SYM (R620): step 2 on a hit, step 3 on a miss; none when a miss finds the current pattern without a
code, which R620 (b) rules out (log 11). -/
def encodeSymbol (sym : Byte) (e : Enc) : Option Enc :=
  match etabLookup (e.pattern ++ [sym]) e.table with
  | some _ => some { e with pattern := e.pattern ++ [sym] }
  | none => (etabLookup e.pattern e.table).map fun c => encodeMiss sym c e

/-- ENC_SYM s (R620). -/
def execEncSym (sym : Byte) (s : State) : Result :=
  whenEncoding (.encSym sym) s fun s =>
    match encodeSymbol sym s.enc with
    | some e => .next { s with enc := e }
    | none => .fault .encPatternUnbound

/-- ENC_END's final code (mux select FINAL, R640): sent "if `pattern` is non-empty and resolves to a known code" (R630,
log 12). -/
def encodeFinal (e : Enc) : Enc :=
  match e.pattern, etabLookup e.pattern e.table with
  | [], _ => e
  | _ :: _, some c => packCode c e.width.toNat e
  | _ :: _, none => e

/-- The body of ENC_END (R630): the final code, the packer flush (mux select FLUSH), then the encoder is idle. -/
def endEncoder (e : Enc) : Enc := { packFlush (encodeFinal e) with pattern := [], active := false }

/-- ENC_END (R630). -/
def execEncEnd (s : State) : Result :=
  whenEncoding .encEnd s fun s => .next { s with enc := endEncoder s.enc }

end Sys2Proof.Machine
end

