-- ==== Sys2Proof/Machine/Dispatch.lean ====
section
/-!
DEFINITION. One arm per instruction.
-/

namespace Sys2Proof.Machine

def exec (i : Instr) (s : State) : Host.Outcome State Fault Refusal :=
  match i with
  | .setCap v => Sys2Proof.Machine.execSetCap v s
  | .encStart => Sys2Proof.Machine.execEncStart s
  | .encSym sym => Sys2Proof.Machine.execEncSym sym s
  | .encEnd => Sys2Proof.Machine.execEncEnd s
  | .decStart => Sys2Proof.Machine.execDecStart s
  | .decByte b => Sys2Proof.Machine.execDecByte b s
  | .decEnd => Sys2Proof.Machine.execDecEnd s
  | .pkCode v w => Sys2Proof.Machine.execPkCode v w s
  | .pkFlush => Sys2Proof.Machine.execPkFlush s
  | .upPush b => Sys2Proof.Machine.execUpPush b s
  | .upTake w => Sys2Proof.Machine.execUpTake w s
  | .upDrop => Sys2Proof.Machine.execUpDrop s
  | .csrRead a => Sys2Proof.Machine.execCsrRead a s

end Sys2Proof.Machine
end

