-- ==== Sys2Proof/Machine/Accept.lean ====
section
/-!
DEFINITION. How the block takes what the host sends (20_memory.md R230, 46_control.md R800): the next event, and what
accepting it does.
-/

namespace Sys2Proof.Machine

/-- A word on a port: the instruction it carries is run; a word that carries none is rejected. `exec` makes the halted
check of R800 for every command and `rejectWord` makes it for an illegal word, so the checks come in R800's order. -/
def acceptWord (p : PortWord) (s : State) : Result :=
  match decode p with
  | .ok i => exec i s
  | .error _ => rejectWord p s

/-- An event. Command words written while reset is asserted are not accepted (R1000, X12). -/
def acceptEvent (e : Event) (s : State) : Result :=
  match e with
  | .word p => acceptWord p s
  | .reset _ => .next (applyReset s)

/-- The oldest event not yet accepted, and the state without it. -/
def nextEvent (s : State) : Option (Event × State) :=
  match s.ports.input with
  | [] => none
  | e :: rest => some (e, { s with ports.input := rest })

/-- Accept the next event; with none waiting the block waits, which changes no state (R944). Log 19. -/
def runNext (s : State) : Result :=
  match nextEvent s with
  | none => .next s
  | some (e, s') => acceptEvent e s'

/-- Accept events one after the other, in order, until one stops (R230). -/
def acceptAll : List Event → State → Result
  | [], s => .next s
  | e :: es, s => andThen (acceptEvent e s) (acceptAll es)

/-- The host sends these events after the ones already waiting (R230). -/
def send (es : List Event) (s : State) : State := { s with ports.input := s.ports.input ++ es }

/-- The events of a sequence of instructions: each one's word on its port. -/
def eventsOf (is : List Instr) : List Event := is.map fun i => .word (encode i)

/-- The commands of one compress operation: SET_CAP v, ENC_START, ENC_SYM of each symbol, ENC_END (R650, R1010). -/
def compressCommands (v : BitVec 16) (symbols : List Byte) : List Instr :=
  .setCap v :: .encStart :: (symbols.map .encSym ++ [.encEnd])

/-- The commands of one decompress operation: DEC_START, DEC_BYTE of each byte, DEC_END (R750, R1011). -/
def decompressCommands (bytes : List Byte) : List Instr := .decStart :: (bytes.map .decByte ++ [.decEnd])

end Sys2Proof.Machine
end

