-- ==== Sys2Proof/Machine/Step.lean ====
section
/-!
DEFINITION. One step: the block accepts the next event the host has sent.
-/

namespace Sys2Proof.Machine

/-- One step (20_memory.md R230). -/
def step (s : State) : Host.Outcome State Fault Refusal := runNext s

/-- `s` with the table row's word as the next event the block accepts. How a command sequence comes to run from
State.reset: the host sends it as events; the words are input and are stored nowhere in the block (R102, R237). Log 16. -/
def State.withFetchWord (s : State) (nbits w : Nat) : State :=
  { s with ports.input := .word (tablePortWord nbits w) :: s.ports.input }

end Sys2Proof.Machine
end

