-- ==== Sys2Proof/Machine/Assembler.lean ====
section
/-!
DEFINITION. The assembler syntax and the pseudo-instructions (30_encoding.md R320 to R323): a line of text, as a list of
characters, to the command words it stands for. No behaviour of the block depends on it (D23).
-/

namespace Sys2Proof.Machine

/-- A line of assembler text: a command (R320), `.word`, or a pseudo-instruction (R322). Numbers are as written. -/
inductive Asm where
  | setCap (v : Nat)
  | encStart
  | encSym (s : Nat)
  | encEnd
  | decStart
  | decByte (b : Nat)
  | decEnd
  /-- `.word w`: the word as written -/
  | word (w : Nat)
  | encStr (text : List Nat)
  | compress (text : List Nat)
  | compressCap (v : Nat) (text : List Nat)
  | decBytes (bs : List Nat)
  | decompress (bs : List Nat)
  deriving DecidableEq, Repr

/-- A command with an operand below `bound`; outside the range it is an assembly error and no word is written for it
(R321). -/
def ranged (bound n : Nat) (i : Instr) : Option (List CmdWord) := if n < bound then some [wordOf i] else none

/-- One command per byte, in order; the empty list expands to nothing (R322). DESIGN CHOICE (log 21): one byte out of
range makes the whole expansion write no word; R321 says it of that operand's word only and is silent on the others. -/
def perByte (i : Byte → Instr) : List Nat → Option (List CmdWord)
  | [] => some []
  | b :: bs =>
    match ranged 256 b (i (BitVec.ofNat 8 b)), perByte i bs with
    | some w, some ws => some (w ++ ws)
    | _, _ => none

/-- `ws` between a START and an END word. -/
def bracket (start : Instr) (ws : Option (List CmdWord)) (stop : Instr) : Option (List CmdWord) :=
  ws.map fun ws => wordOf start :: ws ++ [wordOf stop]

/-- The command words of a line (R320, R322); none is an assembly error (R321). DESIGN CHOICE (log 21): a line with an
operand out of range writes no word at all, a cap out of range in COMPRESS_CAP and a byte in a list (`perByte`) too. -/
def assemble : Asm → Option (List CmdWord)
  | .setCap v => ranged 65536 v (.setCap (BitVec.ofNat 16 v))
  | .encStart => some [wordOf .encStart]
  | .encSym s => ranged 256 s (.encSym (BitVec.ofNat 8 s))
  | .encEnd => some [wordOf .encEnd]
  | .decStart => some [wordOf .decStart]
  | .decByte b => ranged 256 b (.decByte (BitVec.ofNat 8 b))
  | .decEnd => some [wordOf .decEnd]
  | .word w => if w < 2 ^ 32 then some [BitVec.ofNat 32 w] else none
  | .encStr text => perByte .encSym text
  | .compress text => bracket .encStart (perByte .encSym text) .encEnd
  | .compressCap v text =>
    match ranged 65536 v (.setCap (BitVec.ofNat 16 v)), bracket .encStart (perByte .encSym text) .encEnd with
    | some w, some ws => some (w ++ ws)
    | _, _ => none
  | .decBytes bs => perByte .decByte bs
  | .decompress bs => bracket .decStart (perByte .decByte bs) .decEnd

/-! ### Text -/

/-- Each character of a line, and whether it stands in a quotation. DESIGN CHOICE (log 21): a character between single
quotes is one literal whatever it is (a comma, `;`, either quote); a double quote outside one opens a text (the
Bool: whether one is open), which the next double quote ends; a single quote that starts no literal is a plain character. -/
def quoted : Bool → List Char → List (Char × Bool)
  | _, [] => []
  | false, '\'' :: x :: '\'' :: cs => ('\'', true) :: (x, true) :: ('\'', true) :: quoted false cs
  | false, c :: cs => (c, c == '"') :: quoted (c == '"') cs
  | true, c :: cs => (c, true) :: quoted (c != '"') cs

/-- The line up to the first `mark` outside quotations, and what follows that mark where there is one. -/
def cutAt (mark : Char) (line : List Char) : List Char × List Char :=
  let cs := quoted false line
  ((cs.takeWhile (· != (mark, false))).map Prod.fst, ((cs.dropWhile (· != (mark, false))).drop 1).map Prod.fst)

/-- The line before its comment: a `;` outside quotations starts one (R321; the quotations are DESIGN CHOICE, log 21). -/
def stripComment (line : List Char) : List Char := (cutAt ';' line).1

/-- Spaces at the front dropped. -/
def skipSpaces : List Char → List Char
  | [] => []
  | c :: cs => if c = ' ' then skipSpaces cs else c :: cs

/-- Spaces at both ends dropped. -/
def trimSpaces (cs : List Char) : List Char := (skipSpaces (skipSpaces cs).reverse).reverse

/-- The first word, and what follows it. -/
def splitWord : List Char → List Char × List Char
  | [] => ([], [])
  | c :: cs => if c = ' ' then ([], cs) else (c :: (splitWord cs).1, (splitWord cs).2)

/-- The value of a digit, in either case. -/
def digitOf (c : Char) : Option Nat :=
  if '0' ≤ c ∧ c ≤ '9' then some (c.toNat - '0'.toNat)
  else if 'a' ≤ c ∧ c ≤ 'f' then some (c.toNat - 'a'.toNat + 10)
  else if 'A' ≤ c ∧ c ≤ 'F' then some (c.toNat - 'A'.toNat + 10)
  else none

/-- A digit string in a base, from the value read so far; none for a character that is no digit of the base. -/
def readDigits (base acc : Nat) : List Char → Option Nat
  | [] => some acc
  | c :: cs =>
    match digitOf c with
    | some d => if d < base then readDigits base (base * acc + d) cs else none
    | none => none

/-- An operand literal: decimal, `0x` hexadecimal, or a character in single quotes standing for its ASCII code (R321). -/
def readLiteral : List Char → Option Nat
  | [] => none
  | ['\'', c, '\''] => if c.toNat < 128 then some c.toNat else none
  | ['0', 'x'] => none
  | '0' :: 'x' :: ds => readDigits 16 0 ds
  | ds => readDigits 10 0 ds

/-- The text between double quotes, as ASCII codes (R322). -/
def readText (cs : List Char) : Option (List Nat) :=
  match cs with
  | '"' :: rest =>
    match rest.reverse with
    | '"' :: inner =>
      if inner.all fun c => c.toNat < 128 && c != '"' then some (inner.reverse.map Char.toNat) else none
    | _ => none
  | _ => none

/-- Marked characters cut at the commas outside quotations, each piece without spaces at its ends (R322; the quotations
are DESIGN CHOICE, log 21). `piece` is the current piece, backwards. -/
def splitCommas (piece : List Char) : List (Char × Bool) → List (List Char)
  | [] => [trimSpaces piece.reverse]
  | c :: cs =>
    if c = (',', false) then trimSpaces piece.reverse :: splitCommas [] cs else splitCommas (c.1 :: piece) cs

/-- Every element read, or none. -/
def readAll {α β : Type} (read : α → Option β) : List α → Option (List β)
  | [] => some []
  | a :: as =>
    match read a, readAll read as with
    | some b, some bs => some (b :: bs)
    | _, _ => none

/-- The bytes of a comma-separated list; the empty text is the empty list (R322). -/
def readBytes (cs : List Char) : Option (List Nat) :=
  if cs = [] then some [] else readAll readLiteral (splitCommas [] (quoted false cs))

/-- The operand before the first comma outside quotations and the text after it (COMPRESS_CAP, R322; the quotations are
DESIGN CHOICE, log 21). -/
def readCapText (cs : List Char) : Option (Nat × List Nat) :=
  match readLiteral (trimSpaces (cutAt ',' cs).1), readText (trimSpaces (cutAt ',' cs).2) with
  | some v, some t => some (v, t)
  | _, _ => none

/-- A mnemonic without an operand. -/
def bare (rest : List Char) (a : Asm) : Option Asm := if rest = [] then some a else none

/-- The mnemonic of a line and its operand text: "Mnemonics are upper case; one command per line" (R320). -/
def parseMnemonic (m : String) (rest : List Char) : Option Asm :=
  if m = "SET_CAP" then (readLiteral rest).map .setCap
  else if m = "ENC_START" then bare rest .encStart
  else if m = "ENC_SYM" then (readLiteral rest).map .encSym
  else if m = "ENC_END" then bare rest .encEnd
  else if m = "DEC_START" then bare rest .decStart
  else if m = "DEC_BYTE" then (readLiteral rest).map .decByte
  else if m = "DEC_END" then bare rest .decEnd
  else if m = ".word" then (readLiteral rest).map .word
  else if m = "ENC_STR" then (readText rest).map .encStr
  else if m = "COMPRESS" then (readText rest).map .compress
  else if m = "COMPRESS_CAP" then (readCapText rest).map fun p => .compressCap p.1 p.2
  else if m = "DEC_BYTES" then (readBytes rest).map .decBytes
  else if m = "DECOMPRESS" then (readBytes rest).map .decompress
  else none

/-- The command words of a line of text: an empty line or a comment writes nothing; none is an assembly error (R320 to
R322). -/
def assembleLine (line : List Char) : Option (List CmdWord) :=
  let text := trimSpaces (stripComment line)
  if text = [] then some []
  else
    match parseMnemonic (String.ofList (splitWord text).1) (trimSpaces (splitWord text).2) with
    | some a => assemble a
    | none => none

end Sys2Proof.Machine
end

