-- ==== Sys2Proof/Machine/Stream.lean ====
section
/-!
DEFINITION. The whole operations as the spec's two algorithms, compress(S, v) (44_encoder.md R650) and decompress(B)
(45_decoder.md R750), on unbounded numbers and independent of the block's registers. The machine does not call them: they
are what the statements about whole operations compare it with.
-/

namespace Sys2Proof.Machine

/-- msb_first(v, w) (R650): the w bits of the number v, most significant first. -/
def msbBits (v : Nat) : Nat → Bits
  | 0 => []
  | w + 1 => v.testBit w :: msbBits v w

/-- The bits of a sequence of codes, each at its width, with nothing between them (R205, R206). -/
def codeBits (codes : List (Nat × Nat)) : Bits := codes.flatMap fun c => msbBits c.1 c.2

/-- byte_of of each 8-bit slice, the last one zero-padded (R210, R650). The first argument bounds the rounds. -/
def sliceBytes (f : Fill) : Nat → Bits → List Byte
  | 0, _ => []
  | n + 1, bits => if bits = [] then [] else padByte f (bits.take 8) :: sliceBytes f n (bits.drop 8)

/-- The packed stream of a bit list (R205, R210). -/
def packedStream (f : Fill) (bits : Bits) : List Byte := sliceBytes f bits.length bits

/-! ### compress -/

/-- The variables of compress (R650). `codes` are the codes emitted so far with their widths, in order; their bits are the
variable `bits` of R650. -/
structure Comp where
  table : List (Pattern × Nat)
  count : Nat
  width : Nat
  pattern : Pattern
  codes : List (Nat × Nat)
  deriving DecidableEq, Repr

/-- The first line of compress (R650). -/
def compStart : Comp where
  table := (List.range Config.seed).map fun b => ([BitVec.ofNat 8 b], b)
  count := Config.seed
  width := Config.wInit
  pattern := []
  codes := []

/-- The codes so far and the current pattern's: "bits ++ msb_first(T[p], width)" (R650). `p` is in T whenever this is
used, so the number 0 is never the value. -/
def Comp.emit (s : Comp) : List (Nat × Nat) := s.codes ++ [((tableLookup s.pattern s.table).getD 0, s.width)]

/-- The body of compress's loop for one symbol, with the cap v (R650). -/
def compSymbol (v : Nat) (s : Comp) (x : Byte) : Comp :=
  if (tableLookup (s.pattern ++ [x]) s.table).isSome then { s with pattern := s.pattern ++ [x] }
  else if s.count < v then
    { table := (s.pattern ++ [x], s.count) :: s.table
      count := s.count + 1
      width := if 2 ^ s.width ≤ s.count + 1 then s.width + 1 else s.width
      pattern := [x]
      codes := s.emit }
  else { s with pattern := [x], codes := s.emit }

/-- The codes compress(S, v) emits, each with its width, in order (R650, R457). -/
def compCodes (symbols : List Byte) (v : Nat) : List (Nat × Nat) :=
  let s := symbols.foldl (compSymbol v) compStart
  if s.pattern = [] then s.codes else s.emit

/-- compress(S, v) (R650). -/
def compress (f : Fill) (symbols : List Byte) (v : Nat) : List Byte :=
  packedStream f (codeBits (compCodes symbols v))

/-! ### decompress -/

/-- The variables of decompress (R750). `bits` are those from `pos` on. -/
structure Decomp where
  table : List (Nat × Pattern)
  next : Nat
  count : Nat
  width : Nat
  prev : Pattern
  out : List Byte
  bits : Bits
  deriving DecidableEq, Repr

/-- The variables before decompress's loop (R750). -/
def decompStart (bits : Bits) : Decomp where
  table := (List.range Config.seed).map fun b => (b, [BitVec.ofNat 8 b])
  next := Config.seed
  count := Config.seed
  width := Config.wInit
  prev := []
  out := []
  bits := bits

/-- The code is in T: its pattern is output, the next entry is made, the counters move (R750). `e[0]` is the first
symbol; no pattern of T is empty. -/
def Decomp.deliver (s : Decomp) (e : Pattern) : Decomp :=
  { table := if s.prev = [] then s.table else (s.next, s.prev ++ e.take 1) :: s.table
    next := if s.prev = [] then s.next else s.next + 1
    count := s.count + 1
    width := if 2 ^ s.width ≤ s.count + 1 then s.width + 1 else s.width
    prev := e
    out := s.out ++ e
    bits := s.bits.drop s.width }

/-- The body of decompress's loop for the code c (R750). -/
def decompCode (s : Decomp) (c : Nat) : Except FaultCause Decomp :=
  match tableLookup c s.table with
  | some e => .ok (s.deliver e)
  | none =>
    if c ≠ s.next ∨ s.prev = [] then .error .decBadCode
    else .ok ({ s with table := (c, s.prev ++ s.prev.take 1) :: s.table }.deliver (s.prev ++ s.prev.take 1))

/-- decompress's loop (R750). The first argument bounds the rounds; every round takes at least one bit. -/
def decompLoop : Nat → Decomp → Except FaultCause (List Byte)
  | 0, s => .ok s.out
  | n + 1, s =>
    if s.bits.length < s.width then .ok s.out
    else if Config.wMax < s.width then .error .decWidth
    else
      match decompCode s (foldMsb 0 (s.bits.take s.width)) with
      | .ok s' => decompLoop n s'
      | .error c => .error c

/-- decompress(B) (R750): the output, or the fault it ends in. -/
def decompress (f : Fill) (bytes : List Byte) : Except FaultCause (List Byte) :=
  decompLoop (8 * bytes.length) (decompStart (bytes.flatMap (bitsOf f)))

end Sys2Proof.Machine
end

