-- ==== Sys2Proof/Safety.lean ====
section
/-!
DEFINITION. What counts as a safe run, in the terms the statements use: the block is not halted (60_exceptions.md R912),
and the invariants of 10_state.md R160 to R162 hold.
-/

namespace Sys2Proof.Machine

/-- A halted block is not a finished run (R912): a claim of correct output takes this as a premise or a conclusion. -/
abbrev Running (s : State) : Prop := s.ctrl.halted = false

/-- A word outside the legal command words, from the bits of R304 and R305. -/
def IllegalWord (w : CmdWord) : Prop :=
  (w.extractLsb' 28 4).toNat = 0 ∨ 8 ≤ (w.extractLsb' 28 4).toNat ∨ w.extractLsb' 16 12 ≠ 0 ∨
  ((w.extractLsb' 28 4).toNat ∈ [3, 6] ∧ w.extractLsb' 8 8 ≠ 0) ∨
  ((w.extractLsb' 28 4).toNat ∈ [2, 4, 5, 7] ∧ w.extractLsb' 0 16 ≠ 0)

/-- The commands of the encoder path (20_memory.md R233). -/
def encoderPath : Instr → Bool
  | .setCap _ | .encStart | .encSym _ | .encEnd => true
  | .decStart | .decByte _ | .decEnd => false
  | .pkCode _ _ | .pkFlush | .upPush _ | .upTake _ | .upDrop | .csrRead _ => false

/-- The commands of the decoder path (20_memory.md R233). -/
def decoderPath : Instr → Bool
  | .decStart | .decByte _ | .decEnd => true
  | .setCap _ | .encStart | .encSym _ | .encEnd => false
  | .pkCode _ _ | .pkFlush | .upPush _ | .upTake _ | .upDrop | .csrRead _ => false

/-- The fault record agrees with `halted` (R111, R112, R901): NONE and 0 while running, a cause 1 to 5 while halted. -/
structure CtrlInv (c : Ctrl) : Prop where
  clear : c.halted = false → c.faultCause = 0 ∧ c.faultCmd = 0
  cause : c.halted = true → 1 ≤ c.faultCause.toNat ∧ c.faultCause.toNat ≤ 5

/-- The encoder invariants of R160 and the packer bound of R162, with what they rest on: the canonical form of ETAB, the
length of a pattern by its code (R120), and an idle encoder that holds nothing (R630). -/
structure EncInv (e : Enc) : Prop where
  /-- ETAB is in canonical form (log 14) -/
  rises : tableRises patternLt e.table
  /-- R160 (a) -/
  entries : e.count.toNat = e.table.length
  /-- R160 (b): no code is at or above the count -/
  bounded : ∀ p c, etabLookup p e.table = some c → c.toNat < e.count.toNat
  /-- R160 (b): every code below the count is assigned -/
  assigned : ∀ c : Code, c.toNat < e.count.toNat → ∃ p, etabLookup p e.table = some c
  /-- R160 (b): no code is assigned twice -/
  unique : ∀ p q c, etabLookup p e.table = some c → etabLookup q e.table = some c → p = q
  /-- R160 (c) -/
  seeds : ∀ b : Byte, etabLookup [b] e.table = some (b.setWidth 16)
  /-- keys are non-empty (R117) -/
  nonEmpty : etabLookup [] e.table = none
  /-- R160 (d) -/
  prefixes : ∀ p x c, p ≠ [] → etabLookup (p ++ [x]) e.table = some c →
    ∃ c', etabLookup p e.table = some c' ∧ c'.toNat < c.toNat
  /-- a pattern is at most as long as the inserts that built it (R120) -/
  lengths : ∀ p c, etabLookup p e.table = some c → p.length ≤ max 1 (c.toNat - 254)
  /-- R160 (e) -/
  current : e.pattern = [] ∨ ∃ c, etabLookup e.pattern e.table = some c
  /-- the seeds are counted -/
  seeded : 256 ≤ e.count.toNat
  /-- R160 (f) -/
  capped : e.count.toNat ≤ max 256 e.cap.toNat
  /-- R160 (g), R455 -/
  width : e.width.toNat = bitlen e.count.toNat
  /-- R162 -/
  pending : e.pkBits.length ≤ 7
  /-- outside an operation nothing is held -/
  idle : e.active = false → e.pattern = [] ∧ e.pkBits = []

/-- The decoder invariants of R161, n being `dec_count` - 256 (R161 (a)), with what they rest on. -/
structure DecInv (d : Dec) : Prop where
  /-- DTAB is in canonical form (log 14) -/
  rises : tableRises codeLt d.table
  /-- R161 (c) -/
  domain : ∀ c : Code, dtabLookup c d.table ≠ none ↔ c.toNat < d.next.toNat
  /-- the seed entries stay (R410) -/
  seeds : ∀ b : Byte, dtabLookup (b.setWidth 16) d.table = some [b]
  /-- values are non-empty (R123) -/
  nonEmpty : ∀ c p, dtabLookup c d.table = some p → p ≠ []
  /-- a pattern is at most as long as the inserts that built it (R127) -/
  lengths : ∀ c p, dtabLookup c d.table = some p → p.length ≤ max 1 (c.toNat - 254)
  /-- the previous pattern is in DTAB -/
  previous : d.prev = [] ∨ ∃ c, dtabLookup c d.table = some d.prev
  /-- R161 (a), R125 -/
  counted : 256 ≤ d.count.toNat ∧ d.count.toNat ≤ 65536
  /-- R161 (b) -/
  next : d.next.toNat = 256 + (d.count.toNat - 257)
  /-- R161 (d), first half -/
  first : d.active = true → (d.prev = [] ↔ d.count.toNat = 256)
  /-- R161 (e), R455 -/
  width : d.width.toNat = bitlen d.count.toNat
  /-- R161 (f) -/
  pending : d.active = true → d.upBits.length < d.width.toNat
  /-- R161 (d), second half, and R730: outside an operation nothing is held -/
  idle : d.active = false → d.prev = [] ∧ d.upBits = []

/-- Every event waiting is one a host can send: channel words never cross the block boundary (30_encoding.md section 4). -/
def HostInputs (p : Ports) : Prop := ∀ e ∈ p.input, e.fromHost = true

/-- The invariant of the block driven by a host. -/
structure Inv (s : State) : Prop where
  ctrl : CtrlInv s.ctrl
  enc : EncInv s.enc
  dec : DecInv s.dec
  inputs : HostInputs s.ports

end Sys2Proof.Machine
end

