-- ==== Sys2Proof/Certificates/Slice0/Obligations.lean ====
section
/-!
DEFINITION. The statements for the provers, from the numbered rules of spec/. Nothing is proved here. Every statement that
a command answers a next state assumes, as 70_reset_and_hazards.md R1034 says of such a claim, that the host drains both
outputs; the model's unbounded output lists hold that assumption (log 13).
-/

section

open Sys2Proof Sys2Proof.Machine

/-! ### Encoding (30_encoding.md) -/

/-- R323's worked encodings, both ways, and the channel words of V-P1, V-U1 and V-U2 (R310, R312). -/
def Obligations.WrittenWordsDecode : Prop :=
  assembleLine "ENC_SYM 'A'".toList = some [0x30000041] ∧ decode (.command 0x30000041) = .ok (.encSym 0x41) ∧
  assembleLine "SET_CAP 0".toList = some [0x10000000] ∧ decode (.command 0x10000000) = .ok (.setCap 0) ∧
  assembleLine "SET_CAP 10000".toList = some [0x10002710] ∧ decode (.command 0x10002710) = .ok (.setCap 10000) ∧
  assembleLine "DEC_BYTE 0xC8".toList = some [0x600000C8] ∧ decode (.command 0x600000C8) = .ok (.decByte 0xC8) ∧
  assembleLine ".word 0x30000141".toList = some [0x30000141] ∧
  decode (.command 0x30000141) = .error .operandBits ∧
  decode (.packer 0x090041) = .ok (.pkCode 65 9) ∧ decode (.packer 0x200000) = .ok .pkFlush ∧
  decode (.unpacker 0x000004) = .ok (.upPush 4) ∧ decode (.unpacker 0x490000) = .ok (.upTake 9) ∧
  decode (.unpacker 0x800000) = .ok .upDrop ∧ decode (.csr 0x28) = .ok (.csrRead 0x28)

/-- Every operand at every value its field admits comes back from the word it is encoded in. -/
def Obligations.DecodeUndoesEncode : Prop := ∀ i : Instr, decode (encode i) = .ok i

/-- A word that decodes is the only word of its instruction. -/
def Obligations.EncodeUndoesDecode : Prop := ∀ (p : PortWord) (i : Instr), decode p = .ok i → encode i = p

/-- R302 and R303: the match and mask table, "a word w is command X when (w AND mask) = match", and the operands in the
free bits. -/
def Obligations.CommandWordsMatchTheirRow : Prop :=
  (∀ v, rowOf (.setCap v) = ⟨0xFFFF0000, 0x10000000⟩) ∧ rowOf .encStart = ⟨0xFFFFFFFF, 0x20000000⟩ ∧
  (∀ x, rowOf (.encSym x) = ⟨0xFFFFFF00, 0x30000000⟩) ∧ rowOf .encEnd = ⟨0xFFFFFFFF, 0x40000000⟩ ∧
  rowOf .decStart = ⟨0xFFFFFFFF, 0x50000000⟩ ∧ (∀ b, rowOf (.decByte b) = ⟨0xFFFFFF00, 0x60000000⟩) ∧
  rowOf .decEnd = ⟨0xFFFFFFFF, 0x70000000⟩ ∧
  (∀ (w c : CmdWord) (i : Instr), encode i = .command c →
    (rowMatches (rowOf i) w.toNat = true ↔ ∃ j, decode (.command w) = .ok j ∧ rowOf j = rowOf i)) ∧
  (∀ w : CmdWord, (∀ v, decode (.command w) = .ok (.setCap v) → v = w.extractLsb' 0 16) ∧
    (∀ x, decode (.command w) = .ok (.encSym x) → x = w.extractLsb' 0 8) ∧
    (∀ b, decode (.command w) = .ok (.decByte b) → b = w.extractLsb' 0 8))

/-- R306: a word matches one row at most, a word that matches none is illegal, and the legal words number 65536 + 256 +
256 + 4 = 66052. -/
def Obligations.LegalCommandWordsAre66052 : Prop :=
  (∀ (w c d : CmdWord) (i j : Instr), encode i = .command c → encode j = .command d →
    rowMatches (rowOf i) w.toNat = true → rowMatches (rowOf j) w.toNat = true → rowOf i = rowOf j) ∧
  (∀ w : CmdWord, ¬ IllegalWord w ↔ ∃ i c, encode i = .command c ∧ rowMatches (rowOf i) w.toNat = true) ∧
  ∃ caps syms bytes bare : List CmdWord,
    (∀ w, w ∈ caps ↔ ∃ v, decode (.command w) = .ok (.setCap v)) ∧
    (∀ w, w ∈ syms ↔ ∃ x, decode (.command w) = .ok (.encSym x)) ∧
    (∀ w, w ∈ bytes ↔ ∃ b, decode (.command w) = .ok (.decByte b)) ∧
    (∀ w, w ∈ bare ↔ decode (.command w) = .ok .encStart ∨ decode (.command w) = .ok .encEnd ∨
      decode (.command w) = .ok .decStart ∨ decode (.command w) = .ok .decEnd) ∧
    caps.length = 65536 ∧ syms.length = 256 ∧ bytes.length = 256 ∧ bare.length = 4 ∧
    (caps ++ syms ++ bytes ++ bare).Nodup ∧ (caps ++ syms ++ bytes ++ bare).length = 66052 ∧
    ∀ w, w ∈ caps ++ syms ++ bytes ++ bare ↔ ¬ IllegalWord w

/-- R304, R305, R902: which words are illegal, and the fault an illegal word takes. -/
def Obligations.IllegalWordsTakeIllegal : Prop :=
  (∀ w : CmdWord, IllegalWord w ↔ ∃ r, decode (.command w) = .error r) ∧
  ∀ (w : CmdWord) (s : State), Running s → IllegalWord w →
    acceptWord (.command w) s =
      .next { s with ctrl := { s.ctrl with halted := true, faultCause := 1, faultCmd := w } }

/-- R320 and R321: the word of each command line, and no word for an operand out of range. -/
def Obligations.AssemblerWritesTheTableWords : Prop :=
  (∀ v, assemble (.setCap v) = if v ≤ 65535 then some [BitVec.ofNat 32 (0x10000000 + v)] else none) ∧
  assemble .encStart = some [0x20000000] ∧
  (∀ x, assemble (.encSym x) = if x ≤ 255 then some [BitVec.ofNat 32 (0x30000000 + x)] else none) ∧
  assemble .encEnd = some [0x40000000] ∧ assemble .decStart = some [0x50000000] ∧
  (∀ b, assemble (.decByte b) = if b ≤ 255 then some [BitVec.ofNat 32 (0x60000000 + b)] else none) ∧
  assemble .decEnd = some [0x70000000] ∧
  ∀ w : CmdWord, assemble (.word w.toNat) = some [w]

/-- R322: the expansions of the pseudo-instructions. -/
def Obligations.PseudoInstructionsExpand : Prop :=
  ∀ bytes : List Nat, (∀ c ∈ bytes, c ≤ 255) →
    assemble (.encStr bytes) = some (bytes.map fun c => BitVec.ofNat 32 (0x30000000 + c)) ∧
    assemble (.compress bytes) =
      some (0x20000000 :: (bytes.map fun c => BitVec.ofNat 32 (0x30000000 + c)) ++ [0x40000000]) ∧
    (∀ v ≤ 65535, assemble (.compressCap v bytes) =
      some (BitVec.ofNat 32 (0x10000000 + v) :: 0x20000000 ::
        (bytes.map fun c => BitVec.ofNat 32 (0x30000000 + c)) ++ [0x40000000])) ∧
    assemble (.decBytes bytes) = some (bytes.map fun c => BitVec.ofNat 32 (0x60000000 + c)) ∧
    assemble (.decompress bytes) =
      some (0x50000000 :: (bytes.map fun c => BitVec.ofNat 32 (0x60000000 + c)) ++ [0x70000000])

/-! ### Faults, the halted state and reset (60_exceptions.md, 46_control.md, 70_reset_and_hazards.md) -/

/-- R910: a command that raises a fault writes the fault record, with the cause raised and the command word, and nothing
else. -/
def Obligations.FaultEntryWritesOnlyTheRecord : Prop :=
  ∀ (w : CmdWord) (s t : State), Running s → acceptWord (.command w) s = .next t → t.ctrl.halted = true →
    ∃ cause : FaultCause,
      t = { s with ctrl := { s.ctrl with halted := true, faultCause := causeCode cause, faultCmd := w } } ∧
      match cause with
      | .illegal => IllegalWord w
      | .encSeq => s.enc.active = false ∧
          ((∃ x, decode (.command w) = .ok (.encSym x)) ∨ decode (.command w) = .ok .encEnd)
      | .decSeq => s.dec.active = false ∧
          ((∃ b, decode (.command w) = .ok (.decByte b)) ∨ decode (.command w) = .ok .decEnd)
      | .decBadCode => s.dec.active = true ∧ (∃ b, decode (.command w) = .ok (.decByte b)) ∧
          s.dec.width.toNat ≤ 16 ∧ s.dec.width.toNat ≤ s.dec.upBits.length + 8
      | .decWidth => s.dec.active = true ∧ (∃ b, decode (.command w) = .ok (.decByte b)) ∧
          16 < s.dec.width.toNat ∧ s.dec.width.toNat ≤ s.dec.upBits.length + 8

/-- R901: each cause's code is recorded by the commands its row names, NONE while not halted, and no code above 5. -/
def Obligations.FaultCausesAreRaisedAsListed : Prop :=
  (∀ (w : CmdWord) (s t : State), Inv s → Running s → acceptWord (.command w) s = .next t →
    t.ctrl.halted = true →
      (t.ctrl.faultCause = 1 ∧ IllegalWord w) ∨
      (t.ctrl.faultCause = 2 ∧ s.enc.active = false ∧
        ((∃ x, decode (.command w) = .ok (.encSym x)) ∨ decode (.command w) = .ok .encEnd)) ∨
      (t.ctrl.faultCause = 3 ∧ s.dec.active = false ∧
        ((∃ b, decode (.command w) = .ok (.decByte b)) ∨ decode (.command w) = .ok .decEnd)) ∨
      (t.ctrl.faultCause = 4 ∧ s.dec.active = true ∧ ∃ b, decode (.command w) = .ok (.decByte b) ∧
        s.dec.width.toNat ≤ s.dec.upBits.length + 8 ∧
        dtabLookup (codeOf ((s.dec.upBits ++ bitsOf Config.fill b).take s.dec.width.toNat)) s.dec.table = none ∧
        ((codeOf ((s.dec.upBits ++ bitsOf Config.fill b).take s.dec.width.toNat)).toNat ≠ s.dec.next.toNat ∨
          s.dec.prev = [])) ∨
      (t.ctrl.faultCause = 5 ∧ s.dec.active = true ∧ (∃ b, decode (.command w) = .ok (.decByte b)) ∧
        s.dec.width = 17 ∧ 17 ≤ s.dec.upBits.length + 8)) ∧
  ∀ s t : State, Inv s → step s = .next t →
    (t.ctrl.halted = false → t.ctrl.faultCause = 0) ∧ t.ctrl.faultCause.toNat ≤ 5

/-- R911 and R1001: while halted every command word is dropped, CSR reads are answered, and only reset writes the control
state. -/
def Obligations.HaltedBlockDropsCommands : Prop :=
  ∀ s : State, s.ctrl.halted = true →
    (∀ w : CmdWord, acceptWord (.command w) s = .next s) ∧
    (∀ a, ∃ t, acceptWord (.csr a) s = .next t ∧ t.ctrl = s.ctrl ∧ t.enc = s.enc ∧ t.dec = s.dec) ∧
    (∀ (e : Event) (t : State), acceptEvent e s = .next t → (∃ ws, e = .reset ws) ∨ t.ctrl = s.ctrl) ∧
    (∀ ws, ∃ t, acceptEvent (.reset ws) s = .next t ∧ t.ctrl.halted = false ∧ t.ctrl.faultCause = 0 ∧
      t.ctrl.faultCmd = 0)

/-- R810, R903, R904: data and end commands outside an operation; SET_CAP and the two starts in every non-halted state. -/
def Obligations.CommandsOutsideAnOperationFault : Prop :=
  ∀ s : State, Running s →
    (s.enc.active = false →
      (∀ x : Byte, exec (.encSym x) s = .next { s with ctrl := { s.ctrl with
        halted := true, faultCause := 2, faultCmd := BitVec.ofNat 32 (0x30000000 + x.toNat) } }) ∧
      exec .encEnd s = .next { s with ctrl := { s.ctrl with
        halted := true, faultCause := 2, faultCmd := 0x40000000 } }) ∧
    (s.dec.active = false →
      (∀ b : Byte, exec (.decByte b) s = .next { s with ctrl := { s.ctrl with
        halted := true, faultCause := 3, faultCmd := BitVec.ofNat 32 (0x60000000 + b.toNat) } }) ∧
      exec .decEnd s = .next { s with ctrl := { s.ctrl with
        halted := true, faultCause := 3, faultCmd := 0x70000000 } }) ∧
    (∀ v, ∃ t, exec (.setCap v) s = .next t ∧ Running t) ∧ (∃ t, exec .encStart s = .next t ∧ Running t) ∧
    (∃ t, exec .decStart s = .next t ∧ Running t)

/-- R150: every element after reset. -/
def Obligations.ResetLeavesEveryElementAsListed : Prop :=
  State.reset.ctrl.halted = false ∧ State.reset.ctrl.faultCause = 0 ∧ State.reset.ctrl.faultCmd = 0 ∧
  State.reset.ctrl.cap = 10000 ∧ State.reset.enc.active = false ∧ State.reset.enc.cap = 10000 ∧
  (∀ p c, etabLookup p State.reset.enc.table = some c ↔ ∃ b : Byte, p = [b] ∧ c = b.setWidth 16) ∧
  State.reset.enc.count = 256 ∧ State.reset.enc.width = 9 ∧ State.reset.enc.pattern = [] ∧
  State.reset.enc.pkBits = [] ∧ State.reset.dec.active = false ∧
  (∀ c p, dtabLookup c State.reset.dec.table = some p ↔ ∃ b : Byte, c = b.setWidth 16 ∧ p = [b]) ∧
  State.reset.dec.next = 256 ∧ State.reset.dec.count = 256 ∧ State.reset.dec.width = 9 ∧
  State.reset.dec.prev = [] ∧ State.reset.dec.upBits = [] ∧ State.reset.enc.out = [] ∧ State.reset.dec.out = []

/-- R1000: the reset event from any state, whatever is written while it is asserted. -/
def Obligations.ResetEventClearsTheBlock : Prop :=
  ∀ (s : State) (written : List CmdWord), ∃ t, acceptEvent (.reset written) s = .next t ∧
    t.ctrl = State.reset.ctrl ∧ t.enc = State.reset.enc ∧ t.dec = State.reset.dec ∧
    csrValue 0x28 t = csrValue 0x28 s ∧ t.ctrl.halted = false ∧ t.enc.active = false ∧ t.dec.active = false ∧
    t.ctrl.cap = 10000 ∧ t.enc.out = [] ∧ t.dec.out = []

/-! ### The CSR read port (10_state.md R130 to R145, 46_control.md R820) -/

/-- R131: the bits of STATUS. -/
def Obligations.StatusBitsShowTheState : Prop :=
  (∀ s : State,
    (csrValue 0x00 s).getLsbD 0 = s.enc.active ∧ (csrValue 0x00 s).getLsbD 1 = s.dec.active ∧
    (csrValue 0x00 s).getLsbD 2 = s.ctrl.halted ∧
    ((csrValue 0x00 s).getLsbD 3 = true ↔ s.enc.cap.toNat ≤ s.enc.count.toNat) ∧
    (csrValue 0x00 s).extractLsb' 4 4 = s.ctrl.faultCause ∧ (csrValue 0x00 s).extractLsb' 8 24 = 0) ∧
  csrValue 0x00 State.reset = 0

/-- R132 to R143 but for who writes CAP (see CapIsWrittenOnlyBySetCapAndReset): each register's field, zeros above it, and
its reset value. -/
def Obligations.CsrMapShowsTheRegisters : Prop :=
  (∀ s : State, Inv s →
    (csrValue 0x04 s).toNat = s.ctrl.cap.toNat ∧ (csrValue 0x08 s).toNat = s.enc.cap.toNat ∧
    (csrValue 0x0C s).toNat = s.enc.count.toNat ∧ (csrValue 0x10 s).toNat = s.enc.width.toNat ∧
    (csrValue 0x14 s).toNat = s.enc.pattern.length ∧ (csrValue 0x18 s).toNat = s.enc.pkBits.length ∧
    (csrValue 0x1C s).toNat = s.dec.next.toNat ∧ (csrValue 0x20 s).toNat = s.dec.count.toNat ∧
    (csrValue 0x24 s).toNat = s.dec.width.toNat ∧ csrValue 0x28 s = 0x4C5A5701 ∧
    (csrValue 0x2C s).toNat = s.dec.upBits.length ∧ csrValue 0x30 s = s.ctrl.faultCmd) ∧
  csrValue 0x04 State.reset = 0x00002710 ∧ csrValue 0x08 State.reset = 0x00002710 ∧
  csrValue 0x0C State.reset = 0x00000100 ∧ csrValue 0x10 State.reset = 0x00000009 ∧
  csrValue 0x14 State.reset = 0 ∧ csrValue 0x18 State.reset = 0 ∧ csrValue 0x1C State.reset = 0x00000100 ∧
  csrValue 0x20 State.reset = 0x00000100 ∧ csrValue 0x24 State.reset = 0x00000009 ∧
  csrValue 0x2C State.reset = 0 ∧ csrValue 0x30 State.reset = 0

/-- R144: every other address reads 0, without fault and without side effect. -/
def Obligations.UnlistedCsrAddressesReadZero : Prop :=
  ∀ (a : BitVec 8) (s : State),
    a.toNat ∉ [0x00, 0x04, 0x08, 0x0C, 0x10, 0x14, 0x18, 0x1C, 0x20, 0x24, 0x28, 0x2C, 0x30] →
      csrValue a s = 0 ∧ ∃ t, exec (.csrRead a) s = .next t ∧ t.ctrl = s.ctrl ∧ t.enc = s.enc ∧ t.dec = s.dec

/-- R820: a read answers csr_value(a) and changes nothing of the block, in every state. That the answer is kept in
`ports.csrAnswers` is the model's choice (log 2). -/
def Obligations.CsrReadAnswersAndChangesNothing : Prop :=
  ∀ (a : BitVec 8) (s : State),
    exec (.csrRead a) s = .next { s with ports := { s.ports with csrAnswers := s.ports.csrAnswers ++ [csrValue a s] } }

/-! ### The encoder (44_encoder.md, 40_symbol_table.md, 41_width_policy.md) -/

/-- R600: SET_CAP writes `cap` and nothing else; the next ENC_START latches it; a cap of at most 256 admits no entry. -/
def Obligations.SetCapWritesTheCapOnly : Prop :=
  ∀ (v : BitVec 16) (s : State), Running s →
    decode (.command (BitVec.ofNat 32 (0x10000000 + v.toNat))) = .ok (.setCap v) ∧
    exec (.setCap v) s = .next { s with ctrl := { s.ctrl with cap := v } } ∧
    (∃ t, acceptAll (eventsOf [.setCap v, .encStart]) s = .next t ∧ t.enc.cap = v) ∧
    (v.toNat ≤ 256 → ∀ (p : Pattern) (e : Enc), EncInv e → e.cap = v → etabInsert p e = none)

/-- R113: `cap` takes every 16-bit value, is what ENC_START latches, is written only by SET_CAP, and is 10000 after
reset. -/
def Obligations.CapIsWrittenOnlyBySetCapAndReset : Prop :=
  State.reset.ctrl.cap = 10000 ∧
  (∀ (v : BitVec 16) (s : State), Running s → ∃ t, exec (.setCap v) s = .next t ∧ t.ctrl.cap = v) ∧
  (∀ s : State, Running s → ∃ t, exec .encStart s = .next t ∧ t.enc.cap = s.ctrl.cap) ∧
  ∀ (e : Event) (s t : State), acceptEvent e s = .next t → t.ctrl.cap ≠ s.ctrl.cap →
    (∃ v, e = .word (encode (.setCap v)) ∧ t.ctrl.cap = v) ∨ (∃ ws, e = .reset ws ∧ t.ctrl.cap = 10000)

/-- R610, R611, R400: ENC_START's writes, the same during an operation, and the status bits it leaves. -/
def Obligations.EncStartBeginsAnOperation : Prop :=
  (∀ p c, etabLookup p etabSeed = some c ↔ ∃ b : Byte, p = [b] ∧ c = b.setWidth 16) ∧
  decode (.command 0x20000000) = .ok .encStart ∧
  ∀ s : State, Running s → ∃ t, exec .encStart s = .next t ∧
    t = { s with enc := { s.enc with
      table := etabSeed, count := 256, width := 9, pattern := [], pkBits := [], cap := s.ctrl.cap, active := true } } ∧
    (csrValue 0x00 t).getLsbD 0 = true ∧ ((csrValue 0x00 t).getLsbD 3 = true ↔ s.ctrl.cap.toNat ≤ 256)

/-- R620 with the LOOP selection of R640: on a hit the pattern grows; on a miss the current pattern's code goes out at the
width before the insert, the symbol starts the next pattern, and the candidate is inserted while the cap allows. The
first symbol of an operation hits; outside an operation the fault is ENC_SEQ. -/
def Obligations.EncSymMatchesOrEmits : Prop :=
  (∀ x : Byte, decode (.command (BitVec.ofNat 32 (0x30000000 + x.toNat))) = .ok (.encSym x)) ∧
  (∀ (x : Byte) (s : State), Running s → s.enc.active = false →
    ∃ t, exec (.encSym x) s = .next t ∧ t.ctrl.halted = true ∧ t.ctrl.faultCause = 2) ∧
  ∀ (x : Byte) (s : State), Running s → s.enc.active = true → EncInv s.enc →
    (s.enc.pattern = [] → ∃ c, etabLookup (s.enc.pattern ++ [x]) s.enc.table = some c) ∧
    (∀ c, etabLookup (s.enc.pattern ++ [x]) s.enc.table = some c →
      exec (.encSym x) s = .next { s with enc := { s.enc with pattern := s.enc.pattern ++ [x] } }) ∧
    (etabLookup (s.enc.pattern ++ [x]) s.enc.table = none →
      ∃ (c : Code) (sent : List Byte) (rest : Bits),
        s.enc.pattern ≠ [] ∧ etabLookup s.enc.pattern s.enc.table = some c ∧ (sent.length = 1 ∨ sent.length = 2) ∧
        rest.length < 8 ∧
        sent.flatMap (bitsOf Config.fill) ++ rest = s.enc.pkBits ++ msbBits c.toNat s.enc.width.toNat ∧
        exec (.encSym x) s = .next { s with enc := { s.enc with
          out := s.enc.out ++ sent
          pkBits := rest
          pattern := [x]
          table :=
            if s.enc.count.toNat < s.enc.cap.toNat then
              etabBind (s.enc.pattern ++ [x]) (s.enc.count.setWidth 16) s.enc.table
            else s.enc.table
          count := if s.enc.count.toNat < s.enc.cap.toNat then s.enc.count + 1 else s.enc.count
          width :=
            if s.enc.count.toNat < s.enc.cap.toNat ∧ 2 ^ s.enc.width.toNat ≤ s.enc.count.toNat + 1 then
              s.enc.width + 1
            else s.enc.width } })

/-- R630 with the FINAL and FLUSH selections of R640: the final code if a pattern is left, the padding, at most 3 bytes;
the rest of the encoder keeps its values. Outside an operation the fault is ENC_SEQ. -/
def Obligations.EncEndFlushes : Prop :=
  decode (.command 0x40000000) = .ok .encEnd ∧
  (∀ s : State, Running s → s.enc.active = false →
    ∃ t, exec .encEnd s = .next t ∧ t.ctrl.halted = true ∧ t.ctrl.faultCause = 2) ∧
  ∀ s : State, Running s → s.enc.active = true → EncInv s.enc →
    ∃ (sent : List Byte) (final : Bits) (zeros : Nat),
      ((s.enc.pattern = [] ∧ final = []) ∨
        (s.enc.pattern ≠ [] ∧ ∃ c, etabLookup s.enc.pattern s.enc.table = some c ∧
          final = msbBits c.toNat s.enc.width.toNat)) ∧
      zeros < 8 ∧ sent.length ≤ 3 ∧
      sent.flatMap (bitsOf Config.fill) = s.enc.pkBits ++ final ++ List.replicate zeros false ∧
      exec .encEnd s = .next { s with enc := { s.enc with
        out := s.enc.out ++ sent, pkBits := [], pattern := [], active := false } }

/-- R651: the seed-table integrity property, with the two bytes it gives. -/
def Obligations.OneSymbolGivesItsNineBitCode : Prop :=
  ∀ (b : Byte) (s : State), Running s →
    ∃ t, acceptAll (eventsOf [.encStart, .encSym b, .encEnd]) s = .next t ∧
      t.enc.out = s.enc.out ++ packedStream Config.fill (msbBits b.toNat 9) ∧
      packedStream Config.fill (msbBits b.toNat 9) =
        [BitVec.ofNat 8 ((b.getLsbD 7).toNat * 2 ^ 1 + (b.getLsbD 6).toNat * 2 ^ 2 + (b.getLsbD 5).toNat * 2 ^ 3 +
          (b.getLsbD 4).toNat * 2 ^ 4 + (b.getLsbD 3).toNat * 2 ^ 5 + (b.getLsbD 2).toNat * 2 ^ 6 +
          (b.getLsbD 1).toNat * 2 ^ 7), BitVec.ofNat 8 (b.getLsbD 0).toNat]

/-- R403: an insert succeeds exactly below the cap, so no compress operation takes the table past max(256, cap). -/
def Obligations.TableNeverExceedsTheCap : Prop :=
  (∀ (p : Pattern) (e : Enc), EncInv e → ((etabInsert p e).isSome = true ↔ e.table.length < e.cap.toNat)) ∧
  ∀ (v : BitVec 16) (symbols : List Byte) (s : State), Running s →
    ∃ t, acceptAll (eventsOf (compressCommands v symbols)) s = .next t ∧ t.enc.table.length ≤ max 256 v.toNat

/-- R115 to R121, R129: which events change which encoder and packer register. -/
def Obligations.EncoderRegistersAreWrittenAsListed : Prop :=
  ∀ (e : Event) (s t : State), acceptEvent e s = .next t → (∀ ws, e ≠ .reset ws) →
    (t.enc.active ≠ s.enc.active → (e = .word (encode .encStart) ∧ t.enc.active = true) ∨
      (e = .word (encode .encEnd) ∧ t.enc.active = false)) ∧
    (t.enc.cap ≠ s.enc.cap → e = .word (encode .encStart) ∧ t.enc.cap = s.ctrl.cap) ∧
    (t.enc.table ≠ s.enc.table ∨ t.enc.count ≠ s.enc.count ∨ t.enc.width ≠ s.enc.width →
      e = .word (encode .encStart) ∨ ∃ x, e = .word (encode (.encSym x))) ∧
    (t.enc.pattern ≠ s.enc.pattern →
      e = .word (encode .encStart) ∨ (∃ x, e = .word (encode (.encSym x))) ∨ e = .word (encode .encEnd)) ∧
    (t.enc.pkBits ≠ s.enc.pkBits →
      e = .word (encode .encStart) ∨ (∃ x, e = .word (encode (.encSym x))) ∨ e = .word (encode .encEnd) ∨
        (∃ v w, e = .word (encode (.pkCode v w))) ∨ e = .word (encode .pkFlush)) ∧
    (t.enc.out ≠ s.enc.out →
      (∃ x, e = .word (encode (.encSym x))) ∨ e = .word (encode .encEnd) ∨
        (∃ v w, e = .word (encode (.pkCode v w))) ∨ e = .word (encode .pkFlush))

/-- R455 and R459: after every step each width is the number of binary digits of its counter, and within its bounds. -/
def Obligations.WidthsFollowTheClosedForm : Prop :=
  ∀ s t : State, Inv s → step s = .next t →
    t.enc.width.toNat = bitlen t.enc.count.toNat ∧ t.dec.width.toNat = bitlen t.dec.count.toNat ∧
    2 ^ (t.enc.width.toNat - 1) ≤ t.enc.count.toNat ∧ t.enc.count.toNat < 2 ^ t.enc.width.toNat ∧
    2 ^ (t.dec.width.toNat - 1) ≤ t.dec.count.toNat ∧ t.dec.count.toNat < 2 ^ t.dec.width.toNat ∧
    t.enc.count.toNat = t.enc.table.length ∧
    (∀ p c, etabLookup p t.enc.table = some c → c.toNat < 2 ^ t.enc.width.toNat) ∧
    9 ≤ t.enc.width.toNat ∧ t.enc.width.toNat ≤ 16 ∧ 9 ≤ t.dec.width.toNat ∧ t.dec.width.toNat ≤ 17 ∧
    (t.dec.width = 17 ↔ t.dec.count.toNat = 256 + 65280) ∧
    (t.dec.width = 17 → ∀ (b : Byte) (u : State), exec (.decByte b) t = .next u →
      u.dec.count = t.dec.count ∧ u.dec.out = t.dec.out)

/-- R454: within an operation no width decreases, and it rises by one at a time. -/
def Obligations.WidthsNeverDecrease : Prop :=
  ∀ s t : State, Inv s → step s = .next t → (∀ ws, s.ports.input.head? ≠ some (.reset ws)) →
    (s.ports.input.head? ≠ some (.word (encode .encStart)) →
      s.enc.width.toNat ≤ t.enc.width.toNat ∧ t.enc.width.toNat ≤ s.enc.width.toNat + 1) ∧
    (s.ports.input.head? ≠ some (.word (encode .decStart)) →
      s.dec.width.toNat ≤ t.dec.width.toNat ∧ t.dec.width.toNat ≤ s.dec.width.toNat + 1)

/-! ### The stream format, the packer and the unpacker (20_memory.md, 42_bit_packer.md, 43_bit_unpacker.md) -/

/-- R210 and R211: where stream bit j goes in the bytes, zeros after the last bit, and the way back, for both values of
FILL; and that a compress operation's output and the unpacker's bits are so made. -/
def Obligations.StreamBitsFillBytes : Prop :=
  (∀ (bits : Bits) (j : Nat), j < 8 * ((bits.length + 7) / 8) →
    ((packedStream .lsbFirst bits).getD (j / 8) 0).getLsbD (j % 8) = bits.getD j false ∧
    ((packedStream .msbFirst bits).getD (j / 8) 0).getLsbD (7 - j % 8) = bits.getD j false) ∧
  (∀ (f : Fill) (bits : Bits), (packedStream f bits).length = (bits.length + 7) / 8) ∧
  (∀ (bytes : List Byte) (k i : Nat), k < bytes.length → i < 8 →
    (bytes.flatMap (bitsOf .lsbFirst)).getD (8 * k + i) false = (bytes.getD k 0).getLsbD i ∧
    (bytes.flatMap (bitsOf .msbFirst)).getD (8 * k + i) false = (bytes.getD k 0).getLsbD (7 - i)) ∧
  (∀ (f : Fill) (bits : Bits), ∃ zeros < 8,
    (packedStream f bits).flatMap (bitsOf f) = bits ++ List.replicate zeros false) ∧
  (∀ (s : State) (v : BitVec 16) (symbols : List Byte), Running s →
    ∃ t, acceptAll (eventsOf (compressCommands v symbols)) s = .next t ∧
      t.enc.out = s.enc.out ++ packedStream Config.fill (codeBits (compCodes symbols v.toNat))) ∧
  ∀ (s : State) (bytes : List Byte), acceptAll (eventsOf (bytes.map .upPush)) s =
    .next { s with dec := { s.dec with upBits := s.dec.upBits ++ bytes.flatMap (bitsOf Config.fill) } }

/-- R500: the code's bits follow the pending ones, most significant first, and whole bytes go out; a word outside the
operand ranges is refused. -/
def Obligations.PkCodeSendsTheCodeBits : Prop :=
  ∀ (v : Code) (w : BitVec 5) (s : State),
    (9 ≤ w.toNat ∧ w.toNat ≤ 16 ∧ v.toNat < 2 ^ w.toNat →
      ∃ (sent : List Byte) (rest : Bits),
        exec (.pkCode v w) s = .next { s with enc := { s.enc with out := s.enc.out ++ sent, pkBits := rest } } ∧
        sent.flatMap (bitsOf Config.fill) ++ rest = s.enc.pkBits ++ msbBits v.toNat w.toNat ∧
        rest.length = (s.enc.pkBits.length + w.toNat) % 8 ∧
        (s.enc.pkBits.length ≤ 7 → sent.length = 1 ∨ sent.length = 2)) ∧
    (¬ (9 ≤ w.toNat ∧ w.toNat ≤ 16 ∧ v.toNat < 2 ^ w.toNat) → exec (.pkCode v w) s = .refused .packerWordNotLegal)

/-- R510: pending bits go out in one zero-padded byte; without any nothing goes out. -/
def Obligations.PkFlushPadsWithZeros : Prop :=
  ∀ s : State,
    (s.enc.pkBits = [] → exec .pkFlush s = .next s) ∧
    (s.enc.pkBits ≠ [] → s.enc.pkBits.length ≤ 7 → exec .pkFlush s = .next { s with enc := { s.enc with
      out := s.enc.out ++ [byteOf Config.fill (s.enc.pkBits ++ List.replicate (8 - s.enc.pkBits.length) false)]
      pkBits := [] } })

/-- R311, R312, R313: the stand-alone packer and unpacker refuse exactly the words outside their legal sets, UP_TAKE with too
few bits pending among them (X11); and the words the encoder and the decoder send, a code of ETAB at the encoder's width
and a take at the decoder's width once that many bits are pending, are legal. That the word alone is refused where R560
answers (0, 0) follows R313 and X11 (log 7). -/
def Obligations.IllegalChannelWordsAreRefused : Prop :=
  (∀ (w : BitVec 22) (s : State), acceptWord (.packer w) s = .refused .packerWordNotLegal ↔
    ¬ ((w.getLsbD 21 = false ∧ 9 ≤ (w.extractLsb' 16 5).toNat ∧ (w.extractLsb' 16 5).toNat ≤ 16 ∧
        (w.extractLsb' 0 16).toNat < 2 ^ (w.extractLsb' 16 5).toNat) ∨ w = 0x200000)) ∧
  (∀ (w : BitVec 24) (s : State), acceptWord (.unpacker w) s = .refused .unpackerWordNotLegal ↔
    ¬ (w.getLsbD 21 = false ∧ w.extractLsb' 8 8 = 0 ∧
      ((w.extractLsb' 22 2 = 0 ∧ w.extractLsb' 16 5 = 0) ∨
       (w.extractLsb' 22 2 = 1 ∧ 9 ≤ (w.extractLsb' 16 5).toNat ∧ (w.extractLsb' 16 5).toNat ≤ 16 ∧
        (w.extractLsb' 16 5).toNat ≤ s.dec.upBits.length ∧ w.extractLsb' 0 8 = 0) ∨
       (w.extractLsb' 22 2 = 2 ∧ w.extractLsb' 16 5 = 0 ∧ w.extractLsb' 0 8 = 0)))) ∧
  (∀ (p : Pattern) (c : Code) (s : State), EncInv s.enc → etabLookup p s.enc.table = some c →
    ∃ t, exec (.pkCode c s.enc.width) s = .next t) ∧
  ∀ (b : Byte) (s : State), DecInv s.dec → s.dec.width.toNat ≤ s.dec.upBits.length + 8 → s.dec.width.toNat ≤ 16 →
    ∃ t, acceptAll (eventsOf [.upPush b, .upTake s.dec.width]) s = .next t

/-- R550: the byte's bits, from bit 0 up (FILL = LSB_FIRST), follow the pending ones, at most 16 before in an operation. -/
def Obligations.UpPushAppendsTheByteBits : Prop :=
  ∀ (b : Byte) (s : State),
    exec (.upPush b) s = .next { s with dec := { s.dec with
      upBits := s.dec.upBits ++ (List.range 8).map fun i => b.getLsbD i } } ∧
    (DecInv s.dec → s.dec.active = true → s.dec.upBits.length ≤ 16)

/-- R560: with w bits pending they are taken, folded most significant first, and answered with OK = 1; with fewer the
operation's response is (0, 0) and nothing is taken (V-U3), but the word presented alone is refused (R313, X11), as is a
width outside 9 to 16. That the answer is kept in `ports.takeAnswers` is the model's choice (log 3), and so is how R560
and R313 are read together (log 7). -/
def Obligations.UpTakeFoldsTheBits : Prop :=
  ∀ (w : BitVec 5) (s : State),
    (9 ≤ w.toNat → w.toNat ≤ 16 → w.toNat ≤ s.dec.upBits.length →
      (s.dec.upBits.take w.toNat).foldl (fun acc x => 2 * acc + x.toNat) 0 < 2 ^ w.toNat ∧
      exec (.upTake w) s = .next { s with
        dec := { s.dec with upBits := s.dec.upBits.drop w.toNat }
        ports := { s.ports with takeAnswers := s.ports.takeAnswers ++
          [BitVec.ofNat 17 (2 ^ 16 + (s.dec.upBits.take w.toNat).foldl (fun acc x => 2 * acc + x.toNat) 0)] } }) ∧
    (s.dec.upBits.length < w.toNat →
      takeAnswer (unpackTake w.toNat s.dec).1 = 0 ∧ (unpackTake w.toNat s.dec).2 = s.dec ∧
      exec (.upTake w) s = .refused .unpackerWordNotLegal) ∧
    (¬ (9 ≤ w.toNat ∧ w.toNat ≤ 16) → exec (.upTake w) s = .refused .unpackerWordNotLegal)

/-- R560 (c): bits packed by PK_CODE(v, w) and taken by UP_TAKE(w) give back v. -/
def Obligations.UpTakeInvertsPkCode : Prop :=
  ∀ (v : Code) (w : BitVec 5) (s t : State) (bytes : List Byte),
    9 ≤ w.toNat → w.toNat ≤ 16 → v.toNat < 2 ^ w.toNat → s.enc.pkBits = [] →
    acceptAll (eventsOf [.pkCode v w, .pkFlush]) s = .next t → t.enc.out = s.enc.out ++ bytes →
    s.dec.upBits = [] →
      ∃ (u : State) (zeros : Nat),
        acceptAll (eventsOf (bytes.map .upPush ++ [.upTake w])) t = .next u ∧
        u.ports.takeAnswers = s.ports.takeAnswers ++ [BitVec.ofNat 17 (2 ^ 16 + v.toNat)] ∧
        zeros < 8 ∧ u.dec.upBits = List.replicate zeros false

/-- R570: the pending bits, fewer than the width in an operation, are dropped and nothing else changes. -/
def Obligations.UpDropEmptiesTheUnpacker : Prop :=
  ∀ s : State, exec .upDrop s = .next { s with dec := { s.dec with upBits := [] } } ∧
    (DecInv s.dec → s.dec.active = true → s.dec.upBits.length < s.dec.width.toNat)

/-! ### The decoder (45_decoder.md) -/

/-- R700, R410: DEC_START's writes, the same during an operation. -/
def Obligations.DecStartBeginsAnOperation : Prop :=
  (∀ c p, dtabLookup c dtabSeed = some p ↔ ∃ b : Byte, c = b.setWidth 16 ∧ p = [b]) ∧
  decode (.command 0x50000000) = .ok .decStart ∧
  ∀ s : State, Running s → ∃ t, exec .decStart s = .next t ∧
    t = { s with dec := { s.dec with
      table := dtabSeed, next := 256, count := 256, width := 9, prev := [], upBits := [], active := true } } ∧
    (csrValue 0x00 t).getLsbD 1 = true

/-- R710 on the table path of R740: with too few bits the byte is only kept; with a whole code of DTAB its pattern is
output, the next entry made (but for the first code), the counter and the width moved. -/
def Obligations.DecByteDecodesAKnownCode : Prop :=
  ∀ (b : Byte) (s : State), Running s → s.dec.active = true → DecInv s.dec →
    (s.dec.upBits.length + 8 < s.dec.width.toNat →
      exec (.decByte b) s = .next { s with dec := { s.dec with
        upBits := s.dec.upBits ++ bitsOf Config.fill b } }) ∧
    (s.dec.width.toNat ≤ s.dec.upBits.length + 8 → s.dec.width.toNat ≤ 16 →
      ∀ (c : Code) (e : Pattern),
        c.toNat = ((s.dec.upBits ++ bitsOf Config.fill b).take s.dec.width.toNat).foldl
          (fun acc x => 2 * acc + x.toNat) 0 →
        dtabLookup c s.dec.table = some e →
          exec (.decByte b) s = .next { s with dec := { s.dec with
            out := s.dec.out ++ e
            table :=
              if s.dec.prev = [] then s.dec.table
              else dtabInsert (s.dec.next.setWidth 16) (s.dec.prev ++ e.take 1) s.dec.table
            next := if s.dec.prev = [] then s.dec.next else s.dec.next + 1
            prev := e
            count := s.dec.count + 1
            width :=
              if 2 ^ s.dec.width.toNat ≤ s.dec.count.toNat + 1 then s.dec.width + 1 else s.dec.width
            upBits := (s.dec.upBits ++ bitsOf Config.fill b).drop s.dec.width.toNat } })

/-- R711: the KwK case outputs the previous pattern and its first symbol, makes that one entry, and goes on as for any
other code. -/
def Obligations.KwkCodeIsSynthesised : Prop :=
  ∀ (b : Byte) (s : State) (c : Code) (p0 : Byte) (p : Pattern), Running s → s.dec.active = true → DecInv s.dec →
    s.dec.width.toNat ≤ s.dec.upBits.length + 8 → s.dec.width.toNat ≤ 16 →
    c.toNat = ((s.dec.upBits ++ bitsOf Config.fill b).take s.dec.width.toNat).foldl
      (fun acc x => 2 * acc + x.toNat) 0 →
    dtabLookup c s.dec.table = none → c.toNat = s.dec.next.toNat → s.dec.prev = p0 :: p →
      ∃ t, exec (.decByte b) s = .next t ∧
        t = { s with dec := { s.dec with
          out := s.dec.out ++ (s.dec.prev ++ [p0])
          table := t.dec.table
          next := s.dec.next + 1
          prev := s.dec.prev ++ [p0]
          count := s.dec.count + 1
          width := if 2 ^ s.dec.width.toNat ≤ s.dec.count.toNat + 1 then s.dec.width + 1 else s.dec.width
          upBits := (s.dec.upBits ++ bitsOf Config.fill b).drop s.dec.width.toNat } } ∧
        ∀ c', dtabLookup c' t.dec.table =
          if c' = c then some (s.dec.prev ++ [p0]) else dtabLookup c' s.dec.table

/-- R712 and R905: a code that is neither in DTAB nor the KwK code takes DEC_BADCODE, and nothing else changes. -/
def Obligations.BadCodeFaults : Prop :=
  ∀ (b : Byte) (s : State) (c : Code), Running s → s.dec.active = true →
    s.dec.width.toNat ≤ s.dec.upBits.length + 8 → s.dec.width.toNat ≤ 16 →
    c.toNat = ((s.dec.upBits ++ bitsOf Config.fill b).take s.dec.width.toNat).foldl
      (fun acc x => 2 * acc + x.toNat) 0 →
    dtabLookup c s.dec.table = none → (c.toNat ≠ s.dec.next.toNat ∨ s.dec.prev = []) →
      exec (.decByte b) s = .next { s with ctrl := { s.ctrl with
        halted := true, faultCause := 4, faultCmd := BitVec.ofNat 32 (0x60000000 + b.toNat) } }

/-- R713 and R906: at width 17 a byte that completes 17 bits takes DEC_WIDTH, one that does not is only kept; width 17 is
the width after 65280 codes and no other. -/
def Obligations.SeventeenBitCodeFaults : Prop :=
  ∀ (b : Byte) (s : State), Running s → s.dec.active = true → s.dec.width = 17 →
    (17 ≤ s.dec.upBits.length + 8 →
      exec (.decByte b) s = .next { s with ctrl := { s.ctrl with
        halted := true, faultCause := 5, faultCmd := BitVec.ofNat 32 (0x60000000 + b.toNat) } }) ∧
    (s.dec.upBits.length + 8 < 17 →
      exec (.decByte b) s = .next { s with dec := { s.dec with
        upBits := s.dec.upBits ++ bitsOf Config.fill b } }) ∧
    (DecInv s.dec → s.dec.count.toNat = 256 + 65280)

/-- R710 (a) and (b): one DEC_BYTE decodes at most one code, and leaves at most 7 bits when it decodes one. That it completes
assumes that the host drains the outputs (R1034, log 13). -/
def Obligations.DecByteDecodesAtMostOneCode : Prop :=
  ∀ (b : Byte) (s : State), Running s → s.dec.active = true → DecInv s.dec →
    ∃ t, exec (.decByte b) s = .next t ∧
      ((t.ctrl.halted = true ∧ t.dec = s.dec) ∨
       (Running t ∧ t.dec.count = s.dec.count ∧ t.dec.out = s.dec.out ∧
        t.dec.upBits.length = s.dec.upBits.length + 8) ∨
       (Running t ∧ t.dec.count.toNat = s.dec.count.toNat + 1 ∧ t.dec.upBits.length ≤ 7 ∧
        t.dec.out = s.dec.out ++ t.dec.prev ∧ t.dec.prev ≠ []))

/-- R730: DEC_END's writes; the bits dropped are fewer than the width. Outside an operation the fault is DEC_SEQ. -/
def Obligations.DecEndDropsThePendingBits : Prop :=
  decode (.command 0x70000000) = .ok .decEnd ∧
  (∀ s : State, Running s → s.dec.active = false →
    ∃ t, exec .decEnd s = .next t ∧ t.ctrl.halted = true ∧ t.ctrl.faultCause = 3) ∧
  ∀ s : State, Running s → s.dec.active = true →
    ∃ t, exec .decEnd s = .next t ∧
      t = { s with dec := { s.dec with upBits := [], prev := [], active := false } } ∧
      (csrValue 0x00 t).getLsbD 1 = false ∧ (DecInv s.dec → s.dec.upBits.length < s.dec.width.toNat)

/-- R122 to R129: which events change which decoder and unpacker register. -/
def Obligations.DecoderRegistersAreWrittenAsListed : Prop :=
  ∀ (e : Event) (s t : State), acceptEvent e s = .next t → (∀ ws, e ≠ .reset ws) →
    (t.dec.active ≠ s.dec.active → (e = .word (encode .decStart) ∧ t.dec.active = true) ∨
      (e = .word (encode .decEnd) ∧ t.dec.active = false)) ∧
    (t.dec.table ≠ s.dec.table ∨ t.dec.next ≠ s.dec.next ∨ t.dec.count ≠ s.dec.count ∨
        t.dec.width ≠ s.dec.width →
      e = .word (encode .decStart) ∨ ∃ b, e = .word (encode (.decByte b))) ∧
    (t.dec.prev ≠ s.dec.prev →
      e = .word (encode .decStart) ∨ (∃ b, e = .word (encode (.decByte b))) ∨ e = .word (encode .decEnd)) ∧
    (t.dec.upBits ≠ s.dec.upBits →
      e = .word (encode .decStart) ∨ (∃ b, e = .word (encode (.decByte b))) ∨ e = .word (encode .decEnd) ∨
        (∃ b, e = .word (encode (.upPush b))) ∨ (∃ w, e = .word (encode (.upTake w))) ∨
        e = .word (encode .upDrop)) ∧
    (t.dec.out ≠ s.dec.out → ∃ b, e = .word (encode (.decByte b)))

/-! ### Invariants (10_state.md R160 to R162) -/

/-- Every step keeps the invariant: R160, R161, R162, the canonical form of the tables and the fault record's agreement. -/
def Obligations.StepKeepsTheInvariant : Prop := ∀ s t : State, Inv s → step s = .next t → Inv t

/-- The invariant holds after reset. -/
def Obligations.ResetMeetsTheInvariant : Prop := Inv State.reset

/-- With host events only (log 6), from any state that meets the invariant, a step answers a next state: "every accepted
command completes, provided the host drains the outputs" (R1040, R1034), no table overflows (R203), no code is missing
(R620 (b)). The proviso is in the model: its outputs are unbounded lists, which never make a command wait (log 13). -/
def Obligations.StepNeverStops : Prop := ∀ s : State, Inv s → ∃ t, step s = .next t

/-! ### The whole machine -/

/-- A step accepts the oldest event: a word that decodes is run by `exec`; a word that does not is rejected; a reset
resets. With no event the state stays: the model's reading of R944, "waiting changes no state" (log 19). The queue of events
is the model's own (log 1). -/
def Obligations.StepRunsTheDecodedInstruction : Prop :=
  (∀ (s : State) (p : PortWord) (i : Instr) (rest : List Event), s.ports.input = .word p :: rest →
    decode p = .ok i → step s = exec i { s with ports := { s.ports with input := rest } }) ∧
  (∀ (s : State) (p : PortWord) (r : Reject) (rest : List Event), s.ports.input = .word p :: rest →
    decode p = .error r → step s = rejectWord p { s with ports := { s.ports with input := rest } }) ∧
  (∀ (s : State) (ws : List CmdWord) (rest : List Event), s.ports.input = .reset ws :: rest →
    step s = .next (applyReset { s with ports := { s.ports with input := rest } })) ∧
  (∀ s : State, s.ports.input = [] → step s = .next s)

/-- R230: as many steps as there are events give what accepting the events one after the other gives. The queue is the
model's own (log 1). -/
def Obligations.StepsAcceptEventsInOrder : Prop :=
  ∀ (es : List Event) (s : State), s.ports.input = [] →
    core.run es.length (send es s) = acceptAll es s

/-- R233: a command of one path neither reads nor writes the other path's state; the decoder reads no cap (R413). -/
def Obligations.PathsShareOnlyTheFaultRecord : Prop :=
  (∀ (i : Instr) (s t : State), encoderPath i = true → exec i s = .next t →
    t.dec = s.dec ∧ ∀ d, exec i { s with dec := d } = .next { t with dec := d }) ∧
  ∀ (i : Instr) (s t : State), decoderPath i = true → exec i s = .next t →
    t.enc = s.enc ∧ t.ctrl.cap = s.ctrl.cap ∧
    ∀ e cap, exec i { s with enc := e, ctrl := { s.ctrl with cap := cap } } =
      .next { t with enc := e, ctrl := { t.ctrl with cap := cap } }

/-- R233, R1037: commands of the two paths in any interleaving, no fault being taken, give each path what its own commands
alone give it. -/
def Obligations.InterleavingGivesEachPathItsOwnResult : Prop :=
  ∀ (is : List Instr) (s t : State), (∀ i ∈ is, encoderPath i = true ∨ decoderPath i = true) →
    acceptAll (eventsOf is) s = .next t → Running t →
      (∃ u, acceptAll (eventsOf (is.filter encoderPath)) s = .next u ∧ u.enc = t.enc ∧ u.ctrl = t.ctrl ∧
        u.dec = s.dec) ∧
      (∃ u, acceptAll (eventsOf (is.filter decoderPath)) s = .next u ∧ u.dec = t.dec ∧ u.enc = s.enc ∧ Running u)

/-- R129, R231: but for reset, an event only appends to the outputs. -/
def Obligations.OutputsOnlyGrow : Prop :=
  ∀ (e : Event) (s t : State), acceptEvent e s = .next t → (∀ ws, e ≠ .reset ws) →
    (∃ bytes, t.enc.out = s.enc.out ++ bytes) ∧ (∃ bytes, t.dec.out = s.dec.out ++ bytes)

/-- R650: the commands of a compress operation append exactly compress(S, v), from any state that is not halted. That they
all complete assumes that the host drains the outputs (R1034, log 13). -/
def Obligations.CompressOperationWritesCompress : Prop :=
  ∀ (s : State) (v : BitVec 16) (symbols : List Byte), Running s →
    ∃ t, acceptAll (eventsOf (compressCommands v symbols)) s = .next t ∧ Running t ∧
      t.enc.out = s.enc.out ++ compress Config.fill symbols v.toNat ∧ t.dec = s.dec

/-- R750: the commands of a decompress operation append exactly decompress(B), or fault as it says. That they all complete
assumes that the host drains the outputs (R1034, log 13). -/
def Obligations.DecompressOperationWritesDecompress : Prop :=
  ∀ (s : State) (bytes : List Byte), Running s →
    ∃ t, acceptAll (eventsOf (decompressCommands bytes)) s = .next t ∧ t.enc = s.enc ∧
      match decompress Config.fill bytes with
      | .ok out => Running t ∧ t.dec.out = s.dec.out ++ out
      | .error cause => t.ctrl.halted = true ∧ t.ctrl.faultCause = causeCode cause ∧
          (cause = .decBadCode ∨ cause = .decWidth)

/-- R751: below the lockstep bound decompress undoes compress, for either FILL, and so do the two operations of the
block, the host draining the outputs (R1034, log 13). -/
def Obligations.RoundTripBelowTheLockstepBound : Prop :=
  (∀ (f : Fill) (symbols : List Byte) (v : Nat), v ≤ 65535 →
    (compCodes symbols v).length < 2 ^ bitlen (max 256 v) - 255 →
      decompress f (compress f symbols v) = .ok symbols) ∧
  ∀ (s : State) (v : BitVec 16) (symbols : List Byte), Running s →
    (compCodes symbols v.toNat).length < 2 ^ bitlen (max 256 v.toNat) - 255 →
      ∃ t u bytes, acceptAll (eventsOf (compressCommands v symbols)) s = .next t ∧
        t.enc.out = s.enc.out ++ bytes ∧
        acceptAll (eventsOf (decompressCommands bytes)) t = .next u ∧ Running u ∧
        u.dec.out = s.dec.out ++ symbols

/-- R751, R1031, R1032: at the bound the result is not the input in general: some input with cap 0 and 257 codes or more
comes back changed, without a fault (V-D8). -/
def Obligations.RoundTripFailsPastTheBound : Prop :=
  ∃ symbols out : List Byte, 2 ^ bitlen (max 256 0) - 255 ≤ (compCodes symbols 0).length ∧
    decompress Config.fill (compress Config.fill symbols 0) = .ok out ∧ out ≠ symbols

/-- R457: code k of a compress operation is packed at width bitlen(min(256 + k - 1, M)), code k of a decompress operation
is read at bitlen(256 + k - 1), and the two agree exactly below 2^bitlen(M) - 255. -/
def Obligations.CodeWidthsFollowTheirClosedForms : Prop :=
  (∀ (symbols : List Byte) (v : Nat) (k : Nat), 1 ≤ k → ∀ h : k - 1 < (compCodes symbols v).length,
    ((compCodes symbols v)[k - 1]).2 = bitlen (min (256 + k - 1) (max 256 v))) ∧
  (∀ (s : State) (k : Nat), Inv s → s.dec.count.toNat = 256 + k - 1 → 1 ≤ k →
    s.dec.width.toNat = bitlen (256 + k - 1)) ∧
  (∀ M k : Nat, 256 ≤ M → 1 ≤ k →
    (bitlen (min (256 + k - 1) M) = bitlen (256 + k - 1) ↔ k < 2 ^ bitlen M - 255)) ∧
  2 ^ bitlen (max 256 10000) - 255 = 16129 ∧ ∀ v ≤ 256, 2 ^ bitlen (max 256 v) - 255 = 257

/-- R213: the number of bytes a compress operation writes, its padding, and why the padding is no code. -/
def Obligations.CompressedLengthIsTheRoundedBitCount : Prop :=
  ∀ (s : State) (v : BitVec 16) (symbols : List Byte), Running s →
    ∃ (t : State) (bytes : List Byte) (widths : List Nat) (zeros : Nat),
      acceptAll (eventsOf (compressCommands v symbols)) s = .next t ∧ t.enc.out = s.enc.out ++ bytes ∧
      widths = (compCodes symbols v.toNat).map Prod.snd ∧
      bytes.flatMap (bitsOf Config.fill) = codeBits (compCodes symbols v.toNat) ++ List.replicate zeros false ∧
      bytes.length = (widths.sum + 7) / 8 ∧ zeros = (8 - widths.sum % 8) % 8 ∧ ∀ w ∈ widths, zeros < 9 ∧ 9 ≤ w

end
end

