-- ==== Sys2Proof/Laws/Operands.lean ====
section
/-!
SUPPORT. The laws of bits, codes and bytes: the two byte fills undo each other, a code read back is the code written, and
draining whole bytes loses no bit.
-/

namespace Sys2Proof.Machine

theorem foldMsb_append (acc : Nat) (a b : Bits) : foldMsb acc (a ++ b) = foldMsb (foldMsb acc a) b := by
  induction a generalizing acc with
  | nil => rfl
  | cons x a ih => exact ih _

theorem foldMsb_eq (acc : Nat) (b : Bits) : foldMsb acc b = acc * 2 ^ b.length + foldMsb 0 b := by
  induction b generalizing acc with
  | nil => simp [foldMsb]
  | cons x b ih =>
    simp only [foldMsb, List.length_cons]
    rw [ih, ih (2 * 0 + _)]
    ring

/-- The fold as a left fold over the bits (R560). -/
theorem foldMsb_eq_foldl (acc : Nat) (b : Bits) : foldMsb acc b = b.foldl (fun acc x => 2 * acc + x.toNat) acc := by
  induction b generalizing acc with
  | nil => rfl
  | cons x b ih => exact ih _

theorem foldMsb_lt (b : Bits) : foldMsb 0 b < 2 ^ b.length := by
  induction b with
  | nil => simp [foldMsb]
  | cons x b ih =>
    simp only [foldMsb, List.length_cons]
    rw [foldMsb_eq, pow_succ]
    rcases x with _ | _ <;> simp <;> omega

@[simp] theorem length_msbFirst (v : Code) (w : Nat) : (msbFirst v w).length = w := by
  induction w with
  | zero => rfl
  | succ w ih => simp [msbFirst, ih]

/-- The bits of a code, folded, give the code's value below the width. -/
theorem foldMsb_msbFirst (v : Code) (w : Nat) : foldMsb 0 (msbFirst v w) = v.toNat % 2 ^ w := by
  induction w with
  | zero => simp [msbFirst, foldMsb, Nat.mod_one]
  | succ w ih =>
    simp only [msbFirst, foldMsb]
    rw [foldMsb_eq, ih, length_msbFirst, ← BitVec.testBit_toNat, Nat.testBit_eq_decide_div_mod_eq, pow_succ,
      Nat.mod_mul]
    rcases Nat.mod_two_eq_zero_or_one (v.toNat / 2 ^ w) with h | h
    · simp [h]
    · simp [h]; ring

/-- A code that fits its width is read back as written (R205, R560 (c)). -/
theorem codeOf_msbFirst {v : Code} {w : Nat} (h : v.toNat < 2 ^ w) : codeOf (msbFirst v w) = v := by
  rw [codeOf, foldMsb_msbFirst, Nat.mod_eq_of_lt h, BitVec.ofNat_toNat, BitVec.setWidth_eq]

/-- A code of w bits is below 2^w (R560 (b)). -/
theorem codeOf_toNat {b : Bits} (h : b.length ≤ 16) : (codeOf b).toNat = foldMsb 0 b := by
  have h1 := foldMsb_lt b
  have h2 : 2 ^ b.length ≤ 2 ^ 16 := Nat.pow_le_pow_right (by decide) h
  rw [codeOf, BitVec.toNat_ofNat, Nat.mod_eq_of_lt (by omega)]

@[simp] theorem length_bitsOf (f : Fill) (v : Byte) : (bitsOf f v).length = 8 := by cases f <;> rfl

/-- bits_of after byte_of, either fill (R211). -/
theorem bitsOf_byteOf (f : Fill) {b : Bits} (h : b.length = 8) : bitsOf f (byteOf f b) = b := by
  match b, h with
  | [b0, b1, b2, b3, b4, b5, b6, b7], _ =>
    cases f <;> revert b0 b1 b2 b3 b4 b5 b6 b7 <;> decide

/-- byte_of after bits_of, either fill (R211). -/
theorem byteOf_bitsOf (f : Fill) (v : Byte) : byteOf f (bitsOf f v) = v := by
  cases f <;> revert v <;> decide

/-- Draining whole bytes loses no bit: the bytes' bits and the bits that remain are the list. -/
theorem drainBytes_bits (f : Fill) (n : Nat) (b : Bits) :
    (drainBytes f n b).1.flatMap (bitsOf f) ++ (drainBytes f n b).2 = b := by
  induction n generalizing b with
  | zero => rfl
  | succ n ih =>
    simp only [drainBytes]
    split_ifs with h
    · simp only [List.flatMap_cons, List.append_assoc, ih]
      rw [bitsOf_byteOf f (by simpa using h), List.take_append_drop]
    · rfl

/-- Fewer than 8 bits remain (R500). -/
theorem drainBytes_rest_lt (f : Fill) (n : Nat) (b : Bits) (h : b.length ≤ n) : (drainBytes f n b).2.length < 8 := by
  induction n generalizing b with
  | zero => simp only [drainBytes]; omega
  | succ n ih =>
    simp only [drainBytes]
    split_ifs with h8
    · exact ih _ (by rw [List.length_drop]; omega)
    · simp only; omega

theorem length_flatMap_bitsOf (f : Fill) (l : List Byte) : (l.flatMap (bitsOf f)).length = 8 * l.length := by
  induction l with
  | nil => rfl
  | cons a l ih => simp [List.flatMap_cons, ih]; ring

theorem drainBytes_length (f : Fill) (n : Nat) (b : Bits) :
    8 * (drainBytes f n b).1.length + (drainBytes f n b).2.length = b.length := by
  have h := congrArg List.length (drainBytes_bits f n b)
  rwa [List.length_append, length_flatMap_bitsOf] at h

theorem length_padded {b : Bits} (h : b.length ≤ 8) : (b ++ List.replicate (8 - b.length) false).length = 8 := by
  simp; omega

/-- The padded byte holds the pending bits, then zeros (R210, R510). -/
theorem bitsOf_padByte (f : Fill) {b : Bits} (h : b.length ≤ 8) :
    bitsOf f (padByte f b) = b ++ List.replicate (8 - b.length) false :=
  bitsOf_byteOf f (length_padded h)

theorem slotOf_some {n : BitVec 17} {c : Code} (h : slotOf n = some c) : c.toNat = n.toNat := by
  simp only [slotOf] at h
  split_ifs at h with hn
  rw [← Option.some.inj h, BitVec.toNat_setWidth, Nat.mod_eq_of_lt hn]

theorem slotOf_of_lt {n : BitVec 17} (h : n.toNat < 65536) : slotOf n = some (n.setWidth 16) := by
  simp only [slotOf, Config.depth, Config.wMax]
  rw [if_pos (by omega)]

end Sys2Proof.Machine
end

