-- ==== Sys2Proof/Laws/State.lean ====
section
/-!
SUPPORT. The fields of a state after each of the model's updates: what every update writes and what it leaves.
-/

namespace Sys2Proof.Machine

/-! ### Fault entry (R910) -/

@[simp] theorem takeFault_enc (c : FaultCause) (w : CmdWord) (s : State) : (takeFault c w s).enc = s.enc := rfl
@[simp] theorem takeFault_dec (c : FaultCause) (w : CmdWord) (s : State) : (takeFault c w s).dec = s.dec := rfl
@[simp] theorem takeFault_ports (c : FaultCause) (w : CmdWord) (s : State) : (takeFault c w s).ports = s.ports := rfl
@[simp] theorem takeFault_cap (c : FaultCause) (w : CmdWord) (s : State) :
    (takeFault c w s).ctrl.cap = s.ctrl.cap := rfl
@[simp] theorem takeFault_halted (c : FaultCause) (w : CmdWord) (s : State) :
    (takeFault c w s).ctrl.halted = true := rfl
@[simp] theorem takeFault_faultCause (c : FaultCause) (w : CmdWord) (s : State) :
    (takeFault c w s).ctrl.faultCause = causeCode c := rfl
@[simp] theorem takeFault_faultCmd (c : FaultCause) (w : CmdWord) (s : State) :
    (takeFault c w s).ctrl.faultCmd = w := rfl

/-! ### Reset (R1000) -/

@[simp] theorem applyReset_ctrl (s : State) : (applyReset s).ctrl = Ctrl.reset := rfl
@[simp] theorem applyReset_enc (s : State) : (applyReset s).enc = Enc.reset := rfl
@[simp] theorem applyReset_dec (s : State) : (applyReset s).dec = Dec.reset := rfl
@[simp] theorem applyReset_ports (s : State) : (applyReset s).ports = s.ports := rfl

/-! ### Width policy (R452, R453) -/

@[simp] theorem recordGrowthE_active (e : Enc) : (recordGrowthE e).active = e.active := rfl
@[simp] theorem recordGrowthE_cap (e : Enc) : (recordGrowthE e).cap = e.cap := rfl
@[simp] theorem recordGrowthE_table (e : Enc) : (recordGrowthE e).table = e.table := rfl
@[simp] theorem recordGrowthE_count (e : Enc) : (recordGrowthE e).count = e.count + 1 := rfl
@[simp] theorem recordGrowthE_pattern (e : Enc) : (recordGrowthE e).pattern = e.pattern := rfl
@[simp] theorem recordGrowthE_pkBits (e : Enc) : (recordGrowthE e).pkBits = e.pkBits := rfl
@[simp] theorem recordGrowthE_out (e : Enc) : (recordGrowthE e).out = e.out := rfl

@[simp] theorem recordGrowthD_active (d : Dec) : (recordGrowthD d).active = d.active := rfl
@[simp] theorem recordGrowthD_table (d : Dec) : (recordGrowthD d).table = d.table := rfl
@[simp] theorem recordGrowthD_next (d : Dec) : (recordGrowthD d).next = d.next := rfl
@[simp] theorem recordGrowthD_count (d : Dec) : (recordGrowthD d).count = d.count + 1 := rfl
@[simp] theorem recordGrowthD_prev (d : Dec) : (recordGrowthD d).prev = d.prev := rfl
@[simp] theorem recordGrowthD_upBits (d : Dec) : (recordGrowthD d).upBits = d.upBits := rfl
@[simp] theorem recordGrowthD_out (d : Dec) : (recordGrowthD d).out = d.out := rfl

/-! ### Packer (R500, R510) -/

@[simp] theorem packCode_active (v : Code) (w : Nat) (e : Enc) : (packCode v w e).active = e.active := rfl
@[simp] theorem packCode_cap (v : Code) (w : Nat) (e : Enc) : (packCode v w e).cap = e.cap := rfl
@[simp] theorem packCode_table (v : Code) (w : Nat) (e : Enc) : (packCode v w e).table = e.table := rfl
@[simp] theorem packCode_count (v : Code) (w : Nat) (e : Enc) : (packCode v w e).count = e.count := rfl
@[simp] theorem packCode_width (v : Code) (w : Nat) (e : Enc) : (packCode v w e).width = e.width := rfl
@[simp] theorem packCode_pattern (v : Code) (w : Nat) (e : Enc) : (packCode v w e).pattern = e.pattern := rfl

@[simp] theorem packFlush_active (e : Enc) : (packFlush e).active = e.active := rfl
@[simp] theorem packFlush_cap (e : Enc) : (packFlush e).cap = e.cap := rfl
@[simp] theorem packFlush_table (e : Enc) : (packFlush e).table = e.table := rfl
@[simp] theorem packFlush_count (e : Enc) : (packFlush e).count = e.count := rfl
@[simp] theorem packFlush_width (e : Enc) : (packFlush e).width = e.width := rfl
@[simp] theorem packFlush_pattern (e : Enc) : (packFlush e).pattern = e.pattern := rfl
@[simp] theorem packFlush_pkBits (e : Enc) : (packFlush e).pkBits = [] := rfl

/-! ### Unpacker (R550, R570) -/

@[simp] theorem unpackPush_active (b : Byte) (d : Dec) : (unpackPush b d).active = d.active := rfl
@[simp] theorem unpackPush_table (b : Byte) (d : Dec) : (unpackPush b d).table = d.table := rfl
@[simp] theorem unpackPush_next (b : Byte) (d : Dec) : (unpackPush b d).next = d.next := rfl
@[simp] theorem unpackPush_count (b : Byte) (d : Dec) : (unpackPush b d).count = d.count := rfl
@[simp] theorem unpackPush_width (b : Byte) (d : Dec) : (unpackPush b d).width = d.width := rfl
@[simp] theorem unpackPush_prev (b : Byte) (d : Dec) : (unpackPush b d).prev = d.prev := rfl
@[simp] theorem unpackPush_out (b : Byte) (d : Dec) : (unpackPush b d).out = d.out := rfl
@[simp] theorem unpackPush_upBits (b : Byte) (d : Dec) :
    (unpackPush b d).upBits = d.upBits ++ bitsOf Config.fill b := rfl

@[simp] theorem unpackDrop_active (d : Dec) : (unpackDrop d).active = d.active := rfl
@[simp] theorem unpackDrop_table (d : Dec) : (unpackDrop d).table = d.table := rfl
@[simp] theorem unpackDrop_next (d : Dec) : (unpackDrop d).next = d.next := rfl
@[simp] theorem unpackDrop_count (d : Dec) : (unpackDrop d).count = d.count := rfl
@[simp] theorem unpackDrop_width (d : Dec) : (unpackDrop d).width = d.width := rfl
@[simp] theorem unpackDrop_prev (d : Dec) : (unpackDrop d).prev = d.prev := rfl
@[simp] theorem unpackDrop_out (d : Dec) : (unpackDrop d).out = d.out := rfl
@[simp] theorem unpackDrop_upBits (d : Dec) : (unpackDrop d).upBits = [] := rfl

/-! ### Starting and ending an operation (R610, R630, R700, R730) -/

@[simp] theorem startEncoder_active (cap : BitVec 16) (e : Enc) : (startEncoder cap e).active = true := rfl
@[simp] theorem startEncoder_cap (cap : BitVec 16) (e : Enc) : (startEncoder cap e).cap = cap := rfl
@[simp] theorem startEncoder_table (cap : BitVec 16) (e : Enc) : (startEncoder cap e).table = etabSeed := rfl
@[simp] theorem startEncoder_count (cap : BitVec 16) (e : Enc) : (startEncoder cap e).count = 256 := rfl
@[simp] theorem startEncoder_width (cap : BitVec 16) (e : Enc) : (startEncoder cap e).width = 9 := rfl
@[simp] theorem startEncoder_pattern (cap : BitVec 16) (e : Enc) : (startEncoder cap e).pattern = [] := rfl
@[simp] theorem startEncoder_pkBits (cap : BitVec 16) (e : Enc) : (startEncoder cap e).pkBits = [] := rfl
@[simp] theorem startEncoder_out (cap : BitVec 16) (e : Enc) : (startEncoder cap e).out = e.out := rfl

@[simp] theorem endEncoder_active (e : Enc) : (endEncoder e).active = false := rfl
@[simp] theorem endEncoder_pattern (e : Enc) : (endEncoder e).pattern = [] := rfl
@[simp] theorem endEncoder_pkBits (e : Enc) : (endEncoder e).pkBits = [] := rfl

@[simp] theorem startDecoder_active (d : Dec) : (startDecoder d).active = true := rfl
@[simp] theorem startDecoder_table (d : Dec) : (startDecoder d).table = dtabSeed := rfl
@[simp] theorem startDecoder_next (d : Dec) : (startDecoder d).next = 256 := rfl
@[simp] theorem startDecoder_count (d : Dec) : (startDecoder d).count = 256 := rfl
@[simp] theorem startDecoder_width (d : Dec) : (startDecoder d).width = 9 := rfl
@[simp] theorem startDecoder_prev (d : Dec) : (startDecoder d).prev = [] := rfl
@[simp] theorem startDecoder_upBits (d : Dec) : (startDecoder d).upBits = [] := rfl
@[simp] theorem startDecoder_out (d : Dec) : (startDecoder d).out = d.out := rfl

@[simp] theorem endDecoder_active (d : Dec) : (endDecoder d).active = false := rfl
@[simp] theorem endDecoder_table (d : Dec) : (endDecoder d).table = d.table := rfl
@[simp] theorem endDecoder_next (d : Dec) : (endDecoder d).next = d.next := rfl
@[simp] theorem endDecoder_count (d : Dec) : (endDecoder d).count = d.count := rfl
@[simp] theorem endDecoder_width (d : Dec) : (endDecoder d).width = d.width := rfl
@[simp] theorem endDecoder_prev (d : Dec) : (endDecoder d).prev = [] := rfl
@[simp] theorem endDecoder_upBits (d : Dec) : (endDecoder d).upBits = [] := rfl
@[simp] theorem endDecoder_out (d : Dec) : (endDecoder d).out = d.out := rfl

/-! ### Sending events -/

@[simp] theorem send_ctrl (es : List Event) (s : State) : (send es s).ctrl = s.ctrl := rfl
@[simp] theorem send_enc (es : List Event) (s : State) : (send es s).enc = s.enc := rfl
@[simp] theorem send_dec (es : List Event) (s : State) : (send es s).dec = s.dec := rfl
@[simp] theorem send_input (es : List Event) (s : State) : (send es s).ports.input = s.ports.input ++ es := rfl

end Sys2Proof.Machine
end

