-- ==== Sys2Proof/Laws/Table.lean ====
section
/-!
SUPPORT. The laws of the symbol tables as finite maps: read after write, the canonical form, the seeds.
-/

namespace Sys2Proof.Machine

section Generic

variable {α β : Type} [DecidableEq α] {lt : α → α → Bool}

@[simp] theorem tableLookup_nil (k : α) : tableLookup k ([] : List (α × β)) = none := rfl

theorem tableLookup_cons (k : α) (e : α × β) (t : List (α × β)) :
    tableLookup k (e :: t) = if k = e.1 then some e.2 else tableLookup k t := rfl

theorem tableLookup_tableInsert_self (lt : α → α → Bool) (k : α) (v : β) (t : List (α × β)) :
    tableLookup k (tableInsert lt k v t) = some v := by
  induction t with
  | nil => simp [tableInsert, tableLookup]
  | cons e t ih =>
    simp only [tableInsert]
    split_ifs with h1 h2 <;> simp [tableLookup, *]

theorem tableLookup_tableInsert_ne (lt : α → α → Bool) {k k' : α} (h : k' ≠ k) (v : β) (t : List (α × β)) :
    tableLookup k' (tableInsert lt k v t) = tableLookup k' t := by
  induction t with
  | nil => simp [tableInsert, tableLookup, h]
  | cons e t ih =>
    simp only [tableInsert]
    split_ifs with h1 h2
    · subst h1; simp [tableLookup, h]
    · simp [tableLookup, h]
    · simp [tableLookup, ih]

theorem tableLookup_tableInsert (lt : α → α → Bool) (k k' : α) (v : β) (t : List (α × β)) :
    tableLookup k' (tableInsert lt k v t) = if k' = k then some v else tableLookup k' t := by
  split_ifs with h
  · subst h; exact tableLookup_tableInsert_self lt k' v t
  · exact tableLookup_tableInsert_ne lt h v t

theorem mem_of_tableLookup {k : α} {v : β} {t : List (α × β)} (h : tableLookup k t = some v) : (k, v) ∈ t := by
  induction t with
  | nil => simp at h
  | cons e t ih =>
    rw [tableLookup_cons] at h
    split_ifs at h with hk
    · obtain ⟨a, b⟩ := e; simp_all
    · exact List.mem_cons_of_mem _ (ih h)

/-- A key written again keeps the number of entries; a fresh one adds one. -/
theorem length_tableInsert_of_fresh {k : α} {v : β} {t : List (α × β)} (h : tableLookup k t = none) :
    (tableInsert lt k v t).length = t.length + 1 := by
  induction t with
  | nil => rfl
  | cons e t ih =>
    rw [tableLookup_cons] at h
    split_ifs at h with hk
    simp only [tableInsert, hk, if_false]
    split_ifs <;> simp [ih h]

theorem mem_tableInsert {k : α} {v : β} {t : List (α × β)} {x : α × β} (h : x ∈ tableInsert lt k v t) :
    x = (k, v) ∨ x ∈ t := by
  induction t with
  | nil => simpa [tableInsert] using h
  | cons e t ih =>
    simp only [tableInsert] at h
    split_ifs at h with h1 h2
    · rcases List.mem_cons.1 h with h | h
      · exact .inl h
      · exact .inr (List.mem_cons_of_mem _ h)
    · rcases List.mem_cons.1 h with h | h
      · exact .inl h
      · exact .inr h
    · rcases List.mem_cons.1 h with h | h
      · exact .inr (h ▸ List.mem_cons_self ..)
      · rcases ih h with h | h
        · exact .inl h
        · exact .inr (List.mem_cons_of_mem _ h)

/-- Writing keeps the canonical form, for an order in which two keys are equal or compare. -/
theorem tableInsert_rises (htrans : ∀ a b c, lt a b = true → lt b c = true → lt a c = true)
    (htotal : ∀ a b, a ≠ b → lt a b = true ∨ lt b a = true) (k : α) (v : β) {t : List (α × β)}
    (h : tableRises lt t) : tableRises lt (tableInsert lt k v t) := by
  induction t with
  | nil => exact List.pairwise_singleton _ _
  | cons e t ih =>
    obtain ⟨he, ht⟩ := List.pairwise_cons.1 h
    simp only [tableInsert]
    split_ifs with h1 h2
    · exact List.pairwise_cons.2 ⟨fun x hx => h1 ▸ he x hx, ht⟩
    · refine List.pairwise_cons.2 ⟨fun x hx => ?_, h⟩
      rcases List.mem_cons.1 hx with rfl | hx
      · exact h2
      · exact htrans _ _ _ h2 (he x hx)
    · refine List.pairwise_cons.2 ⟨fun x hx => ?_, ih ht⟩
      rcases mem_tableInsert hx with rfl | hx
      · exact (htotal e.1 k (Ne.symm h1)).resolve_right h2
      · exact he x hx

end Generic

/-! ### The two orders -/

theorem patternLt_trans : ∀ p q r : Pattern, patternLt p q = true → patternLt q r = true → patternLt p r = true
  | [], [], _, h, _ => by simp [patternLt] at h
  | [], _ :: _, [], _, h => by simp [patternLt] at h
  | [], _ :: _, _ :: _, _, _ => rfl
  | _ :: _, [], _, h, _ => by simp [patternLt] at h
  | _ :: _, _ :: _, [], _, h => by simp [patternLt] at h
  | a :: p, b :: q, c :: r, h1, h2 => by
    simp only [patternLt] at h1 h2 ⊢
    by_cases hab : a = b <;> by_cases hbc : b = c
    · subst hab hbc
      simp only [if_true] at h1 h2 ⊢
      exact patternLt_trans p q r h1 h2
    · subst hab
      simpa [hbc] using h2
    · subst hbc
      simpa [hab] using h1
    · rw [if_neg hab, decide_eq_true_eq] at h1
      rw [if_neg hbc, decide_eq_true_eq] at h2
      have hac : a ≠ c := fun e => by subst e; omega
      rw [if_neg hac, decide_eq_true_eq]
      omega

theorem patternLt_total : ∀ p q : Pattern, p ≠ q → patternLt p q = true ∨ patternLt q p = true
  | [], [], h => absurd rfl h
  | [], _ :: _, _ => .inl rfl
  | _ :: _, [], _ => .inr rfl
  | a :: p, b :: q, h => by
    simp only [patternLt]
    by_cases hab : a = b
    · subst hab
      simpa using patternLt_total p q (fun e => h (e ▸ rfl))
    · have : a.toNat ≠ b.toNat := fun e => hab (BitVec.eq_of_toNat_eq e)
      rw [if_neg hab, if_neg (Ne.symm hab)]
      simp only [decide_eq_true_eq]
      omega

theorem codeLt_trans (a b c : Code) (h1 : codeLt a b = true) (h2 : codeLt b c = true) : codeLt a c = true := by
  simp only [codeLt, decide_eq_true_eq] at *
  omega

theorem codeLt_total (a b : Code) (h : a ≠ b) : codeLt a b = true ∨ codeLt b a = true := by
  have : a.toNat ≠ b.toNat := fun e => h (BitVec.eq_of_toNat_eq e)
  simp only [codeLt, decide_eq_true_eq]
  omega

/-! ### ETAB and DTAB -/

theorem etabLookup_etabBind (p q : Pattern) (c : Code) (t : EncTable) :
    etabLookup q (etabBind p c t) = if q = p then some c else etabLookup q t :=
  tableLookup_tableInsert _ _ _ _ _

theorem dtabLookup_dtabInsert (c c' : Code) (p : Pattern) (t : DecTable) :
    dtabLookup c' (dtabInsert c p t) = if c' = c then some p else dtabLookup c' t :=
  tableLookup_tableInsert _ _ _ _ _

/-- Every write of ETAB keeps its canonical form. -/
theorem etabBind_rises (p : Pattern) (c : Code) {t : EncTable} (h : tableRises patternLt t) :
    tableRises patternLt (etabBind p c t) :=
  tableInsert_rises patternLt_trans patternLt_total p c h

/-- Every write of DTAB keeps its canonical form. -/
theorem dtabInsert_rises (c : Code) (p : Pattern) {t : DecTable} (h : tableRises codeLt t) :
    tableRises codeLt (dtabInsert c p t) :=
  tableInsert_rises codeLt_trans codeLt_total c p h

theorem length_etabBind {p : Pattern} (c : Code) {t : EncTable} (h : etabLookup p t = none) :
    (etabBind p c t).length = t.length + 1 :=
  length_tableInsert_of_fresh h

/-! ### The seeds -/

theorem tableLookup_map_range {α β : Type} [DecidableEq α] (k : α) (f : Nat → α) (g : Nat → β) (n : Nat) (i : Nat)
    (hi : i < n) (hk : k = f i) (hinj : ∀ j < n, f j = f i → j = i) :
    tableLookup k ((List.range n).map fun j => (f j, g j)) = some (g i) := by
  induction n with
  | zero => omega
  | succ n ih =>
    have happ : ∀ (l : List (α × β)) (e : α × β),
        tableLookup k (l ++ [e]) = (tableLookup k l).or (if k = e.1 then some e.2 else none) := by
      intro l e
      induction l with
      | nil => simp [tableLookup]
      | cons a l ihl => simp only [List.cons_append, tableLookup_cons, ihl]; split_ifs <;> simp
    rw [List.range_succ, List.map_append, List.map_singleton, happ]
    by_cases h : i = n
    · subst h
      rcases hl : tableLookup k ((List.range i).map fun j => (f j, g j)) with _ | v
      · simp [hk]
      · obtain ⟨j, hj, hjv⟩ := List.mem_map.1 (mem_of_tableLookup hl)
        have hji := hinj j (by have := List.mem_range.1 hj; omega) ((Prod.ext_iff.1 hjv).1.trans hk)
        have := List.mem_range.1 hj
        omega
    · rw [ih (by omega) (fun j hj => hinj j (by omega))]
      rfl

theorem tableLookup_map_range_none {α β : Type} [DecidableEq α] (k : α) (f : Nat → α) (g : Nat → β) (n : Nat)
    (h : ∀ j < n, f j ≠ k) : tableLookup k ((List.range n).map fun j => (f j, g j)) = none := by
  rcases hl : tableLookup k ((List.range n).map fun j => (f j, g j)) with _ | v
  · rfl
  · obtain ⟨j, hj, hjv⟩ := List.mem_map.1 (mem_of_tableLookup hl)
    exact absurd (Prod.ext_iff.1 hjv).1 (h j (List.mem_range.1 hj))

/-- A one-symbol pattern is a seed entry (R400). -/
theorem etabLookup_seed (b : Byte) : etabLookup [b] etabSeed = some (b.setWidth 16) := by
  have hb := b.isLt
  have h := tableLookup_map_range [b] (fun j => [BitVec.ofNat 8 j]) (fun j => BitVec.ofNat 16 j) 256 b.toNat hb
    (by simp) (by
      intro j hj hji
      have := congrArg BitVec.toNat (List.cons.inj hji).1
      simp only [BitVec.toNat_ofNat] at this
      omega)
  simpa [etabLookup, etabSeed, BitVec.setWidth_eq, BitVec.ofNat_toNat] using h

/-- The seed map has no other key (R400). -/
theorem etabLookup_seed_none {p : Pattern} (h : p.length ≠ 1) : etabLookup p etabSeed = none :=
  tableLookup_map_range_none p _ _ 256 fun _ _ e => h (e ▸ rfl)

/-- Exactly the one-symbol patterns are keys of the seed map, each bound to its symbol (R400). -/
theorem etabLookup_seed_some {p : Pattern} {c : Code} (h : etabLookup p etabSeed = some c) :
    ∃ b : Byte, p = [b] ∧ c = b.setWidth 16 := by
  by_cases hp : p.length = 1
  · obtain ⟨b, rfl⟩ := List.length_eq_one_iff.1 hp
    rw [etabLookup_seed] at h
    exact ⟨b, rfl, (Option.some.inj h).symm⟩
  · rw [etabLookup_seed_none hp] at h
    exact absurd h (by simp)

/-- A code below 256 is bound to its one-symbol pattern (R410). -/
theorem dtabLookup_seed (b : Byte) : dtabLookup (b.setWidth 16) dtabSeed = some [b] := by
  have hb := b.isLt
  have h := tableLookup_map_range (b.setWidth 16) (fun j => BitVec.ofNat 16 j) (fun j => [BitVec.ofNat 8 j]) 256
    b.toNat hb (by simp [BitVec.ofNat_toNat]) (by
      intro j hj hji
      have := congrArg BitVec.toNat hji
      simp only [BitVec.toNat_ofNat] at this
      omega)
  simpa [dtabLookup, dtabSeed] using h

/-- The seed map has no code at or above 256 (R410). -/
theorem dtabLookup_seed_none {c : Code} (h : 256 ≤ c.toNat) : dtabLookup c dtabSeed = none :=
  tableLookup_map_range_none c _ _ 256 fun j hj e => by
    have := congrArg BitVec.toNat e
    simp only [BitVec.toNat_ofNat] at this
    omega

theorem dtabLookup_seed_some {c : Code} {p : Pattern} (h : dtabLookup c dtabSeed = some p) :
    ∃ b : Byte, p = [b] ∧ c = b.setWidth 16 := by
  by_cases hc : 256 ≤ c.toNat
  · rw [dtabLookup_seed_none hc] at h; exact absurd h (by simp)
  · have hcb : c = (c.setWidth 8).setWidth 16 := by
      apply BitVec.eq_of_toNat_eq
      simp only [BitVec.toNat_setWidth]
      omega
    rw [hcb, dtabLookup_seed] at h
    exact ⟨c.setWidth 8, (Option.some.inj h).symm, hcb⟩

@[simp] theorem length_etabSeed : etabSeed.length = 256 := by simp [etabSeed]

@[simp] theorem length_dtabSeed : dtabSeed.length = 256 := by simp [dtabSeed]

theorem etabSeed_rises : tableRises patternLt etabSeed := by
  refine List.pairwise_map.2 (List.Pairwise.imp_of_mem ?_ List.pairwise_lt_range)
  intro a b ha hb hab
  have ha : a < 256 := List.mem_range.1 ha
  have hb : b < 256 := List.mem_range.1 hb
  have hne : BitVec.ofNat 8 a ≠ BitVec.ofNat 8 b := fun e => by
    have := congrArg BitVec.toNat e
    simp only [BitVec.toNat_ofNat] at this
    omega
  simp only [patternLt, if_neg hne, decide_eq_true_eq, BitVec.toNat_ofNat]
  omega

theorem dtabSeed_rises : tableRises codeLt dtabSeed := by
  refine List.pairwise_map.2 (List.Pairwise.imp_of_mem ?_ List.pairwise_lt_range)
  intro a b ha hb hab
  have ha : a < 256 := List.mem_range.1 ha
  have hb : b < 256 := List.mem_range.1 hb
  simp only [codeLt, decide_eq_true_eq, BitVec.toNat_ofNat]
  omega

end Sys2Proof.Machine
end

