-- ==== Sys2Proof/Laws/Ops.lean ====
section
/-!
SUPPORT. One lemma per shared operation that says everything it can do; provers cite these instead of unfolding.
-/

namespace Sys2Proof.Machine

@[simp] theorem andThen_next (s : State) (f : State → Result) : andThen (.next s) f = f s := rfl
@[simp] theorem andThen_fault (x : Fault) (f : State → Result) : andThen (.fault x) f = .fault x := rfl
@[simp] theorem andThen_refused (x : Refusal) (f : State → Result) : andThen (.refused x) f = .refused x := rfl

/-- A sequence that ends in a next state passed through a next state. -/
theorem andThen_eq_next {r : Result} {f : State → Result} {t : State} (h : andThen r f = .next t) :
    ∃ s, r = .next s ∧ f s = .next t := by
  cases r with
  | next s => exact ⟨s, rfl, h⟩
  | fault x => cases h
  | refused x => cases h

@[simp] theorem acceptAll_nil (s : State) : acceptAll [] s = .next s := rfl
theorem acceptAll_cons (e : Event) (es : List Event) (s : State) :
    acceptAll (e :: es) s = andThen (acceptEvent e s) (acceptAll es) := rfl

theorem acceptAll_append (es fs : List Event) (s : State) :
    acceptAll (es ++ fs) s = andThen (acceptAll es s) (acceptAll fs) := by
  induction es generalizing s with
  | nil => rfl
  | cons e es ih =>
    rw [List.cons_append, acceptAll_cons, acceptAll_cons]
    cases acceptEvent e s with
    | next t => exact ih t
    | fault x => rfl
    | refused x => rfl

/-! ### Dispatch -/

theorem whenRunning_of_halted {s : State} (h : s.ctrl.halted = true) (rule : State → Result) :
    whenRunning s rule = .next s := by simp [whenRunning, h]

theorem whenRunning_of_running {s : State} (h : s.ctrl.halted = false) (rule : State → Result) :
    whenRunning s rule = rule s := by simp [whenRunning, h]

theorem whenEncoding_of_active {s : State} (h : s.ctrl.halted = false) (ha : s.enc.active = true) (i : Instr)
    (rule : State → Result) : whenEncoding i s rule = rule s := by simp [whenEncoding, whenRunning, h, ha]

theorem whenEncoding_of_idle {s : State} (h : s.ctrl.halted = false) (ha : s.enc.active = false) (i : Instr)
    (rule : State → Result) : whenEncoding i s rule = .next (takeFault .encSeq (wordOf i) s) := by
  simp [whenEncoding, whenRunning, h, ha]

theorem whenDecoding_of_active {s : State} (h : s.ctrl.halted = false) (ha : s.dec.active = true) (i : Instr)
    (rule : State → Result) : whenDecoding i s rule = rule s := by simp [whenDecoding, whenRunning, h, ha]

theorem whenDecoding_of_idle {s : State} (h : s.ctrl.halted = false) (ha : s.dec.active = false) (i : Instr)
    (rule : State → Result) : whenDecoding i s rule = .next (takeFault .decSeq (wordOf i) s) := by
  simp [whenDecoding, whenRunning, h, ha]

theorem causeCode_range (c : FaultCause) : 1 ≤ (causeCode c).toNat ∧ (causeCode c).toNat ≤ 5 := by
  cases c <;> decide

/-! ### bitlen and the width policy -/

/-- bitlen brackets its argument between two powers of two (R160 (g)). -/
theorem bitlen_bounds {n : Nat} (h : 0 < n) : 2 ^ (bitlen n - 1) ≤ n ∧ n < 2 ^ bitlen n := by
  have hn : n ≠ 0 := by omega
  rw [bitlen, if_neg hn, Nat.add_sub_cancel]
  exact ⟨Nat.log2_self_le hn, Nat.lt_log2_self⟩

theorem bitlen_unique {n w : Nat} (h1 : 2 ^ (w - 1) ≤ n) (h2 : n < 2 ^ w) (hw : 0 < w) : bitlen n = w := by
  have hn : n ≠ 0 := by have := Nat.two_pow_pos (w - 1); omega
  rw [bitlen, if_neg hn]
  have h3 : n.log2 = w - 1 := (Nat.log2_eq_iff hn).2 ⟨h1, by rwa [Nat.sub_add_cancel hw]⟩
  omega

theorem bitlen_mono {m n : Nat} (h : m ≤ n) : bitlen m ≤ bitlen n := by
  rcases Nat.eq_zero_or_pos m with rfl | hm
  · simp [bitlen]
  · have h1 := (bitlen_bounds hm).1
    have h2 := (bitlen_bounds (n := n) (by omega)).2
    have h3 := (Nat.pow_lt_pow_iff_right (a := 2) (by decide)).1 (lt_of_le_of_lt (h1.trans h) h2)
    omega

/-- The growth of a counter by one raises its bitlen by at most one, and exactly when the new value reaches the power. -/
theorem bitlen_succ {n : Nat} (h : 0 < n) :
    bitlen (n + 1) = if 2 ^ bitlen n ≤ n + 1 then bitlen n + 1 else bitlen n := by
  obtain ⟨h1, h2⟩ := bitlen_bounds h
  have hpos : 0 < bitlen n := by rw [bitlen, if_neg (by omega)]; omega
  split_ifs with hc
  · exact bitlen_unique (by simpa using hc) (by rw [pow_succ]; omega) (by omega)
  · exact bitlen_unique (by omega) (by omega) hpos

theorem bitlen_256 : bitlen 256 = 9 := by decide

theorem bitlen_range {n : Nat} (h1 : 256 ≤ n) (h2 : n ≤ 65536) : 9 ≤ bitlen n ∧ bitlen n ≤ 17 :=
  ⟨bitlen_256 ▸ bitlen_mono h1, (bitlen_mono h2).trans (by decide)⟩

theorem bitlen_le_16 {n : Nat} (h : n ≤ 65535) : bitlen n ≤ 16 := (bitlen_mono h).trans (by decide)

/-- record_growth_E as numbers, below the counter's last value. -/
theorem recordGrowthE_toNat {e : Enc} (hc : e.count.toNat < 2 ^ 17 - 1) (hw : e.width.toNat < 31) :
    (recordGrowthE e).count.toNat = e.count.toNat + 1 ∧
      (recordGrowthE e).width.toNat =
        if 2 ^ e.width.toNat ≤ e.count.toNat + 1 then e.width.toNat + 1 else e.width.toNat := by
  have h1 : (e.count + 1).toNat = e.count.toNat + 1 := by rw [BitVec.toNat_add]; simp; omega
  refine ⟨h1, ?_⟩
  simp only [recordGrowthE, h1]
  split_ifs
  · rw [BitVec.toNat_add]; simp; omega
  · rfl

/-- record_growth_D as numbers, below the counter's last value. -/
theorem recordGrowthD_toNat {d : Dec} (hc : d.count.toNat < 2 ^ 17 - 1) (hw : d.width.toNat < 31) :
    (recordGrowthD d).count.toNat = d.count.toNat + 1 ∧
      (recordGrowthD d).width.toNat =
        if 2 ^ d.width.toNat ≤ d.count.toNat + 1 then d.width.toNat + 1 else d.width.toNat := by
  have h1 : (d.count + 1).toNat = d.count.toNat + 1 := by rw [BitVec.toNat_add]; simp; omega
  refine ⟨h1, ?_⟩
  simp only [recordGrowthD, h1]
  split_ifs
  · rw [BitVec.toNat_add]; simp; omega
  · rfl

/-! ### Packer -/

/-- PK_CODE loses no bit: what was pending and the code's bits are the bytes appended and what is pending now. -/
theorem packCode_bits (v : Code) (w : Nat) (e : Enc) :
    ∃ bytes, (packCode v w e).out = e.out ++ bytes ∧
      bytes.flatMap (bitsOf Config.fill) ++ (packCode v w e).pkBits = e.pkBits ++ msbFirst v w ∧
      (packCode v w e).pkBits.length < 8 :=
  ⟨_, rfl, drainBytes_bits _ _ _, drainBytes_rest_lt _ _ _ le_rfl⟩

theorem packCode_pending_lt (v : Code) (w : Nat) (e : Enc) : (packCode v w e).pkBits.length < 8 :=
  drainBytes_rest_lt _ _ _ le_rfl

/-! ### Encoder -/

/-- What a table insert and the growth after it can do: the table, the count and perhaps the width rise by one entry, or
nothing changes; which one is the cap's word (R402, R452). -/
theorem insertAndGrow_cases (p : Pattern) (e : Enc) :
    (e.count.toNat < e.cap.toNat ∧
      insertAndGrow p e = recordGrowthE { e with table := etabBind p (e.count.setWidth 16) e.table }) ∨
    (e.cap.toNat ≤ e.count.toNat ∧ insertAndGrow p e = e) := by
  unfold insertAndGrow etabInsert
  split_ifs with h
  · exact .inl ⟨h, rfl⟩
  · exact .inr ⟨by omega, rfl⟩

@[simp] theorem insertAndGrow_active (p : Pattern) (e : Enc) : (insertAndGrow p e).active = e.active := by
  rcases insertAndGrow_cases p e with ⟨_, h⟩ | ⟨_, h⟩ <;> simp [h]
@[simp] theorem insertAndGrow_cap (p : Pattern) (e : Enc) : (insertAndGrow p e).cap = e.cap := by
  rcases insertAndGrow_cases p e with ⟨_, h⟩ | ⟨_, h⟩ <;> simp [h]
@[simp] theorem insertAndGrow_pattern (p : Pattern) (e : Enc) : (insertAndGrow p e).pattern = e.pattern := by
  rcases insertAndGrow_cases p e with ⟨_, h⟩ | ⟨_, h⟩ <;> simp [h]
@[simp] theorem insertAndGrow_pkBits (p : Pattern) (e : Enc) : (insertAndGrow p e).pkBits = e.pkBits := by
  rcases insertAndGrow_cases p e with ⟨_, h⟩ | ⟨_, h⟩ <;> simp [h]
@[simp] theorem insertAndGrow_out (p : Pattern) (e : Enc) : (insertAndGrow p e).out = e.out := by
  rcases insertAndGrow_cases p e with ⟨_, h⟩ | ⟨_, h⟩ <;> simp [h]

/-- The two ways ENC_SYM's body completes (R620): the candidate hits, or it misses and the current pattern's code goes
out. -/
theorem encodeSymbol_cases {sym : Byte} {e e' : Enc} (h : encodeSymbol sym e = some e') :
    (∃ c, etabLookup (e.pattern ++ [sym]) e.table = some c ∧ e' = { e with pattern := e.pattern ++ [sym] }) ∨
    (∃ c, etabLookup (e.pattern ++ [sym]) e.table = none ∧ etabLookup e.pattern e.table = some c ∧
      e' = encodeMiss sym c e) := by
  unfold encodeSymbol at h
  split at h
  · next c hc => exact .inl ⟨c, hc, (Option.some.inj h).symm⟩
  · next hn =>
    obtain ⟨c, hc, rfl⟩ := Option.map_eq_some_iff.1 h
    exact .inr ⟨c, hn, hc, rfl⟩

/-- The three ways ENC_END's final code goes (R630, R640). -/
theorem encodeFinal_cases (e : Enc) :
    (e.pattern = [] ∧ encodeFinal e = e) ∨
    (∃ c, e.pattern ≠ [] ∧ etabLookup e.pattern e.table = some c ∧ encodeFinal e = packCode c e.width.toNat e) ∨
    (e.pattern ≠ [] ∧ etabLookup e.pattern e.table = none ∧ encodeFinal e = e) := by
  unfold encodeFinal
  split
  · next h => exact .inl ⟨h, rfl⟩
  · next c h hc => exact .inr (.inl ⟨c, by simp [h], hc, rfl⟩)
  · next h hc => exact .inr (.inr ⟨by simp [h], hc, rfl⟩)

@[simp] theorem endEncoder_cap (e : Enc) : (endEncoder e).cap = e.cap := by
  rcases encodeFinal_cases e with ⟨_, h⟩ | ⟨_, _, _, h⟩ | ⟨_, _, h⟩ <;> simp [endEncoder, h]
@[simp] theorem endEncoder_table (e : Enc) : (endEncoder e).table = e.table := by
  rcases encodeFinal_cases e with ⟨_, h⟩ | ⟨_, _, _, h⟩ | ⟨_, _, h⟩ <;> simp [endEncoder, h]
@[simp] theorem endEncoder_count (e : Enc) : (endEncoder e).count = e.count := by
  rcases encodeFinal_cases e with ⟨_, h⟩ | ⟨_, _, _, h⟩ | ⟨_, _, h⟩ <;> simp [endEncoder, h]
@[simp] theorem endEncoder_width (e : Enc) : (endEncoder e).width = e.width := by
  rcases encodeFinal_cases e with ⟨_, h⟩ | ⟨_, _, _, h⟩ | ⟨_, _, h⟩ <;> simp [endEncoder, h]

/-! ### Decoder -/

/-- Everything step 4 of DEC_BYTE can do (R710). -/
theorem insertNext_cases (e : Pattern) (d : Dec) :
    (d.prev = [] ∧ insertNext e d = .done d) ∨
    (d.prev ≠ [] ∧ e = [] ∧ insertNext e d = .stuck .decPatternEmpty) ∨
    (∃ e0 t c, d.prev ≠ [] ∧ e = e0 :: t ∧ slotOf d.next = some c ∧
      insertNext e d = .done { d with table := dtabInsert c (d.prev ++ [e0]) d.table, next := d.next + 1 }) ∨
    (d.prev ≠ [] ∧ e ≠ [] ∧ slotOf d.next = none ∧ insertNext e d = .stuck .dtabNoSlot) := by
  unfold insertNext
  split
  · next h => exact .inl ⟨h, rfl⟩
  · next h => exact .inr (.inl ⟨by simp [h], rfl, rfl⟩)
  · next p0 pt e0 t h =>
    have hp : d.prev ≠ [] := by simp [h]
    rcases hs : slotOf d.next with _ | c
    · exact .inr (.inr (.inr ⟨hp, by simp, rfl, rfl⟩))
    · exact .inr (.inr (.inl ⟨e0, t, c, hp, rfl, rfl, rfl⟩))

/-- Delivering a pattern that has a first symbol, where `dec_next` names a slot, completes (R710 steps 3 to 6). -/
theorem deliver_done {e : Pattern} {d : Dec} (he : e ≠ []) (hn : d.next.toNat < 65536) :
    deliver e d = .done (recordGrowthD
      { d with
        out := d.out ++ e
        table := if d.prev = [] then d.table
          else dtabInsert (d.next.setWidth 16) (d.prev ++ e.take 1) d.table
        next := if d.prev = [] then d.next else d.next + 1
        prev := e }) := by
  obtain ⟨e0, t, rfl⟩ := List.exists_cons_of_ne_nil he
  unfold deliver
  rcases insertNext_cases (e0 :: t) { d with out := d.out ++ (e0 :: t) } with
    ⟨hp, h⟩ | ⟨_, hx, _⟩ | ⟨e0', t', c, hp, hx, hs, h⟩ | ⟨_, _, hs, _⟩
  · have hp : d.prev = [] := hp
    rw [h]
    simp [hp]
  · exact absurd hx he
  · obtain ⟨rfl, rfl⟩ := List.cons.inj hx
    have hp : d.prev ≠ [] := hp
    have hs' : c = d.next.setWidth 16 := by
      have := slotOf_of_lt hn
      exact Option.some.inj (hs.symm.trans this)
    rw [h]
    simp [hp, hs']
  · have := slotOf_of_lt hn
    exact absurd (hs.symm.trans this) (by simp)

/-- The three paths of the input demux (R740). -/
theorem routeCode_cases (c : Code) (d : Dec) :
    (∃ e, dtabLookup c d.table = some e ∧ routeCode c d = deliver e d) ∨
    (∃ p0 pt, dtabLookup c d.table = none ∧ d.prev = p0 :: pt ∧ c.toNat = d.next.toNat ∧
      routeCode c d =
        deliver (d.prev ++ [p0]) { d with table := dtabInsert c (d.prev ++ [p0]) d.table }) ∨
    (dtabLookup c d.table = none ∧ (c.toNat ≠ d.next.toNat ∨ d.prev = []) ∧ routeCode c d = .trap .decBadCode) := by
  unfold routeCode
  split
  · next e he => exact .inl ⟨e, he, rfl⟩
  · next hn =>
    split
    · next hp => exact .inr (.inr ⟨hn, .inr hp, rfl⟩)
    · next p0 pt hp =>
      split_ifs with hc
      · exact .inr (.inl ⟨p0, pt, hn, hp, hc, by rw [hp]⟩)
      · exact .inr (.inr ⟨hn, .inl hc, rfl⟩)

/-- The three courses of DEC_BYTE's body (R710, R713): not enough bits yet, a width that cannot be read, a code. -/
theorem decodeByte_cases (b : Byte) (d : Dec) :
    (d.upBits.length + 8 < d.width.toNat ∧ decodeByte b d = .done (unpackPush b d)) ∨
    (d.width.toNat ≤ d.upBits.length + 8 ∧ 16 < d.width.toNat ∧ decodeByte b d = .trap .decWidth) ∨
    (d.width.toNat ≤ d.upBits.length + 8 ∧ d.width.toNat ≤ 16 ∧
      decodeByte b d = routeCode (codeOf ((d.upBits ++ bitsOf Config.fill b).take d.width.toNat))
        { d with upBits := (d.upBits ++ bitsOf Config.fill b).drop d.width.toNat }) := by
  have hlen : (unpackPush b d).upBits.length = d.upBits.length + 8 := by simp
  unfold decodeByte
  rw [hlen]
  split_ifs with h1 h2
  · exact .inl ⟨h1, rfl⟩
  · exact .inr (.inl ⟨by omega, h2, rfl⟩)
  · refine .inr (.inr ⟨by omega, Nat.le_of_not_lt h2, ?_⟩)
    rw [unpackTake, if_neg (by rw [hlen]; exact h1)]
    rfl

/-! ### Unpacker -/

/-- The legal UP_TAKE words, in the words of R313. -/
theorem takeInRange_iff {w : BitVec 5} {pending : Bits} :
    takeInRange w pending = true ↔ (9 ≤ w.toNat ∧ w.toNat ≤ 16) ∧ w.toNat ≤ pending.length := by
  simp [takeInRange, widthInRange]

/-- A legal UP_TAKE takes its bits and answers their code (R560). -/
theorem execUpTake_of_legal {w : BitVec 5} {s : State} (h : takeInRange w s.dec.upBits = true) :
    execUpTake w s = .next { s with
      dec := { s.dec with upBits := s.dec.upBits.drop w.toNat }
      ports := { s.ports with
        takeAnswers := s.ports.takeAnswers ++ [takeAnswer (some (codeOf (s.dec.upBits.take w.toNat)))] } } := by
  rw [execUpTake, if_pos h, unpackTake, if_neg (by have := (takeInRange_iff.1 h).2; omega)]

/-- Every other UP_TAKE is refused (R313). -/
theorem execUpTake_of_illegal {w : BitVec 5} {s : State} (h : takeInRange w s.dec.upBits ≠ true) :
    execUpTake w s = .refused .unpackerWordNotLegal := by
  rw [execUpTake, if_neg h]

/-- With too few bits the operation's response is OK = 0 and VALUE = 0, and nothing is taken (R560, V-U3). -/
theorem unpackTake_of_short {w : Nat} {d : Dec} (h : d.upBits.length < w) : unpackTake w d = (none, d) := by
  rw [unpackTake, if_pos h]

/-! ### Words and events -/

/-- A step accepts the oldest event (R230). -/
theorem step_of_event {s : State} {e : Event} {rest : List Event} (h : s.ports.input = e :: rest) :
    step s = acceptEvent e { s with ports.input := rest } := by
  simp [step, runNext, nextEvent, h]

/-- With no event waiting a step changes nothing (R944). -/
theorem step_of_no_event {s : State} (h : s.ports.input = []) : step s = .next s := by
  simp [step, runNext, nextEvent, h]

/-- Marking the quotations of a line changes no character. -/
@[simp] theorem quoted_map_fst (text : Bool) (cs : List Char) : (quoted text cs).map Prod.fst = cs := by
  induction text, cs using quoted.induct <;> simp_all [quoted]

end Sys2Proof.Machine
end

