-- ==== Sys2Proof/Laws/Accept.lean ====
section
/-!
SUPPORT. Words, events and steps: which instruction a word runs, what is dropped while halted, and that the events not
yet accepted neither change what an event does nor are changed by it.
-/

namespace Sys2Proof.Machine

/-- A word that decodes is run. -/
theorem acceptWord_of_decode {p : PortWord} {i : Instr} (h : decode p = .ok i) (s : State) :
    acceptWord p s = exec i s := by
  rw [acceptWord, h]

/-- A word that does not decode is rejected. -/
theorem acceptWord_of_reject {p : PortWord} {r : Reject} (h : decode p = .error r) (s : State) :
    acceptWord p s = rejectWord p s := by
  rw [acceptWord, h]

/-- A halted block drops every command (R911). -/
theorem exec_of_halted {i : Instr} {w : CmdWord} (hi : encode i = .command w) {s : State}
    (h : s.ctrl.halted = true) : exec i s = .next s := by
  have key : ∀ rule : State → Result, whenRunning s rule = .next s := whenRunning_of_halted h
  cases i with
  | setCap v => rw [exec, execSetCap]; exact key _
  | encStart => rw [exec, execEncStart]; exact key _
  | encSym x => rw [exec, execEncSym, whenEncoding]; exact key _
  | encEnd => rw [exec, execEncEnd, whenEncoding]; exact key _
  | decStart => rw [exec, execDecStart]; exact key _
  | decByte b => rw [exec, execDecByte, whenDecoding]; exact key _
  | decEnd => rw [exec, execDecEnd, whenDecoding]; exact key _
  | pkCode v w => cases hi
  | pkFlush => cases hi
  | upPush b => cases hi
  | upTake w => cases hi
  | upDrop => cases hi
  | csrRead a => cases hi

/-- The state with other events waiting. -/
def withInput (es : List Event) (s : State) : State := { s with ports := { s.ports with input := es } }

/-- A result with its next state changed. -/
def mapNext (f : State → State) : Result → Result
  | .next s => .next (f s)
  | .fault x => .fault x
  | .refused x => .refused x

@[simp] theorem mapNext_next (f : State → State) (s : State) : mapNext f (.next s) = .next (f s) := rfl
@[simp] theorem mapNext_fault (f : State → State) (x : Fault) : mapNext f (.fault x) = .fault x := rfl
@[simp] theorem mapNext_refused (f : State → State) (x : Refusal) : mapNext f (.refused x) = .refused x := rfl

@[simp] theorem withInput_ctrl (es : List Event) (s : State) : (withInput es s).ctrl = s.ctrl := rfl
@[simp] theorem withInput_enc (es : List Event) (s : State) : (withInput es s).enc = s.enc := rfl
@[simp] theorem withInput_dec (es : List Event) (s : State) : (withInput es s).dec = s.dec := rfl

theorem whenRunning_withInput (es : List Event) (s : State) {f : State → Result}
    (hf : f (withInput es s) = mapNext (withInput es) (f s)) :
    whenRunning (withInput es s) f = mapNext (withInput es) (whenRunning s f) := by
  rw [whenRunning, whenRunning, withInput_ctrl]
  split_ifs
  · rfl
  · exact hf

/-- The events waiting do not change what an instruction does, and it does not change them. -/
theorem exec_withInput (es : List Event) (i : Instr) (s : State) :
    exec i (withInput es s) = mapNext (withInput es) (exec i s) := by
  have key := fun f : State → Result => whenRunning_withInput es s (f := f)
  cases i with
  | setCap v => rw [exec, exec, execSetCap, execSetCap]; exact key _ rfl
  | encStart => rw [exec, exec, execEncStart, execEncStart]; exact key _ rfl
  | decStart => rw [exec, exec, execDecStart, execDecStart]; exact key _ rfl
  | encSym x =>
    simp only [exec, execEncSym, whenEncoding]
    refine key _ ?_
    by_cases h : s.enc.active = true
    · rw [if_pos (withInput_enc es s ▸ h), if_pos h]
      rw [withInput_enc]
      cases encodeSymbol x s.enc <;> rfl
    · rw [if_neg (withInput_enc es s ▸ h), if_neg h]; rfl
  | encEnd =>
    simp only [exec, execEncEnd, whenEncoding]
    refine key _ ?_
    by_cases h : s.enc.active = true
    · rw [if_pos (withInput_enc es s ▸ h), if_pos h]; rfl
    · rw [if_neg (withInput_enc es s ▸ h), if_neg h]; rfl
  | decByte b =>
    simp only [exec, execDecByte, whenDecoding]
    refine key _ ?_
    by_cases h : s.dec.active = true
    · rw [if_pos (withInput_dec es s ▸ h), if_pos h]
      rw [withInput_dec]
      cases decodeByte b s.dec <;> rfl
    · rw [if_neg (withInput_dec es s ▸ h), if_neg h]; rfl
  | decEnd =>
    simp only [exec, execDecEnd, whenDecoding]
    refine key _ ?_
    by_cases h : s.dec.active = true
    · rw [if_pos (withInput_dec es s ▸ h), if_pos h]; rfl
    · rw [if_neg (withInput_dec es s ▸ h), if_neg h]; rfl
  | pkCode v w =>
    simp only [exec, execPkCode]
    split_ifs <;> rfl
  | pkFlush => rfl
  | upPush b => rfl
  | upTake w =>
    rw [exec, exec]
    by_cases h : takeInRange w s.dec.upBits = true
    · rw [execUpTake_of_legal h, execUpTake_of_legal (s := withInput es s) h]; rfl
    · rw [execUpTake_of_illegal h, execUpTake_of_illegal (s := withInput es s) h]; rfl
  | upDrop => rfl
  | csrRead a => rfl

/-- The same of an event: it neither sees nor changes the events behind it. -/
theorem acceptEvent_withInput (es : List Event) (e : Event) (s : State) :
    acceptEvent e (withInput es s) = mapNext (withInput es) (acceptEvent e s) := by
  cases e with
  | reset ws => rfl
  | word p =>
    simp only [acceptEvent, acceptWord]
    split
    · exact exec_withInput es _ s
    · cases p with
      | command w => exact whenRunning_withInput es s (f := fun s => .next (takeFault .illegal w s)) rfl
      | packer w => rfl
      | unpacker w => rfl
      | csr a => rfl

end Sys2Proof.Machine
end

