-- ==== Sys2Proof/Laws/Encoding.lean ====
section
/-!
SUPPORT. The fields of the words of 30_encoding.md: what is put into a word is what is read out of it, and a word is put
together again from its fields.
-/

namespace Sys2Proof

theorem toNat_append_eq {m n : Nat} (x : BitVec m) (y : BitVec n) : (x ++ y).toNat = x.toNat * 2 ^ n + y.toNat := by
  rw [BitVec.toNat_append, ← Nat.shiftLeft_add_eq_or_of_lt y.isLt, Nat.shiftLeft_eq]

theorem toNat_extract_eq {n : Nat} (w : BitVec n) (lo len : Nat) :
    (w.extractLsb' lo len).toNat = w.toNat / 2 ^ lo % 2 ^ len := by
  rw [BitVec.extractLsb'_toNat, Nat.shiftRight_eq_div_pow]

/-! ### Command words (R300) -/

theorem toNat_commandWord (op : BitVec 4) (imm : BitVec 16) :
    (commandWord op imm).toNat = op.toNat * 2 ^ 28 + imm.toNat := by
  rw [commandWord, toNat_append_eq, toNat_append_eq]
  simp
  ring

theorem opField_commandWord (op : BitVec 4) (imm : BitVec 16) : opField (commandWord op imm) = op := by
  apply BitVec.eq_of_toNat_eq
  rw [opField, toNat_extract_eq, toNat_commandWord]
  omega

theorem rsvField_commandWord (op : BitVec 4) (imm : BitVec 16) : rsvField (commandWord op imm) = 0 := by
  apply BitVec.eq_of_toNat_eq
  rw [rsvField, toNat_extract_eq, toNat_commandWord]
  simp
  omega

theorem immField_commandWord (op : BitVec 4) (imm : BitVec 16) : immField (commandWord op imm) = imm := by
  apply BitVec.eq_of_toNat_eq
  rw [immField, toNat_extract_eq, toNat_commandWord]
  omega

/-- A word whose RSV is 0 is its OP and its IMM. -/
theorem commandWord_fields {w : CmdWord} (h : rsvField w = 0) : commandWord (opField w) (immField w) = w := by
  apply BitVec.eq_of_toNat_eq
  have h := congrArg BitVec.toNat h
  rw [rsvField, toNat_extract_eq] at h
  rw [toNat_commandWord, opField, immField, toNat_extract_eq, toNat_extract_eq]
  simp at h
  omega

theorem byteImm_high (b : Byte) : (byteImm b).extractLsb' 8 8 = 0 := by
  apply BitVec.eq_of_toNat_eq
  rw [toNat_extract_eq, byteImm, toNat_append_eq]
  simp
  omega

theorem byteImm_low (b : Byte) : (byteImm b).extractLsb' 0 8 = b := by
  apply BitVec.eq_of_toNat_eq
  have h := b.isLt
  rw [toNat_extract_eq, byteImm, toNat_append_eq]
  simp
  omega

/-- An IMM whose high byte is 0 is its low byte. -/
theorem byteImm_fields {imm : BitVec 16} (h : imm.extractLsb' 8 8 = 0) : byteImm (imm.extractLsb' 0 8) = imm := by
  apply BitVec.eq_of_toNat_eq
  have h := congrArg BitVec.toNat h
  rw [toNat_extract_eq] at h
  rw [byteImm, toNat_append_eq, toNat_extract_eq]
  simp at h
  simp
  omega

/-! ### Packer channel words (R310) -/

theorem toNat_packerWord (k : Bool) (w : BitVec 5) (v : Code) :
    (packerWord k w v).toNat = k.toNat * 2 ^ 21 + w.toNat * 2 ^ 16 + v.toNat := by
  rw [packerWord, toNat_append_eq, toNat_append_eq, BitVec.toNat_ofBool]
  ring

theorem packerWord_kind (k : Bool) (w : BitVec 5) (v : Code) : (packerWord k w v).getLsbD 21 = k := by
  rw [← BitVec.testBit_toNat, toNat_packerWord, Nat.testBit_eq_decide_div_mod_eq]
  have h1 : (k.toNat * 2 ^ 21 + w.toNat * 2 ^ 16 + v.toNat) / 2 ^ 21 = k.toNat := by omega
  rw [h1]
  cases k <;> rfl

theorem packerWord_width (k : Bool) (w : BitVec 5) (v : Code) : (packerWord k w v).extractLsb' 16 5 = w := by
  apply BitVec.eq_of_toNat_eq
  rw [toNat_extract_eq, toNat_packerWord]
  omega

theorem packerWord_value (k : Bool) (w : BitVec 5) (v : Code) : (packerWord k w v).extractLsb' 0 16 = v := by
  apply BitVec.eq_of_toNat_eq
  rw [toNat_extract_eq, toNat_packerWord]
  omega

/-- A packer word is its three fields. -/
theorem packerWord_fields (w : BitVec 22) :
    packerWord (w.getLsbD 21) (w.extractLsb' 16 5) (w.extractLsb' 0 16) = w := by
  apply BitVec.eq_of_toNat_eq
  have h := w.isLt
  rw [toNat_packerWord, toNat_extract_eq, toNat_extract_eq, ← BitVec.testBit_toNat, Nat.testBit_eq_decide_div_mod_eq]
  by_cases hb : w.toNat / 2 ^ 21 % 2 = 1
  · simp only [hb, decide_true, Bool.toNat_true]; omega
  · simp only [hb, decide_false, Bool.toNat_false]; omega

/-! ### Unpacker channel words (R312) -/

theorem toNat_unpackerWord (uop : BitVec 2) (w : BitVec 5) (b : Byte) :
    (unpackerWord uop w b).toNat = uop.toNat * 2 ^ 22 + w.toNat * 2 ^ 16 + b.toNat := by
  rw [unpackerWord, toNat_append_eq, toNat_append_eq, toNat_append_eq, toNat_append_eq]
  simp
  ring

theorem unpackerWord_uop (uop : BitVec 2) (w : BitVec 5) (b : Byte) :
    (unpackerWord uop w b).extractLsb' 22 2 = uop := by
  apply BitVec.eq_of_toNat_eq
  rw [toNat_extract_eq, toNat_unpackerWord]
  omega

/-- An unpacker word with its reserved bits 0 is its three fields. -/
theorem unpackerWord_fields {w : BitVec 24} (h1 : w.getLsbD 21 = false) (h2 : w.extractLsb' 8 8 = 0) :
    unpackerWord (w.extractLsb' 22 2) (w.extractLsb' 16 5) (w.extractLsb' 0 8) = w := by
  apply BitVec.eq_of_toNat_eq
  have h := w.isLt
  have h2 := congrArg BitVec.toNat h2
  rw [toNat_extract_eq] at h2
  rw [← BitVec.testBit_toNat, Nat.testBit_eq_decide_div_mod_eq] at h1
  have h1 : ¬ w.toNat / 2 ^ 21 % 2 = 1 := of_decide_eq_false h1
  rw [toNat_unpackerWord, toNat_extract_eq, toNat_extract_eq, toNat_extract_eq]
  simp at h2
  omega

end Sys2Proof
end

