-- ==== Sys2Proof/Laws/Invariant.lean ====
section
/-!
SUPPORT. The invariants of 10_state.md R160 to R162, operation by operation: each one keeps what it touches.
-/

namespace Sys2Proof.Machine

/-- A freshly seeded encoder meets the invariant (R610, R150). -/
theorem encInv_seeded {e : Enc} (ht : e.table = etabSeed) (hc : e.count = 256) (hw : e.width = 9)
    (hp : e.pattern = []) (hb : e.pkBits = []) : EncInv e := by
  constructor
  · rw [ht]; exact etabSeed_rises
  · rw [ht, hc]; simp
  · intro p c h
    rw [ht] at h
    obtain ⟨b, rfl, rfl⟩ := etabLookup_seed_some h
    rw [hc, BitVec.toNat_setWidth]
    have := b.isLt
    simp; omega
  · intro c h
    rw [hc] at h
    refine ⟨[c.setWidth 8], ?_⟩
    rw [ht, etabLookup_seed]
    congr 1
    apply BitVec.eq_of_toNat_eq
    simp only [BitVec.toNat_setWidth]
    simp at h
    omega
  · intro p q c h1 h2
    rw [ht] at h1 h2
    obtain ⟨b, rfl, rfl⟩ := etabLookup_seed_some h1
    obtain ⟨b', rfl, hb'⟩ := etabLookup_seed_some h2
    congr 1
    apply BitVec.eq_of_toNat_eq
    have := congrArg BitVec.toNat hb'
    simp only [BitVec.toNat_setWidth] at this
    have := b.isLt
    have := b'.isLt
    omega
  · intro b; rw [ht]; exact etabLookup_seed b
  · rw [ht]; exact etabLookup_seed_none (by simp)
  · intro p x c hp h
    rw [ht] at h
    obtain ⟨b, hb, _⟩ := etabLookup_seed_some h
    have h1 := congrArg List.length hb
    have h2 := List.length_pos_iff.2 hp
    rw [List.length_append, List.length_singleton, List.length_singleton] at h1
    omega
  · intro p c h
    rw [ht] at h
    obtain ⟨b, rfl, _⟩ := etabLookup_seed_some h
    simp
  · exact .inl hp
  · rw [hc]; decide
  · rw [hc]; exact le_max_left _ _
  · rw [hc, hw]; decide
  · rw [hb]; simp
  · intro _; exact ⟨hp, hb⟩

/-- The insert after a miss, with its growth, keeps the invariant (R402, R452, R620). -/
theorem encInv_insert {e : Enc} (h : EncInv e) {p : Pattern} {sym : Byte} {c : Code}
    (hp : etabLookup p e.table = some c) (hm : etabLookup (p ++ [sym]) e.table = none) (he : e.pattern = [sym]) (hact : e.active = true):
    EncInv (insertAndGrow (p ++ [sym]) e) := by
  rcases insertAndGrow_cases (p ++ [sym]) e with ⟨hlt, hi⟩ | ⟨_, hi⟩
  swap
  · rw [hi]; exact h
  have hcap := e.cap.isLt
  have hcnt : e.count.toNat < 65535 := by omega
  have h256 := h.seeded
  have hw16 := bitlen_le_16 (n := e.count.toNat) (by omega)
  have hwe := h.width
  obtain ⟨hc1, hw1⟩ := recordGrowthE_toNat (e := { e with table := etabBind (p ++ [sym]) (e.count.setWidth 16) e.table })
    (by simp only; omega) (by simp only; omega)
  simp only at hc1 hw1
  have hset : (e.count.setWidth 16 : Code).toNat = e.count.toNat := by
    rw [BitVec.toNat_setWidth]; omega
  have hcl := h.bounded p c hp
  have hpne : p ≠ [] := by
    rintro rfl
    rw [h.nonEmpty] at hp
    simp at hp
  rw [hi]
  constructor
  · exact etabBind_rises _ _ h.rises
  · rw [hc1]
    simp only [recordGrowthE_table]
    rw [length_etabBind _ hm, h.entries]
  · intro q c' hq
    rw [hc1]
    simp only [recordGrowthE_table, etabLookup_etabBind] at hq
    split_ifs at hq
    · rw [← Option.some.inj hq, hset]; omega
    · have := h.bounded q c' hq; omega
  · intro c' hc'
    rw [hc1] at hc'
    simp only [recordGrowthE_table, etabLookup_etabBind]
    by_cases hcc : c'.toNat = e.count.toNat
    · refine ⟨p ++ [sym], ?_⟩
      rw [if_pos rfl]
      congr 1
      exact BitVec.eq_of_toNat_eq (by omega)
    · obtain ⟨q, hq⟩ := h.assigned c' (by omega)
      refine ⟨q, ?_⟩
      rw [if_neg (by rintro rfl; rw [hm] at hq; simp at hq), hq]
  · intro q r c' hq hr
    simp only [recordGrowthE_table, etabLookup_etabBind] at hq hr
    split_ifs at hq hr with h1 h2 h3
    · rw [h1, h2]
    · have := h.bounded r c' hr
      rw [← Option.some.inj hq, hset] at this; omega
    · have := h.bounded q c' hq
      rw [← Option.some.inj hr, hset] at this; omega
    · exact h.unique q r c' hq hr
  · intro b
    simp only [recordGrowthE_table, etabLookup_etabBind]
    rw [if_neg (by rintro h1; rw [← h1, h.seeds] at hm; simp at hm), h.seeds]
  · simp only [recordGrowthE_table, etabLookup_etabBind]
    rw [if_neg (by simp), h.nonEmpty]
  · intro q x c' hq hl
    simp only [recordGrowthE_table, etabLookup_etabBind] at hl ⊢
    split_ifs at hl with h1
    · obtain ⟨rfl, _⟩ := List.append_inj' h1 rfl
      refine ⟨c, ?_, ?_⟩
      · rw [if_neg (by simp), hp]
      · rw [← Option.some.inj hl, hset]; exact hcl
    · obtain ⟨c'', h2, h3⟩ := h.prefixes q x c' hq hl
      refine ⟨c'', ?_, h3⟩
      rw [if_neg (by rintro rfl; rw [hm] at h2; simp at h2), h2]
  · intro q c' hq
    simp only [recordGrowthE_table, etabLookup_etabBind] at hq
    split_ifs at hq with h1
    · rw [← Option.some.inj hq, hset, h1]
      have := h.lengths p c hp
      simp only [List.length_append, List.length_singleton]
      omega
    · exact h.lengths q c' hq
  · right
    simp only [recordGrowthE_pattern, recordGrowthE_table, he, etabLookup_etabBind]
    rw [if_neg (by rintro h1; rw [← h1, h.seeds] at hm; simp at hm)]
    exact ⟨_, h.seeds sym⟩
  · rw [hc1]; omega
  · rw [hc1]; simp only [recordGrowthE_cap]; omega
  · rw [hc1, hw1, bitlen_succ (by omega), hwe]
  · exact h.pending
  · intro ha; simp [hact] at ha

/-- Sending a code keeps the invariant (R500, R162). -/
theorem encInv_packCode {e : Enc} (h : EncInv e) (hact : e.active = true) (v : Code) (w : Nat) : EncInv (packCode v w e) := by
  have := packCode_pending_lt v w e
  exact ⟨h.rises, h.entries, h.bounded, h.assigned, h.unique, h.seeds, h.nonEmpty, h.prefixes, h.lengths, h.current,
    h.seeded, h.capped, h.width, by omega, fun ha => by simp [hact] at ha⟩

/-- A current pattern that ETAB binds keeps the invariant (R160 (e)). -/
theorem encInv_pattern {e : Enc} (h : EncInv e) (hact : e.active = true) {p : Pattern} (hp : ∃ c, etabLookup p e.table = some c) :
    EncInv { e with pattern := p } :=
  ⟨h.rises, h.entries, h.bounded, h.assigned, h.unique, h.seeds, h.nonEmpty, h.prefixes, h.lengths, .inr hp,
    h.seeded, h.capped, h.width, h.pending, fun ha => by simp [hact] at ha⟩

/-- The body of ENC_SYM always completes and keeps the invariant (R620 (b)). -/
theorem encInv_encodeSymbol {sym : Byte} {e : Enc} (h : EncInv e) (ha : e.active = true) :
    ∃ e', encodeSymbol sym e = some e' ∧ EncInv e' ∧ e'.active = true := by
  have hex : ∃ e', encodeSymbol sym e = some e' := by
    unfold encodeSymbol
    split
    · exact ⟨_, rfl⟩
    · next hn =>
      rcases h.current with hp | ⟨c, hc⟩
      · rw [hp, List.nil_append, h.seeds] at hn; simp at hn
      · exact ⟨_, by rw [hc]; rfl⟩
  obtain ⟨e', he'⟩ := hex
  refine ⟨e', he', ?_⟩
  rcases encodeSymbol_cases he' with ⟨c, hc, rfl⟩ | ⟨c, hn, hc, rfl⟩
  · exact ⟨encInv_pattern h ha ⟨c, hc⟩, ha⟩
  · refine ⟨?_, by simp [encodeMiss, ha]⟩
    exact encInv_insert (encInv_pattern (encInv_packCode h ha c _) ha ⟨_, h.seeds sym⟩) hc hn rfl ha

/-- The body of ENC_END keeps the invariant (R630). -/
theorem encInv_endEncoder {e : Enc} (h : EncInv e) : EncInv (endEncoder e) := by
  refine ⟨?_, ?_, ?_, ?_, ?_, ?_, ?_, ?_, ?_, .inl rfl, ?_, ?_, ?_, ?_, fun _ => ⟨rfl, rfl⟩⟩
  all_goals simp only [endEncoder_table, endEncoder_count, endEncoder_cap, endEncoder_width, endEncoder_pkBits]
  · exact h.rises
  · exact h.entries
  · exact h.bounded
  · exact h.assigned
  · exact h.unique
  · exact h.seeds
  · exact h.nonEmpty
  · exact h.prefixes
  · exact h.lengths
  · exact h.seeded
  · exact h.capped
  · exact h.width
  · simp

/-- A freshly seeded decoder meets the invariant (R700, R150). -/
theorem decInv_seeded {d : Dec} (ht : d.table = dtabSeed) (hn : d.next = 256) (hc : d.count = 256) (hw : d.width = 9)
    (hp : d.prev = []) (hb : d.upBits = []) : DecInv d := by
  constructor
  · rw [ht]; exact dtabSeed_rises
  · intro c
    rw [ht, hn]
    constructor
    · intro h
      by_contra hc
      exact h (dtabLookup_seed_none (by simpa using hc))
    · intro h hnone
      have hcb : c = (c.setWidth 8).setWidth 16 := by
        apply BitVec.eq_of_toNat_eq
        simp only [BitVec.toNat_setWidth]
        simp at h
        omega
      rw [hcb, dtabLookup_seed] at hnone
      simp at hnone
  · intro b; rw [ht]; exact dtabLookup_seed b
  · intro c p h
    rw [ht] at h
    obtain ⟨b, rfl, _⟩ := dtabLookup_seed_some h
    simp
  · intro c p h
    rw [ht] at h
    obtain ⟨b, rfl, _⟩ := dtabLookup_seed_some h
    simp
  · exact .inl hp
  · rw [hc]; decide
  · rw [hc, hn]; decide
  · intro _; simp [hp, hc]
  · rw [hc, hw]; decide
  · intro _; rw [hb, hw]; decide
  · intro _; exact ⟨hp, hb⟩

/-- Delivering the pattern of code `c` completes, keeps the invariant and counts one code (R710 steps 3 to 6). `T` is the
table after the insert of the KwK case, or the table itself; `rest` are the bits left. -/
theorem decInv_deliver {d : Dec} {e : Pattern} (h : DecInv d) (ha : d.active = true) (hcnt : d.count.toNat < 65536)
    {T : DecTable} {c : Code}
    (hrise : tableRises codeLt T)
    (hT : ∀ c', dtabLookup c' T = if c' = c then some e else dtabLookup c' d.table)
    (hec : dtabLookup c d.table = some e ∨ (c.toNat = d.next.toNat ∧ ∃ x t, d.prev = x :: t ∧ e = d.prev ++ [x]))
    (rest : Bits) (hrest : rest.length < 8) :
    ∃ d', deliver e { d with table := T, upBits := rest } = .done d' ∧ DecInv d' ∧ d'.active = true ∧ d'.count.toNat = d.count.toNat + 1 := by
  have hnx := h.next
  have hcd := h.counted
  have hfirst := h.first ha
  have hlt : d.next.toNat < 65535 := by omega
  have hene : e ≠ [] := by
    rcases hec with h1 | ⟨_, x, t, _, rfl⟩
    · exact h.nonEmpty _ _ h1
    · simp
  have hwr := bitlen_range hcd.1 hcd.2
  have hwd := h.width
  obtain ⟨e0, et, rfl⟩ := List.exists_cons_of_ne_nil hene
  refine ⟨_, deliver_done hene (by simp only; omega), ?_⟩
  set D : Dec := { d with
        upBits := rest
        out := d.out ++ (e0 :: et)
        table := if d.prev = [] then T
          else dtabInsert (d.next.setWidth 16) (d.prev ++ [e0]) T
        next := if d.prev = [] then d.next else d.next + 1
        prev := e0 :: et } with hD
  change DecInv (recordGrowthD D) ∧ (recordGrowthD D).active = true ∧ (recordGrowthD D).count.toNat = d.count.toNat + 1
  obtain ⟨hc1, hw1⟩ := recordGrowthD_toNat (d := D) (by simp only [hD]; omega) (by simp only [hD]; omega)
  have hDc : D.count.toNat = d.count.toNat := rfl
  have hDw : D.width.toNat = d.width.toNat := rfl
  have hDn : D.next = if d.prev = [] then d.next else d.next + 1 := rfl
  have hDt : D.table = if d.prev = [] then T else dtabInsert (d.next.setWidth 16) (d.prev ++ [e0]) T := rfl
  rw [hDc] at hc1
  rw [hDc, hDw] at hw1
  have hset : (d.next.setWidth 16 : Code).toNat = d.next.toNat := by
    rw [BitVec.toNat_setWidth]; omega
  have hn1 : (d.next + 1).toNat = d.next.toNat + 1 := by rw [BitVec.toNat_add]; simp; omega
  have hnew : D.next.toNat = 256 + (d.count.toNat + 1 - 257) := by
    rw [hDn]
    split_ifs with hp
    · rw [hnx, hfirst.1 hp]
    · have : d.count.toNat ≠ 256 := fun hh => hp (hfirst.2 hh)
      rw [hn1]; omega
  -- the new table as a map
  have hmap : ∀ c', dtabLookup c' D.table = if d.prev ≠ [] ∧ c' = d.next.setWidth 16 then some (d.prev ++ [e0]) else
      dtabLookup c' d.table := by
    intro c'
    rw [hDt]
    by_cases hp : d.prev = []
    · simp only [hp, if_true, ne_eq, not_true, false_and, if_false]
      rw [hT]
      split_ifs with hcc
      · rcases hec with h1 | ⟨_, x, t, h2, _⟩
        · rw [hcc, h1]
        · simp [hp] at h2
      · rfl
    · simp only [hp, if_false, ne_eq, not_false_eq_true, true_and, dtabLookup_dtabInsert]
      split_ifs with h1
      · rfl
      · rw [hT]
        split_ifs with h2
        · rcases hec with h3 | ⟨h3, _⟩
          · rw [h2, h3]
          · exact absurd (BitVec.eq_of_toNat_eq (by rw [h2, h3, hset])) h1
        · rfl
  have hprevlen : ∀ p0 pt, d.prev = p0 :: pt → (d.prev ++ [e0]).length ≤ max 1 (d.next.toNat - 254) := by
    intro p0 pt hp
    rcases h.previous with h1 | ⟨c', h1⟩
    · simp [h1] at hp
    · have h2 := h.lengths _ _ h1
      have h3 := (h.domain c').1 (by rw [h1]; simp)
      simp only [List.length_append, List.length_singleton]
      omega
  refine ⟨?_, ha, hc1⟩
  constructor
  · rw [recordGrowthD_table, hDt]
    split_ifs
    · exact hrise
    · exact dtabInsert_rises _ _ hrise
  · intro c'
    rw [recordGrowthD_table, recordGrowthD_next, hmap, hDn]
    by_cases hp : d.prev = []
    · simp only [hp, if_true, ne_eq, not_true, false_and, if_false]
      exact h.domain c'
    · simp only [hp, if_false, ne_eq, not_false_eq_true, true_and, hn1]
      split_ifs with h1
      · rw [h1, hset]; simp
      · have h2 : c'.toNat ≠ d.next.toNat := fun hh => h1 (BitVec.eq_of_toNat_eq (by omega))
        have := h.domain c'
        simp only [ne_eq] at this
        rw [this]
        omega
  · intro b
    rw [recordGrowthD_table, hmap, if_neg, h.seeds]
    rintro ⟨_, h1⟩
    have := congrArg BitVec.toNat h1
    rw [hset, BitVec.toNat_setWidth] at this
    have := b.isLt
    omega
  · intro c' p hp
    rw [recordGrowthD_table, hmap] at hp
    split_ifs at hp with h1
    · rw [← Option.some.inj hp]; simp
    · exact h.nonEmpty _ _ hp
  · intro c' p hp
    rw [recordGrowthD_table, hmap] at hp
    split_ifs at hp with h1
    · obtain ⟨p0, pt, hpp⟩ := List.exists_cons_of_ne_nil h1.1
      rw [← Option.some.inj hp, h1.2, hset]
      exact hprevlen p0 pt hpp
    · exact h.lengths _ _ hp
  · right
    refine ⟨c, ?_⟩
    rw [recordGrowthD_table, hmap, recordGrowthD_prev]
    rcases hec with h1 | ⟨h1, x, t, h2, h3⟩
    · rw [if_neg, h1]
      rintro ⟨_, h4⟩
      have := (h.domain c).1 (by rw [h1]; simp)
      rw [h4, hset] at this
      omega
    · rw [if_pos ⟨by simp [h2], BitVec.eq_of_toNat_eq (by omega)⟩, ]
      rw [h2] at h3
      have h5 : e0 = x := by
        have := congrArg List.head? h3
        simpa using this
      change some (d.prev ++ [e0]) = some (e0 :: et)
      rw [h3, h2, h5]
  · rw [hc1]; omega
  · rw [hc1, recordGrowthD_next, hnew]
  · intro _
    rw [hc1]
    simp [hD]; omega
  · rw [hc1, hw1, bitlen_succ (by omega), hwd]
  · intro _
    rw [hw1]
    simp only [recordGrowthD_upBits, hD]
    split_ifs <;> omega
  · intro hh; simp [hD, ha] at hh

/-- The body of DEC_BYTE keeps the invariant or raises a fault of the block; it never gets stuck (R710, R203). -/
theorem decInv_decodeByte {b : Byte} {d : Dec} (h : DecInv d) (ha : d.active = true) :
    (∃ d', decodeByte b d = .done d' ∧ DecInv d' ∧ d'.active = true) ∨ (∃ c, decodeByte b d = .trap c) := by
  have hp := h.pending ha
  have hcd := h.counted
  have hwd := h.width
  have hwr := bitlen_range hcd.1 hcd.2
  rcases decodeByte_cases b d with ⟨h1, h2⟩ | ⟨_, _, h2⟩ | ⟨h1, h16, h2⟩
  · left
    refine ⟨_, h2, ?_, ha⟩
    exact ⟨h.rises, h.domain, h.seeds, h.nonEmpty, h.lengths, h.previous, h.counted, h.next, h.first, h.width,
      fun _ => by simpa using h1, fun hh => by simp [ha] at hh⟩
  · exact .inr ⟨_, h2⟩
  · have hlt : d.count.toNat < 65536 := by
      have := (bitlen_bounds (n := d.count.toNat) (by omega)).2
      have : 2 ^ bitlen d.count.toNat ≤ 2 ^ 16 := Nat.pow_le_pow_right (by decide) (by omega)
      omega
    set bits := d.upBits ++ bitsOf Config.fill b with hb
    have hlen : bits.length = d.upBits.length + 8 := by simp [hb]
    have hrest : (bits.drop d.width.toNat).length < 8 := by rw [List.length_drop]; omega
    rcases routeCode_cases (codeOf (bits.take d.width.toNat)) { d with upBits := bits.drop d.width.toNat } with
      ⟨e, he, hr⟩ | ⟨p0, pt, hn, hpp, hcn, hr⟩ | ⟨_, _, hr⟩
    · left
      obtain ⟨d', h3, h4, h5, _⟩ := decInv_deliver h ha hlt (T := d.table) (c := codeOf (bits.take d.width.toNat)) (e := e) h.rises
        (by intro c'; split_ifs with hc; · rw [hc]; exact he
            · rfl) (.inl he) (bits.drop d.width.toNat) hrest
      exact ⟨d', by rw [h2, hr, ← h3], h4, h5⟩
    · left
      obtain ⟨d', h3, h4, h5, _⟩ := decInv_deliver h ha hlt (T := dtabInsert (codeOf (bits.take d.width.toNat)) (d.prev ++ [p0]) d.table)
        (c := codeOf (bits.take d.width.toNat)) (e := d.prev ++ [p0]) (dtabInsert_rises _ _ h.rises)
        (by intro c'; exact dtabLookup_dtabInsert _ _ _ _) (.inr ⟨hcn, p0, pt, hpp, rfl⟩) (bits.drop d.width.toNat) hrest
      exact ⟨d', by rw [h2, hr, ← h3], h4, h5⟩
    · exact .inr ⟨_, by rw [h2, hr]⟩

/-- The body of DEC_END keeps the invariant (R730). -/
theorem decInv_endDecoder {d : Dec} (h : DecInv d) : DecInv (endDecoder d) :=
  ⟨h.rises, h.domain, h.seeds, h.nonEmpty, h.lengths, .inl rfl, h.counted, h.next, fun hh => by simp at hh, h.width,
    fun hh => by simp at hh, fun _ => ⟨rfl, rfl⟩⟩

/-- Fault entry keeps the control invariant (R901, R910). -/
theorem ctrlInv_takeFault {s : State} (c : FaultCause) (w : CmdWord) : CtrlInv (takeFault c w s).ctrl :=
  ⟨fun h => by simp at h, fun _ => causeCode_range c⟩

end Sys2Proof.Machine
end

