-- ==== Sys2Proof/Laws/Exec.lean ====
section
/-!
SUPPORT. Everything an instruction and an event can do, said once: how a next state comes from the state before.
-/

namespace Sys2Proof.Machine

/-- Every way an instruction answers a next state: dropped by a halted block, a fault of the block taken, or its own
effect. -/
theorem exec_next {i : Instr} {s t : State} (h : exec i s = .next t) :
    (t = s ∧ s.ctrl.halted = true) ∨
    (t = takeFault .encSeq (wordOf i) s ∧ Running s ∧ s.enc.active = false ∧ ((∃ x, i = .encSym x) ∨ i = .encEnd)) ∨
    (t = takeFault .decSeq (wordOf i) s ∧ Running s ∧ s.dec.active = false ∧ ((∃ b, i = .decByte b) ∨ i = .decEnd)) ∨
    (∃ b c, i = .decByte b ∧ Running s ∧ s.dec.active = true ∧ decodeByte b s.dec = .trap c ∧
      t = takeFault c (wordOf i) s) ∨
    (∃ v, i = .setCap v ∧ Running s ∧ t = { s with ctrl := { s.ctrl with cap := v } }) ∨
    (i = .encStart ∧ Running s ∧ t = { s with enc := startEncoder s.ctrl.cap s.enc }) ∨
    (∃ x e, i = .encSym x ∧ Running s ∧ s.enc.active = true ∧ encodeSymbol x s.enc = some e ∧
      t = { s with enc := e }) ∨
    (i = .encEnd ∧ Running s ∧ s.enc.active = true ∧ t = { s with enc := endEncoder s.enc }) ∨
    (i = .decStart ∧ Running s ∧ t = { s with dec := startDecoder s.dec }) ∨
    (∃ b d, i = .decByte b ∧ Running s ∧ s.dec.active = true ∧ decodeByte b s.dec = .done d ∧
      t = { s with dec := d }) ∨
    (i = .decEnd ∧ Running s ∧ s.dec.active = true ∧ t = { s with dec := endDecoder s.dec }) ∨
    (∃ v w, i = .pkCode v w ∧ t = { s with enc := packCode v w.toNat s.enc }) ∨
    (i = .pkFlush ∧ t = { s with enc := packFlush s.enc }) ∨
    (∃ b, i = .upPush b ∧ t = { s with dec := unpackPush b s.dec }) ∨
    (∃ w l, i = .upTake w ∧
      t = { s with dec := (unpackTake w.toNat s.dec).2, ports := { s.ports with takeAnswers := l } }) ∨
    (i = .upDrop ∧ t = { s with dec := unpackDrop s.dec }) ∨
    (∃ a l, i = .csrRead a ∧ t = { s with ports := { s.ports with csrAnswers := l } }) := by
  have key : ∀ {u : State}, (.next u : Result) = .next t → t = u := fun h => (Host.Outcome.next.inj h).symm
  have drop : ∀ {w : CmdWord}, encode i = .command w → s.ctrl.halted = true → t = s := fun hw hh =>
    key ((exec_of_halted hw hh).symm.trans h)
  cases i with
  | setCap v =>
    rcases hh : s.ctrl.halted with _ | _
    · rw [exec, execSetCap, whenRunning_of_running hh] at h
      simp [Running, hh, key h]
    · exact .inl ⟨drop rfl hh, rfl⟩
  | encStart =>
    rcases hh : s.ctrl.halted with _ | _
    · rw [exec, execEncStart, whenRunning_of_running hh] at h
      simp [Running, hh, key h]
    · exact .inl ⟨drop rfl hh, rfl⟩
  | encSym x =>
    rcases hh : s.ctrl.halted with _ | _
    · rcases ha : s.enc.active with _ | _
      · rw [exec, execEncSym, whenEncoding_of_idle hh ha] at h
        exact .inr (.inl ⟨key h, hh, rfl, .inl ⟨x, rfl⟩⟩)
      · rw [exec, execEncSym, whenEncoding_of_active hh ha] at h
        split at h
        · next e he => simp [Running, hh, he, key h]
        · cases h
    · exact .inl ⟨drop rfl hh, rfl⟩
  | encEnd =>
    rcases hh : s.ctrl.halted with _ | _
    · rcases ha : s.enc.active with _ | _
      · rw [exec, execEncEnd, whenEncoding_of_idle hh ha] at h
        exact .inr (.inl ⟨key h, hh, rfl, .inr rfl⟩)
      · rw [exec, execEncEnd, whenEncoding_of_active hh ha] at h
        simp [Running, hh, key h]
    · exact .inl ⟨drop rfl hh, rfl⟩
  | decStart =>
    rcases hh : s.ctrl.halted with _ | _
    · rw [exec, execDecStart, whenRunning_of_running hh] at h
      simp [Running, hh, key h]
    · exact .inl ⟨drop rfl hh, rfl⟩
  | decByte b =>
    rcases hh : s.ctrl.halted with _ | _
    · rcases ha : s.dec.active with _ | _
      · rw [exec, execDecByte, whenDecoding_of_idle hh ha] at h
        exact .inr (.inr (.inl ⟨key h, hh, rfl, .inl ⟨b, rfl⟩⟩))
      · rw [exec, execDecByte, whenDecoding_of_active hh ha] at h
        split at h
        · next d hd => simp [Running, hh, hd, key h]
        · next c hc => exact .inr (.inr (.inr (.inl ⟨b, c, rfl, hh, rfl, hc, key h⟩)))
        · cases h
    · exact .inl ⟨drop rfl hh, rfl⟩
  | decEnd =>
    rcases hh : s.ctrl.halted with _ | _
    · rcases ha : s.dec.active with _ | _
      · rw [exec, execDecEnd, whenDecoding_of_idle hh ha] at h
        exact .inr (.inr (.inl ⟨key h, hh, rfl, .inr rfl⟩))
      · rw [exec, execDecEnd, whenDecoding_of_active hh ha] at h
        simp [Running, hh, key h]
    · exact .inl ⟨drop rfl hh, rfl⟩
  | pkCode v w => rw [exec, execPkCode] at h; split_ifs at h; simp [key h]
  | pkFlush => rw [exec, execPkFlush] at h; simp [key h]
  | upPush b => rw [exec, execUpPush] at h; simp [key h]
  | upTake w => rw [exec, execUpTake] at h; split_ifs at h; simp [key h]
  | upDrop => rw [exec, execUpDrop] at h; simp [key h]
  | csrRead a => rw [exec, execCsrRead] at h; simp [key h]

/-- Every way an event answers a next state: a reset, a word that is no instruction, an instruction. -/
theorem event_next {e : Event} {s t : State} (h : acceptEvent e s = .next t) :
    (∃ ws, e = .reset ws ∧ t = applyReset s) ∨
    (∃ p r, e = .word p ∧ decode p = .error r ∧
      (t = s ∨ ∃ w, p = .command w ∧ Running s ∧ t = takeFault .illegal w s)) ∨
    (∃ p i, e = .word p ∧ decode p = .ok i ∧ exec i s = .next t) := by
  cases e with
  | reset ws => exact .inl ⟨ws, rfl, (Host.Outcome.next.inj h).symm⟩
  | word p =>
    change acceptWord p s = _ at h
    rcases hd : decode p with r | i
    · refine .inr (.inl ⟨p, r, rfl, hd, ?_⟩)
      rw [acceptWord_of_reject hd] at h
      cases p with
      | command w =>
        rcases hh : s.ctrl.halted with _ | _
        · rw [rejectWord, whenRunning_of_running hh] at h
          exact .inr ⟨w, rfl, hh, (Host.Outcome.next.inj h).symm⟩
        · rw [rejectWord, whenRunning_of_halted hh] at h
          exact .inl (Host.Outcome.next.inj h).symm
      | packer w => cases h
      | unpacker w => cases h
      | csr a => exact .inl (Host.Outcome.next.inj h).symm
    · rw [acceptWord_of_decode hd] at h
      exact .inr (.inr ⟨p, i, rfl, hd, h⟩)

/-! ### What the bodies of the commands keep -/

/-- ENC_SYM's body keeps `enc_active` and `enc_cap` and only appends to the output. -/
theorem encodeSymbol_keeps {x : Byte} {e e' : Enc} (h : encodeSymbol x e = some e') :
    e'.active = e.active ∧ e'.cap = e.cap ∧ ∃ bytes, e'.out = e.out ++ bytes := by
  rcases encodeSymbol_cases h with ⟨c, _, rfl⟩ | ⟨c, _, _, rfl⟩
  · exact ⟨rfl, rfl, [], (List.append_nil _).symm⟩
  · obtain ⟨bytes, ho, _⟩ := packCode_bits c e.width.toNat e
    exact ⟨by simp [encodeMiss], by simp [encodeMiss], bytes, by simp [encodeMiss, ho]⟩

theorem packFlush_appends (e : Enc) : ∃ bytes, (packFlush e).out = e.out ++ bytes := by
  simp only [packFlush]
  split_ifs
  · exact ⟨[], (List.append_nil _).symm⟩
  · exact ⟨_, rfl⟩

/-- ENC_END's body only appends to the output. -/
theorem endEncoder_appends (e : Enc) : ∃ bytes, (endEncoder e).out = e.out ++ bytes := by
  obtain ⟨b, hb⟩ := packFlush_appends (encodeFinal e)
  have hout : (endEncoder e).out = (packFlush (encodeFinal e)).out := rfl
  rw [hout, hb]
  rcases encodeFinal_cases e with ⟨_, h⟩ | ⟨c, _, _, h⟩ | ⟨_, _, h⟩
  · exact ⟨b, by rw [h]⟩
  · obtain ⟨b', ho, _⟩ := packCode_bits c e.width.toNat e
    exact ⟨b' ++ b, by rw [h, ho, List.append_assoc]⟩
  · exact ⟨b, by rw [h]⟩

theorem unpackTake_keeps (w : Nat) (d : Dec) :
    (unpackTake w d).2.active = d.active ∧ (unpackTake w d).2.table = d.table ∧ (unpackTake w d).2.next = d.next ∧
      (unpackTake w d).2.count = d.count ∧ (unpackTake w d).2.width = d.width ∧ (unpackTake w d).2.prev = d.prev ∧
      (unpackTake w d).2.out = d.out := by
  simp only [unpackTake]
  split_ifs <;> exact ⟨rfl, rfl, rfl, rfl, rfl, rfl, rfl⟩

/-- Delivering a pattern: what it writes without regard to the table. -/
theorem deliver_keeps {e : Pattern} {d d' : Dec} (h : deliver e d = .done d') :
    d'.out = d.out ++ e ∧ d'.active = d.active ∧ d'.prev = e ∧ d'.upBits = d.upBits ∧ d'.count = d.count + 1 := by
  unfold deliver at h
  rcases insertNext_cases e { d with out := d.out ++ e } with
    ⟨_, h1⟩ | ⟨_, _, h1⟩ | ⟨e0, t, c, _, _, _, h1⟩ | ⟨_, _, _, h1⟩
  · rw [h1] at h; rw [← Decoded.done.inj h]; exact ⟨rfl, rfl, rfl, rfl, rfl⟩
  · rw [h1] at h; cases h
  · rw [h1] at h; rw [← Decoded.done.inj h]; exact ⟨rfl, rfl, rfl, rfl, rfl⟩
  · rw [h1] at h; cases h

/-- Delivering a pattern raises no fault of the block. -/
theorem deliver_ne_trap (e : Pattern) (d : Dec) (c : FaultCause) : deliver e d ≠ .trap c := by
  unfold deliver
  rcases insertNext_cases e { d with out := d.out ++ e } with
    ⟨_, h1⟩ | ⟨_, _, h1⟩ | ⟨e0, t, c, _, _, _, h1⟩ | ⟨_, _, _, h1⟩ <;>
  · rw [h1]
    intro h
    cases h

/-- DEC_BYTE's body keeps `dec_active` and only appends to the output. -/
theorem decodeByte_keeps {b : Byte} {d d' : Dec} (h : decodeByte b d = .done d') :
    d'.active = d.active ∧ ∃ bytes, d'.out = d.out ++ bytes := by
  rcases decodeByte_cases b d with ⟨_, h2⟩ | ⟨_, _, h2⟩ | ⟨_, _, h2⟩
  · rw [h2] at h
    rw [← Decoded.done.inj h]
    exact ⟨rfl, [], (List.append_nil _).symm⟩
  · rw [h2] at h; cases h
  · rw [h2] at h
    rcases routeCode_cases (codeOf ((d.upBits ++ bitsOf Config.fill b).take d.width.toNat))
      { d with upBits := (d.upBits ++ bitsOf Config.fill b).drop d.width.toNat } with
      ⟨e, _, hr⟩ | ⟨p0, pt, _, _, _, hr⟩ | ⟨_, _, hr⟩
    · rw [hr] at h
      exact ⟨(deliver_keeps h).2.1, e, (deliver_keeps h).1⟩
    · rw [hr] at h
      exact ⟨(deliver_keeps h).2.1, _, (deliver_keeps h).1⟩
    · rw [hr] at h; cases h

/-- What is left of a decoder after the code of pattern `e` has been taken and delivered (R710 steps 3 to 6), with the
table `T` as the lookup left it. -/
def delivered (e : Pattern) (T : DecTable) (rest : Bits) (d : Dec) : Dec :=
  recordGrowthD { d with
    out := d.out ++ e
    table := if d.prev = [] then T else dtabInsert (d.next.setWidth 16) (d.prev ++ e.take 1) T
    next := if d.prev = [] then d.next else d.next + 1
    prev := e
    upBits := rest }

/-- Everything DEC_BYTE's body does in a decoder that meets the invariant (R710 to R713), `c` being the code that
is complete. -/
theorem decodeByte_of_inv (b : Byte) {d : Dec} (h : DecInv d) (c : Code)
    (hc : c = codeOf ((d.upBits ++ bitsOf Config.fill b).take d.width.toNat)) :
    (d.upBits.length + 8 < d.width.toNat ∧ decodeByte b d = .done (unpackPush b d)) ∨
    (17 ≤ d.upBits.length + 8 ∧ d.width.toNat = 17 ∧ decodeByte b d = .trap .decWidth) ∨
    (d.width.toNat ≤ d.upBits.length + 8 ∧ d.width.toNat ≤ 16 ∧
      ((∃ e, dtabLookup c d.table = some e ∧ e ≠ [] ∧
          decodeByte b d =
            .done (delivered e d.table ((d.upBits ++ bitsOf Config.fill b).drop d.width.toNat) d)) ∨
        (∃ p0 p, dtabLookup c d.table = none ∧ d.prev = p0 :: p ∧ c.toNat = d.next.toNat ∧
          decodeByte b d =
            .done (delivered (d.prev ++ [p0]) (dtabInsert c (d.prev ++ [p0]) d.table)
              ((d.upBits ++ bitsOf Config.fill b).drop d.width.toNat) d)) ∨
        (dtabLookup c d.table = none ∧ (c.toNat ≠ d.next.toNat ∨ d.prev = []) ∧
          decodeByte b d = .trap .decBadCode))) := by
  have hcd := h.counted
  have hwd := h.width
  have hn := h.next
  have hwr := bitlen_range hcd.1 hcd.2
  rcases decodeByte_cases b d with ⟨h1, h2⟩ | ⟨h0, h1, h2⟩ | ⟨h1, h16, h2⟩
  · exact .inl ⟨h1, h2⟩
  · exact .inr (.inl ⟨by omega, by omega, h2⟩)
  · refine .inr (.inr ⟨h1, h16, ?_⟩)
    rw [← hc] at h2
    have hlt : d.next.toNat < 65536 := by omega
    rcases routeCode_cases c { d with upBits := (d.upBits ++ bitsOf Config.fill b).drop d.width.toNat } with
      ⟨e, he, hr⟩ | ⟨p0, p, hl, hp, hcn, hr⟩ | ⟨hl, hor, hr⟩
    · refine .inl ⟨e, he, h.nonEmpty _ _ he, ?_⟩
      rw [h2, hr]
      exact deliver_done (h.nonEmpty _ _ he) (by exact hlt)
    · refine .inr (.inl ⟨p0, p, hl, hp, hcn, ?_⟩)
      rw [h2, hr]
      exact deliver_done (by simp) (by exact hlt)
    · exact .inr (.inr ⟨hl, hor, by rw [h2, hr]⟩)

end Sys2Proof.Machine
end

