-- ==== Sys2Proof/Laws/PerInstr.lean ====
section
/-!
SUPPORT. One family of statements about each instruction as syntax: its word has its row's match under its row's mask
(30_encoding.md R302, R310, R312, R314).
-/

namespace Sys2Proof

/-- A mask of k ones above m zeros selects that field. -/
theorem land_field (n m k : Nat) : n &&& (2 ^ k - 1) * 2 ^ m = n / 2 ^ m % 2 ^ k * 2 ^ m := by
  apply Nat.eq_of_testBit_eq
  intro i
  simp only [Nat.testBit_and, Nat.testBit_mul_two_pow, Nat.testBit_two_pow_sub_one, Nat.testBit_mod_two_pow,
    Nat.testBit_div_two_pow]
  by_cases h : m ≤ i
  · simp only [h, decide_true, Bool.true_and, Nat.sub_add_cancel h]
    exact Bool.and_comm _ _
  · simp [h]

namespace Laws.EncodesItsRow

/-- The instruction's word matches its row of the table. -/
def Statement (i : Instr) : Prop := rowMatches (rowOf i) (portNat (encode i)) = true

theorem setCap (v : BitVec 16) : Statement (.setCap v) := by
  have hv := v.isLt
  have h := land_field (commandWord 1 v).toNat 16 16
  rw [toNat_commandWord] at h
  simp only [Statement, rowMatches, rowOf, portNat, encode, toNat_commandWord, beq_iff_eq]
  have h2 : ((1 : BitVec 4).toNat * 2 ^ 28 + v.toNat) / 2 ^ 16 % 2 ^ 16 * 2 ^ 16 = 0x10000000 := by
    have : (1 : BitVec 4).toNat = 1 := rfl
    omega
  exact h.trans h2

theorem encStart : Statement .encStart := by unfold Statement; decide

theorem encSym (s : Byte) : Statement (.encSym s) := by revert s; unfold Statement; decide

theorem encEnd : Statement .encEnd := by unfold Statement; decide

theorem decStart : Statement .decStart := by unfold Statement; decide

theorem decByte (b : Byte) : Statement (.decByte b) := by revert b; unfold Statement; decide

theorem decEnd : Statement .decEnd := by unfold Statement; decide

theorem pkCode (v : Code) (w : BitVec 5) : Statement (.pkCode v w) := by
  have hv := v.isLt
  have hw := w.isLt
  have h := land_field (packerWord false w v).toNat 21 1
  rw [toNat_packerWord] at h
  simp only [Statement, rowMatches, rowOf, portNat, encode, toNat_packerWord, beq_iff_eq]
  have h2 : (false.toNat * 2 ^ 21 + w.toNat * 2 ^ 16 + v.toNat) / 2 ^ 21 % 2 ^ 1 * 2 ^ 21 = 0 := by
    have : false.toNat = 0 := rfl
    omega
  exact h.trans h2

theorem pkFlush : Statement .pkFlush := by unfold Statement; decide

theorem upPush (b : Byte) : Statement (.upPush b) := by revert b; unfold Statement; decide

theorem upTake (w : BitVec 5) : Statement (.upTake w) := by revert w; unfold Statement; decide

theorem upDrop : Statement .upDrop := by unfold Statement; decide

theorem csrRead (a : BitVec 8) : Statement (.csrRead a) := by revert a; unfold Statement; decide

end Laws.EncodesItsRow

end Sys2Proof
end

