-- ==== Sys2Proof/Laws/Stream.lean ====
section
/-!
SUPPORT. The encoder beside compress and the decoder beside decompress, operation by operation (44_encoder.md R650,
45_decoder.md R750), and what the codes of a stream stand for (R751).
-/

namespace Sys2Proof.Machine

/-! ### The encoder beside compress (R650) -/

/-- The model's code bits are the algorithm's (R205). -/
theorem msbFirst_eq (v : Code) (w : Nat) : msbFirst v w = msbBits v.toNat w := by
  induction w with
  | zero => rfl
  | succ w ih => simp [msbFirst, msbBits, ih, BitVec.testBit_toNat]

/-- The bits of codes sent one after the other (R206). -/
theorem codeBits_append (a b : List (Nat × Nat)) : codeBits (a ++ b) = codeBits a ++ codeBits b := by
  simp [codeBits]

/-- Slices of whole bytes and a partial byte: the bytes, then the padded one (R210). -/
theorem sliceBytes_bytes (f : Fill) (bytes : List Byte) (pk : Bits) (n : Nat) (hn : 8 * bytes.length + pk.length ≤ n) (hpk : pk.length < 8) :
    sliceBytes f n (bytes.flatMap (bitsOf f) ++ pk) = bytes ++ (if pk.length = 0 then [] else [padByte f pk]) := by
  induction bytes generalizing n with
  | nil =>
    cases n with
    | zero =>
      have : pk = [] := List.length_eq_zero_iff.1 (by simpa using hn)
      subst this; rfl
    | succ n =>
      simp only [List.flatMap_nil, List.nil_append, sliceBytes]
      by_cases h : pk = []
      · subst h; rfl
      · rw [if_neg h, if_neg (by rwa [List.length_eq_zero_iff])]
        rw [List.take_of_length_le (by omega), List.drop_of_length_le (by omega)]
        cases n <;> simp [sliceBytes]
  | cons b bytes ih =>
    cases n with
    | zero => simp at hn
    | succ n =>
      simp only [List.flatMap_cons, List.append_assoc, sliceBytes]
      have hne : bitsOf f b ++ (bytes.flatMap (bitsOf f) ++ pk) ≠ [] := by
        intro h
        have := congrArg List.length h
        simp at this
      rw [if_neg hne, List.take_left' (length_bitsOf f b), List.drop_left' (length_bitsOf f b), ih n (by simp at hn; omega)]
      simp [padByte, byteOf_bitsOf]

/-- The packed stream of whole bytes and a partial byte (R210, R521). -/
theorem packedStream_bytes (f : Fill) (bytes : List Byte) (pk : Bits) (hpk : pk.length < 8) :
    packedStream f (bytes.flatMap (bitsOf f) ++ pk) = bytes ++ (if pk.length = 0 then [] else [padByte f pk]) :=
  sliceBytes_bytes f bytes pk _ (by rw [List.length_append, length_flatMap_bitsOf]) hpk

/-- The encoder holds what the variables of compress hold. `o` is `enc_out` at ENC_START, `v` the cap. -/
structure Mirrors (o : List Byte) (v : Nat) (e : Enc) (s : Comp) : Prop where
  inv : EncInv e
  active : e.active = true
  cap : e.cap.toNat = v
  pattern : e.pattern = s.pattern
  count : e.count.toNat = s.count
  width : e.width.toNat = s.width
  table : ∀ p, (etabLookup p e.table).map BitVec.toNat = tableLookup p s.table
  stream : ∃ bytes, e.out = o ++ bytes ∧ bytes.flatMap (bitsOf Config.fill) ++ e.pkBits = codeBits s.codes
  lt8 : e.pkBits.length < 8

/-- ENC_START and the first line of compress (R610, R650). -/
theorem mirrors_start (cap : BitVec 16) (e : Enc) : Mirrors e.out cap.toNat (startEncoder cap e) compStart := by
  refine ⟨encInv_seeded rfl rfl rfl rfl rfl, rfl, rfl, rfl, rfl, rfl, ?_, ⟨[], by simp, rfl⟩, by simp⟩
  intro p
  simp only [startEncoder_table, compStart]
  rcases h : etabLookup p etabSeed with _ | c
  · symm
    apply tableLookup_map_range_none
    intro j hj hjp
    have : p = [BitVec.ofNat 8 j] := hjp.symm
    rw [this, etabLookup_seed] at h
    cases h
  · obtain ⟨b, rfl, rfl⟩ := etabLookup_seed_some h
    have hb := b.isLt
    have := tableLookup_map_range [b] (fun j => [BitVec.ofNat 8 j]) (fun j => j) 256 b.toNat hb (by simp) (by
      intro j hj hji
      have := congrArg BitVec.toNat (List.cons.inj hji).1
      simp only [BitVec.toNat_ofNat] at this
      omega)
    rw [this]
    simp
    omega

/-- Sending a code appends its bits to the stream (R500, R521). -/
theorem packCode_stream {o : List Byte} {e : Enc} {codes : List (Nat × Nat)} {c : Code} {w : Nat}
    (h : ∃ bytes, e.out = o ++ bytes ∧ bytes.flatMap (bitsOf Config.fill) ++ e.pkBits = codeBits codes) :
    ∃ bytes, (packCode c w e).out = o ++ bytes ∧
      bytes.flatMap (bitsOf Config.fill) ++ (packCode c w e).pkBits = codeBits (codes ++ [(c.toNat, w)]) := by
  obtain ⟨bytes, h1, h2⟩ := h
  obtain ⟨b2, h3, h4, _⟩ := packCode_bits c w e
  refine ⟨bytes ++ b2, by rw [h3, h1, List.append_assoc], ?_⟩
  rw [List.flatMap_append, List.append_assoc, h4, ← List.append_assoc, h2, codeBits_append, msbFirst_eq]
  simp [codeBits]

/-- ENC_SYM and the body of compress's loop (R620, R650). -/
theorem mirrors_symbol {o : List Byte} {v : Nat} {e : Enc} {s : Comp} (h : Mirrors o v e s) (x : Byte) :
    ∃ e', encodeSymbol x e = some e' ∧ Mirrors o v e' (compSymbol v s x) := by
  obtain ⟨e', he, hi, ha⟩ := encInv_encodeSymbol (sym := x) h.inv h.active
  refine ⟨e', he, ?_⟩
  have hT := h.table
  have h256 := h.inv.seeded
  have hcap := h.cap
  have hcaplt := e.cap.isLt
  rcases encodeSymbol_cases he with ⟨c, hc, rfl⟩ | ⟨c, hn, hc, rfl⟩
  · have h1 : tableLookup (s.pattern ++ [x]) s.table = some c.toNat := by rw [← hT, ← h.pattern, hc]; rfl
    have h2 : compSymbol v s x = { s with pattern := s.pattern ++ [x] } := by
      rw [compSymbol, h1]; rfl
    rw [h2]
    exact ⟨hi, ha, h.cap, by simp [h.pattern], h.count, h.width, hT, h.stream, h.lt8⟩
  · have h1 : tableLookup (s.pattern ++ [x]) s.table = none := by rw [← hT, ← h.pattern, hn]; rfl
    have h3 : tableLookup s.pattern s.table = some c.toNat := by rw [← hT, ← h.pattern, hc]; rfl
    have hemit : s.emit = s.codes ++ [(c.toNat, s.width)] := by rw [Comp.emit, h3]; rfl
    have hst := packCode_stream (c := c) (w := e.width.toNat) h.stream
    have hlt := packCode_pending_lt c e.width.toNat e
    rw [h.width, ← hemit] at hst
    unfold compSymbol
    rw [h1]
    simp only [Option.isSome_none, Bool.false_eq_true, if_false]
    rcases insertAndGrow_cases (e.pattern ++ [x]) { packCode c e.width.toNat e with pattern := [x] } with ⟨hlt', hins⟩ | ⟨hge, hins⟩
    · have hlt' : e.count.toNat < e.cap.toNat := hlt'
      have hwe := h.inv.width
      have hw16 := bitlen_le_16 (n := e.count.toNat) (by omega)
      have hset : (e.count.setWidth 16 : Code).toNat = e.count.toNat := by rw [BitVec.toNat_setWidth]; omega
      obtain ⟨hc1, hw1⟩ := recordGrowthE_toNat (e := { packCode c e.width.toNat e with
          pattern := [x], table := etabBind (e.pattern ++ [x]) (e.count.setWidth 16) e.table })
        (by simp only [packCode_count]; omega) (by simp only [packCode_width]; omega)
      rw [if_pos (by rw [← h.count]; omega)]
      have hw1 := hw1
      simp only [packCode_count, packCode_width] at hc1 hw1
      refine ⟨hi, ha, ?_, ?_, ?_, ?_, ?_, ?_, ?_⟩
      · simpa [encodeMiss] using h.cap
      · simp [encodeMiss]
      · unfold encodeMiss; rw [hins]; exact hc1.trans (by rw [h.count])
      · unfold encodeMiss; rw [hins]; refine hw1.trans ?_
        simp only [h.count, h.width]
      · intro p
        unfold encodeMiss; rw [hins]
        simp only [recordGrowthE_table, packCode_table, packCode_count, etabLookup_etabBind, tableLookup_cons, h.pattern]
        split_ifs
        · simp [hset, h.count]
        · exact hT p
      · have : (encodeMiss x c e).out = (packCode c e.width.toNat e).out := by simp [encodeMiss]
        have h9 : (encodeMiss x c e).pkBits = (packCode c e.width.toNat e).pkBits := by simp [encodeMiss]
        rw [this, h9, h.width]; exact hst
      · have h9 : (encodeMiss x c e).pkBits = (packCode c e.width.toNat e).pkBits := by simp [encodeMiss]
        rw [h9]; exact hlt
    · have hge : e.cap.toNat ≤ e.count.toNat := hge
      rw [if_neg (by rw [← h.count]; omega)]
      have hm : encodeMiss x c e = { packCode c e.width.toNat e with pattern := [x] } := hins
      rw [hm] at hi ha ⊢
      refine ⟨hi, ha, h.cap, rfl, h.count, h.width, hT, ?_, hlt⟩
      rw [h.width]; exact hst

/-- ENC_END and the last two lines of compress (R630, R650). -/
theorem mirrors_end {o : List Byte} {v : Nat} {e : Enc} {s : Comp} (h : Mirrors o v e s) :
    (endEncoder e).out = o ++ packedStream Config.fill (codeBits (if s.pattern = [] then s.codes else s.emit)) := by
  have key : ∀ (E : Enc) (codes), (∃ bytes, E.out = o ++ bytes ∧ bytes.flatMap (bitsOf Config.fill) ++ E.pkBits = codeBits codes) →
      E.pkBits.length < 8 → (packFlush E).out = o ++ packedStream Config.fill (codeBits codes) := by
    rintro E codes ⟨bytes, h1, h2⟩ h3
    rw [← h2, packedStream_bytes _ _ _ h3]
    simp only [packFlush]
    split_ifs
    · simp [h1]
    · simp [h1]
  have hout : (endEncoder e).out = (packFlush (encodeFinal e)).out := rfl
  rw [hout]
  rcases encodeFinal_cases e with ⟨hp, hf⟩ | ⟨c, hp, hc, hf⟩ | ⟨hp, hc, hf⟩
  · rw [hf, if_pos (by rw [← h.pattern, hp])]
    exact key _ _ h.stream h.lt8
  · rw [hf, if_neg (by rw [← h.pattern]; exact hp)]
    have h3 : tableLookup s.pattern s.table = some c.toNat := by rw [← h.table, ← h.pattern, hc]; rfl
    have hemit : s.emit = s.codes ++ [(c.toNat, s.width)] := by rw [Comp.emit, h3]; rfl
    rw [hemit, ← h.width]
    exact key _ _ (packCode_stream h.stream) (packCode_pending_lt _ _ _)
  · rcases h.inv.current with h1 | ⟨c, h1⟩
    · exact absurd h1 hp
    · rw [h1] at hc; cases hc

/-! ### The decoder beside decompress (R750) -/

/-- The decoder holds what the variables of decompress hold. `o` is `dec_out` at DEC_START, `rest` the bits not yet sent. -/
structure MirrorsD (o : List Byte) (d : Dec) (s : Decomp) (rest : Bits) : Prop where
  inv : DecInv d
  active : d.active = true
  next : d.next.toNat = s.next
  count : d.count.toNat = s.count
  width : d.width.toNat = s.width
  prev : d.prev = s.prev
  out : d.out = o ++ s.out
  bits : s.bits = d.upBits ++ rest
  table : ∀ c : Code, dtabLookup c d.table = tableLookup c.toNat s.table

/-- DEC_START and decompress before its loop (R700, R750). -/
theorem mirrorsD_start (d : Dec) (rest : Bits) : MirrorsD d.out (startDecoder d) (decompStart rest) rest := by
  refine ⟨decInv_seeded rfl rfl rfl rfl rfl rfl, rfl, rfl, rfl, rfl, rfl, by simp [decompStart], by simp [decompStart], ?_⟩
  intro c
  simp only [startDecoder_table, decompStart]
  rcases h : dtabLookup c dtabSeed with _ | p
  · symm
    apply tableLookup_map_range_none (f := fun j => j)
    intro j hj hjp
    have hj : j < 256 := hj
    have : c = (c.setWidth 8).setWidth 16 := by
      apply BitVec.eq_of_toNat_eq
      simp only [BitVec.toNat_setWidth]
      omega
    rw [this, dtabLookup_seed] at h
    cases h
  · obtain ⟨b, rfl, rfl⟩ := dtabLookup_seed_some h
    have hb := b.isLt
    have := tableLookup_map_range (b.setWidth 16).toNat (fun j => j) (fun j => [BitVec.ofNat 8 j]) 256 b.toNat hb (by simp; omega) (by
      intro j _ hji; exact hji)
    rw [this]
    simp

/-- Steps 3 to 6 of DEC_BYTE and the same lines of decompress (R710, R750). -/
theorem mirrorsD_deliver {o : List Byte} {d : Dec} {s : Decomp} {bits rest : Bits} {e : Pattern} {T : DecTable}
    {T' : List (Nat × Pattern)} (h : MirrorsD o d s rest) (he : e ≠ []) (hcnt : d.count.toNat < 65536)
    (hbits : s.bits.drop s.width = bits ++ rest')
    (hT : ∀ c : Code, dtabLookup c T = tableLookup c.toNat T')
    {d' : Dec} (hd : deliver e { d with table := T, upBits := bits } = .done d')
    (hinv : DecInv d') (hact : d'.active = true) :
    MirrorsD o d' ({ s with table := T' }.deliver e) rest' := by
  have hcd := h.inv.counted
  have hn := h.inv.next
  have hwr := bitlen_range hcd.1 hcd.2
  have hwd := h.inv.width
  have hlt : d.next.toNat < 65535 := by omega
  have h1 := deliver_done (d := { d with table := T, upBits := bits }) he (by simp only; omega)
  rw [h1] at hd
  have hd := Decoded.done.inj hd
  have hset : (d.next.setWidth 16 : Code).toNat = d.next.toNat := by
    rw [BitVec.toNat_setWidth]; omega
  have hn1 : (d.next + 1).toNat = d.next.toNat + 1 := by rw [BitVec.toNat_add]; simp; omega
  set D : Dec := { d with
        upBits := bits
        out := d.out ++ e
        table := if d.prev = [] then T
          else dtabInsert (d.next.setWidth 16) (d.prev ++ e.take 1) T
        next := if d.prev = [] then d.next else d.next + 1
        prev := e } with hD
  have hd : recordGrowthD D = d' := hd
  obtain ⟨hc1, hw1⟩ := recordGrowthD_toNat (d := D) (by simp only [hD]; omega) (by simp only [hD]; omega)
  rw [hd] at hc1 hw1
  refine ⟨hinv, hact, ?_, ?_, ?_, ?_, ?_, ?_, ?_⟩
  · rw [← hd, recordGrowthD_next]
    simp only [hD, Decomp.deliver, ← h.prev, ← h.next]
    split_ifs
    · rfl
    · exact hn1
  · rw [hc1]; simp [hD, Decomp.deliver, h.count]
  · rw [hw1]; simp only [hD, Decomp.deliver, ← h.count, ← h.width]
  · rw [← hd]; simp [hD, Decomp.deliver]
  · rw [← hd]; simp [hD, Decomp.deliver, h.out]
  · rw [← hd]; simp [hD, Decomp.deliver, hbits]
  · intro c
    rw [← hd, recordGrowthD_table]
    simp only [hD, Decomp.deliver, ← h.prev, ← h.next]
    split_ifs
    · exact hT c
    · rw [dtabLookup_dtabInsert, tableLookup_cons]
      have : (c = BitVec.setWidth 16 d.next) ↔ c.toNat = d.next.toNat := by
        rw [← hset]; exact ⟨fun h => by rw [h], fun h => BitVec.eq_of_toNat_eq h⟩
      simp only [this]
      split_ifs
      · rfl
      · exact hT c

/-! ### A parse of the input: what the codes stand for (R751) -/

/-- The entry a parse makes at code 256 + j: pattern j and the first symbol of the next one. -/
def parseEntry (ps : List Pattern) (j : Nat) : Pattern := ps.getD j [] ++ (ps.getD (j + 1) []).take 1

/-- Code `c` stands for pattern k of the parse: a seed, or an entry made before it. -/
def ParseCode (ps : List Pattern) (k c : Nat) : Prop :=
  (c < 256 ∧ ps.getD k [] = [BitVec.ofNat 8 c]) ∨ ∃ j < k, c = 256 + j ∧ ps.getD k [] = parseEntry ps j

/-- compress has parsed `S` into `ps` and the current pattern, with M the bound of its count. -/
structure Traced (M : Nat) (S : List Byte) (s : Comp) (ps : List Pattern) : Prop where
  flat : ps.flatten ++ s.pattern = S
  nonEmpty : ∀ p ∈ ps, p ≠ []
  len : s.codes.length = ps.length
  codes : ∀ k, (h : k < s.codes.length) → ParseCode ps k (s.codes[k]).1 ∧ (s.codes[k]).2 = bitlen (min (256 + k) M)
  seeds : ∀ b : Byte, tableLookup [b] s.table = some b.toNat
  table : ∀ p c, tableLookup p s.table = some c →
    (c < 256 ∧ p = [BitVec.ofNat 8 c]) ∨ ∃ j < ps.length, c = 256 + j ∧ p = parseEntry (ps ++ [s.pattern]) j
  current : s.pattern ≠ [] ∨ ps = []
  inTable : s.pattern = [] ∨ ∃ c, tableLookup s.pattern s.table = some c
  count : s.count = min (256 + ps.length) M
  width : s.width = bitlen s.count

theorem parseEntry_congr {a b : List Pattern} {j : Nat} (h0 : a.getD j [] = b.getD j [])
    (h1 : (a.getD (j+1) []).take 1 = (b.getD (j+1) []).take 1) : parseEntry a j = parseEntry b j := by
  rw [parseEntry, parseEntry, h0, h1]

theorem getD_append_lt {a b : List Pattern} {j : Nat} (h : j < a.length) : (a ++ b).getD j [] = a.getD j [] := by
  simp [List.getD_eq_getElem?_getD, List.getElem?_append_left h]

theorem getD_append_len {a : List Pattern} {p : Pattern} {b : List Pattern}: (a ++ p :: b).getD a.length [] = p := by
  simp [List.getD_eq_getElem?_getD]

theorem ParseCode.mono {ps : List Pattern} {k c : Nat} (h : ParseCode ps k c) (hk : k < ps.length) (qs : List Pattern) :
    ParseCode (ps ++ qs) k c := by
  rcases h with ⟨h1, h2⟩ | ⟨j, hj, h1, h2⟩
  · exact .inl ⟨h1, by rw [getD_append_lt hk, h2]⟩
  · refine .inr ⟨j, hj, h1, ?_⟩
    rw [getD_append_lt hk, h2]
    exact (parseEntry_congr (getD_append_lt (by omega)) (by rw [getD_append_lt (by omega)])).symm

/-- Before the first symbol nothing is parsed. -/
theorem traced_start {M : Nat} (hM : 256 ≤ M) : Traced M [] compStart [] := by
  have hseed : ∀ b : Byte, tableLookup [b] compStart.table = some b.toNat := by
    intro b
    have hb := b.isLt
    exact tableLookup_map_range [b] (fun j => [BitVec.ofNat 8 j]) (fun j => j) 256 b.toNat hb (by simp) (by
      intro j hj hji
      have := congrArg BitVec.toNat (List.cons.inj hji).1
      simp only [BitVec.toNat_ofNat] at this
      omega)
  refine ⟨rfl, by simp, rfl, by simp [compStart], hseed, ?_, .inr rfl, .inl rfl, ?_, ?_⟩
  · intro p c h
    left
    obtain ⟨j, hj, hjv⟩ := List.mem_map.1 (mem_of_tableLookup h)
    have := List.mem_range.1 hj
    obtain ⟨h1, h2⟩ := Prod.ext_iff.1 hjv
    simp only at h1 h2
    subst h2
    exact ⟨this, h1.symm⟩
  · simp [compStart, Nat.min_eq_left hM]
  · simp [compStart]; decide

theorem emit_eq {s : Comp} {c : Nat} (h : tableLookup s.pattern s.table = some c) :
    s.emit = s.codes ++ [(c, s.width)] := by simp [Comp.emit, h]

/-- What is emitted, the final code included, is a parse (R630, R650). -/
theorem traced_emit {M : Nat} {S : List Byte} {s : Comp} {ps : List Pattern} (h : Traced M S s ps) (hp : s.pattern ≠ []) :
    s.emit.length = (ps ++ [s.pattern]).length ∧ ∀ k, (hk : k < s.emit.length) →
      ParseCode (ps ++ [s.pattern]) k (s.emit[k]).1 ∧ (s.emit[k]).2 = bitlen (min (256 + k) M) := by
  obtain ⟨c, hc⟩ := h.inTable.resolve_left hp
  have he := emit_eq hc
  refine ⟨by rw [he]; simp [h.len], ?_⟩
  intro k hk
  have hlen := h.len
  rcases Nat.lt_or_ge k s.codes.length with hlt | hge
  · have : s.emit[k] = s.codes[k] := by simp [he, List.getElem_append_left hlt]
    rw [this]
    exact ⟨(h.codes k hlt).1.mono (by omega) _, (h.codes k hlt).2⟩
  · have hkl : k = s.codes.length := by rw [he] at hk; simp at hk; omega
    have : s.emit[k] = (c, s.width) := by simp [he, hkl]
    rw [this]
    refine ⟨?_, by simp only [h.width, h.count, hkl, h.len]⟩
    rw [hkl, h.len]
    rcases h.table _ _ hc with ⟨h1, h2⟩ | ⟨j, hj, h1, h2⟩
    · exact .inl ⟨h1, by rw [getD_append_len, h2]⟩
    · exact .inr ⟨j, hj, h1, by rw [getD_append_len]; exact h2⟩

/-- One more symbol extends the parse (R620). -/
theorem traced_symbol {v : Nat} {S : List Byte} {s : Comp} {ps : List Pattern} (h : Traced (max 256 v) S s ps) (x : Byte) :
    ∃ ps', Traced (max 256 v) (S ++ [x]) (compSymbol v s x) ps' := by
  unfold compSymbol
  by_cases hit : (tableLookup (s.pattern ++ [x]) s.table).isSome
  · rw [if_pos hit]
    refine ⟨ps, ?_, h.nonEmpty, h.len, h.codes, h.seeds, ?_, .inl (by simp), .inr (Option.isSome_iff_exists.1 hit), h.count, h.width⟩
    · simp only; rw [← h.flat, List.append_assoc]
    · intro p c hp
      rcases h.table p c hp with h1 | ⟨j, hj, h1, h2⟩
      · exact .inl h1
      · refine .inr ⟨j, hj, h1, ?_⟩
        rw [h2]
        have hne : s.pattern ≠ [] := h.current.resolve_right (by rintro rfl; simp at hj)
        obtain ⟨a, t, hat⟩ := List.exists_cons_of_ne_nil hne
        refine parseEntry_congr (by rw [getD_append_lt hj, getD_append_lt hj]) ?_
        rcases Nat.lt_or_ge (j+1) ps.length with h3 | h3
        · rw [getD_append_lt h3, getD_append_lt h3]
        · have : j + 1 = ps.length := by omega
          rw [this, getD_append_len, getD_append_len]
          simp [hat]
  · rw [if_neg hit]
    have hp : s.pattern ≠ [] := by
      intro hp
      rw [hp, List.nil_append, h.seeds] at hit
      simp at hit
    obtain ⟨hl, hcodes⟩ := traced_emit h hp
    have hcount := h.count
    have hold : ∀ p c, tableLookup p s.table = some c → (c < 256 ∧ p = [BitVec.ofNat 8 c]) ∨
        ∃ j < (ps ++ [s.pattern]).length, c = 256 + j ∧ p = parseEntry (ps ++ [s.pattern] ++ [[x]]) j := by
      intro p c hpc
      rcases h.table p c hpc with h1 | ⟨j, hj, h1, h2⟩
      · exact .inl h1
      · refine .inr ⟨j, by simp; omega, h1, ?_⟩
        rw [h2]
        exact (parseEntry_congr (getD_append_lt (by simp; omega)) (by rw [getD_append_lt (by simp; omega)])).symm
    have hflat : (ps ++ [s.pattern]).flatten ++ [x] = S ++ [x] := by
      rw [← h.flat]; simp
    have hne : ∀ p ∈ ps ++ [s.pattern], p ≠ [] := by
      intro p hp'
      rcases List.mem_append.1 hp' with h1 | h1
      · exact h.nonEmpty p h1
      · rw [List.mem_singleton.1 h1]; exact hp
    by_cases hc : s.count < v
    · rw [if_pos hc]
      have hcn : s.count = 256 + ps.length := by omega
      refine ⟨ps ++ [s.pattern], hflat, hne, hl, hcodes, ?_, ?_, .inl (by simp), .inr ⟨x.toNat, ?_⟩, ?_, ?_⟩
      · intro b
        simp only [tableLookup_cons]
        rw [if_neg, h.seeds]
        intro hb
        have h8 := congrArg List.length hb
        have h9 := List.length_pos_iff.2 hp
        simp only [List.length_append, List.length_singleton] at h8
        omega
      · intro p c hpc
        simp only [tableLookup_cons] at hpc
        split_ifs at hpc with h1
        · right
          refine ⟨ps.length, by simp, by rw [← Option.some.inj hpc, hcn], ?_⟩
          rw [h1, parseEntry]
          rw [getD_append_lt (by simp), getD_append_len]
          congr 1
          have : ps.length + 1 = (ps ++ [s.pattern]).length := by simp
          rw [this, getD_append_len]; rfl
        · exact hold p c hpc
      · simp only [tableLookup_cons]
        rw [if_neg, h.seeds]
        intro hb
        have h8 := congrArg List.length hb
        have h9 := List.length_pos_iff.2 hp
        simp only [List.length_append, List.length_singleton] at h8
        omega
      · simp only [List.length_append, List.length_singleton]; omega
      · simp only
        rw [bitlen_succ (by omega), ← h.width]
    · rw [if_neg hc]
      refine ⟨ps ++ [s.pattern], hflat, hne, hl, hcodes, h.seeds, hold, .inl (by simp), .inr ⟨_, h.seeds x⟩, ?_, h.width⟩
      simp only [List.length_append, List.length_singleton]; omega

/-- The parse of a whole input. -/
theorem traced_fold {v : Nat} (X : List Byte) : ∀ {S : List Byte} {s : Comp} {ps : List Pattern}, Traced (max 256 v) S s ps →
    ∃ ps', Traced (max 256 v) (S ++ X) (X.foldl (compSymbol v) s) ps' := by
  induction X with
  | nil => intro S s ps h; exact ⟨ps, by simpa using h⟩
  | cons x X ih =>
    intro S s ps h
    obtain ⟨ps1, h1⟩ := traced_symbol h x
    obtain ⟨ps2, h2⟩ := ih h1
    exact ⟨ps2, by simpa using h2⟩

/-- decompress after k codes of the parse `ps`. -/
structure Parsed (ps : List Pattern) (k : Nat) (s : Decomp) : Prop where
  count : s.count = 256 + k
  width : s.width = bitlen s.count
  next : s.next = 256 + (k - 1)
  prev : s.prev = if k = 0 then [] else ps.getD (k - 1) []
  out : s.out = (ps.take k).flatten
  seeds : ∀ c < 256, tableLookup c s.table = some [BitVec.ofNat 8 c]
  entries : ∀ j, j + 1 < k → tableLookup (256 + j) s.table = some (parseEntry ps j)
  none : ∀ c, s.next ≤ c → tableLookup c s.table = none

/-- The decoder takes the next code of a parse, the KwK case included (R710, R711). -/
theorem parsed_step {ps : List Pattern} {k : Nat} {s : Decomp} (h : Parsed ps k s) (hne : ∀ p ∈ ps, p ≠ []) (hk : k < ps.length) {c : Nat}
    (hc : ParseCode ps k c) : ∃ s', decompCode s c = .ok s' ∧ Parsed ps (k + 1) s' ∧ s'.bits = s.bits.drop s.width := by
  have hne' : ∀ j, j < ps.length → ps.getD j [] ≠ [] := by
    intro j hj
    rw [List.getD_eq_getElem _ _ hj]
    exact hne _ (List.getElem_mem hj)
  have hpk := hne' k hk
  set e := ps.getD k [] with he
  -- deliver keeps Parsed
  have hdel : ∀ T, (∀ c < 256, tableLookup c T = some [BitVec.ofNat 8 c]) → (∀ j, j + 1 < k → tableLookup (256 + j) T = some (parseEntry ps j)) →
      (∀ c, s.next + (if k = 0 then 0 else 1) ≤ c → tableLookup c T = none) → Parsed ps (k+1) ({ s with table := T }.deliver e) := by
    intro T hT1 hT2 hT3
    have hprev : s.prev = [] ↔ k = 0 := by
      rw [h.prev]
      split_ifs with h0
      · simp [h0]
      · exact ⟨fun hh => absurd hh (hne' _ (by omega)), fun hh => absurd hh h0⟩
    have hn := h.next
    refine ⟨by simp [Decomp.deliver, h.count]; omega, ?_, ?_, by simp [Decomp.deliver, he], ?_, ?_, ?_, ?_⟩
    · simp only [Decomp.deliver]
      rw [bitlen_succ (by rw [h.count]; omega), ← h.width]
    · simp only [Decomp.deliver, hprev]
      split_ifs with h0
      · rw [hn, h0]
      · omega
    · simp only [Decomp.deliver]
      rw [h.out, List.take_add_one, List.flatten_append, List.getElem?_eq_getElem hk, he, List.getD_eq_getElem _ _ hk]
      simp
    · intro c hc
      simp only [Decomp.deliver, hprev]
      split_ifs with h0
      · exact hT1 c hc
      · rw [tableLookup_cons, if_neg (by simp only; omega)]; exact hT1 c hc
    · intro j hj
      simp only [Decomp.deliver, hprev]
      rw [if_neg (by omega), tableLookup_cons]
      split_ifs with h1
      · have hj1 : j = k - 1 := by simp only at h1; omega
        simp only [h.prev, if_neg (show ¬ k = 0 by omega)]
        rw [parseEntry, hj1, he, Nat.sub_add_cancel (by omega)]
      · exact hT2 j (by simp only at h1; omega)
    · intro c hc
      simp only [Decomp.deliver, hprev] at hc ⊢
      split_ifs at hc ⊢ with h0
      · exact hT3 c (by rw [if_pos h0]; omega)
      · rw [tableLookup_cons, if_neg (by simp only; omega)]
        exact hT3 c (by rw [if_neg h0]; omega)
  have hself := hdel s.table h.seeds h.entries (fun c hc => h.none c (by omega))
  have hbits : ∀ T, ({ s with table := T }.deliver e).bits = s.bits.drop s.width := fun _ => rfl
  rcases hc with ⟨h1, h2⟩ | ⟨j, hj, h1, h2⟩
  · refine ⟨s.deliver e, ?_, hself, rfl⟩
    rw [decompCode, h.seeds c h1, he, h2]
  · have hn := h.next
    by_cases hjk : j + 1 < k
    · refine ⟨s.deliver e, ?_, hself, rfl⟩
      rw [decompCode, h1, h.entries j hjk, he, h2]
    · have hj1 : j = k - 1 := by omega
      have hk0 : k ≠ 0 := by omega
      have hcn : c = s.next := by omega
      have hprev : s.prev = ps.getD (k - 1) [] := by rw [h.prev, if_neg hk0]
      have hpp := hne' (k - 1) (by omega)
      have hee : e = s.prev ++ s.prev.take 1 := by
        obtain ⟨a, t, hat⟩ := List.exists_cons_of_ne_nil hpp
        have h3 : e = s.prev ++ e.take 1 := by
          conv_lhs => rw [he, h2]
          rw [parseEntry, hj1, Nat.sub_add_cancel (by omega), ← he, hprev]
        rw [h3, hprev, hat]
        rw [hprev, hat] at h3
        have : e.take 1 = [a] := by rw [h3]; simp
        simp [this]
      refine ⟨_, ?_, hdel ((c, s.prev ++ s.prev.take 1) :: s.table) ?_ ?_ ?_, hbits _⟩
      · rw [decompCode, h.none c (by omega)]
        simp only
        rw [if_neg (by simp [hcn, hprev]; simpa [List.getD_eq_getElem?_getD] using hpp), hee]
      · intro c' hc'; rw [tableLookup_cons, if_neg (by simp only; omega)]; exact h.seeds c' hc'
      · intro i hi; rw [tableLookup_cons, if_neg (by simp only; omega)]; exact h.entries i hi
      · intro c' hc'; rw [if_neg hk0] at hc'; rw [tableLookup_cons, if_neg (by simp only; omega)]; exact h.none c' (by omega)

theorem msbBits_length (v w : Nat) : (msbBits v w).length = w := by
  induction w with
  | zero => rfl
  | succ w ih => simp [msbBits, ih]

/-- Bits written most significant first are read back below the width (R205, R560). -/
theorem foldMsb_msbBits (v w : Nat) : foldMsb 0 (msbBits v w) = v % 2 ^ w := by
  induction w with
  | zero => simp [msbBits, foldMsb, Nat.mod_one]
  | succ w ih =>
    simp only [msbBits, foldMsb]
    rw [foldMsb_eq, ih, msbBits_length, Nat.testBit_eq_decide_div_mod_eq, pow_succ, Nat.mod_mul]
    rcases Nat.mod_two_eq_zero_or_one (v / 2 ^ w) with h | h
    · simp [h]
    · simp [h]; ring

/-- decompress's loop gives back the patterns of a parse whose codes come at the decoder's widths. -/
theorem decompLoop_parse {ps : List Pattern} (hne : ∀ p ∈ ps, p ≠ []) (pad : Bits) (hpad : pad.length < 9) (hps : ps.length ≤ 65280)
    (codes : List (Nat × Nat)) : ∀ (k : Nat) (s : Decomp) (fuel : Nat), Parsed ps k s → k + codes.length = ps.length →
    (∀ i, (h : i < codes.length) → ParseCode ps (k + i) (codes[i]).1 ∧ (codes[i]).1 < 2 ^ (codes[i]).2 ∧ (codes[i]).2 = bitlen (256 + (k + i))) →
    s.bits = codeBits codes ++ pad → s.bits.length ≤ fuel → decompLoop fuel s = .ok ps.flatten := by
  induction codes with
  | nil =>
    intro k s fuel h hk _ hb hf
    have hb : s.bits = pad := by simpa [codeBits] using hb
    have hout : s.out = ps.flatten := by rw [h.out, List.take_of_length_le (by simp at hk; omega)]
    have hw : 9 ≤ s.width := by rw [h.width, h.count]; exact bitlen_256 ▸ bitlen_mono (by omega)
    cases fuel with
    | zero => rw [decompLoop, hout]
    | succ n => rw [decompLoop, if_pos (by rw [hb]; omega), hout]
  | cons c codes ih =>
    intro k s fuel h hk hcodes hb hf
    obtain ⟨h1, h2, h3⟩ := hcodes 0 (by simp)
    simp only [List.getElem_cons_zero, Nat.add_zero] at h1 h2 h3
    simp only [List.length_cons] at hk
    have hw : s.width = c.2 := by rw [h.width, h.count, h3]
    have hw16 : c.2 ≤ 16 := by rw [h3]; exact bitlen_le_16 (by omega)
    have hw9 : 9 ≤ c.2 := by rw [h3]; exact bitlen_256 ▸ bitlen_mono (by omega)
    have hb' : s.bits = msbBits c.1 c.2 ++ (codeBits codes ++ pad) := by
      rw [hb]; simp [codeBits]
    have hl := congrArg List.length hb'
    rw [List.length_append, msbBits_length] at hl
    cases fuel with
    | zero => omega
    | succ n =>
      rw [decompLoop, if_neg (by omega), if_neg (by simp only [Config.wMax]; omega), hb', hw, List.take_left' (msbBits_length _ _), foldMsb_msbBits, Nat.mod_eq_of_lt h2]
      obtain ⟨s', h4, h5, h6⟩ := parsed_step h hne (by omega) h1
      rw [h4]
      simp only
      refine ih (k+1) s' n h5 (by omega) ?_ ?_ ?_
      · intro i hi
        have := hcodes (i + 1) (by simp; omega)
        simp only [List.getElem_cons_succ] at this
        rwa [show k + 1 + i = k + (i + 1) by omega]
      · rw [h6, hb', hw, List.drop_left' (msbBits_length _ _)]
      · rw [h6, List.length_drop]; omega

/-- The bits of the packed stream are the bits packed, then fewer than 8 of padding (R211). -/
theorem packedStream_unpack (f : Fill) (bits : Bits) : ∃ pad, pad.length < 8 ∧ (packedStream f bits).flatMap (bitsOf f) = bits ++ pad := by
  have h1 := drainBytes_bits f bits.length bits
  have h2 := drainBytes_rest_lt f bits.length bits le_rfl
  have h3 := packedStream_bytes f (drainBytes f bits.length bits).1 _ h2
  rw [h1] at h3
  set by_ := (drainBytes f bits.length bits).1
  set pk := (drainBytes f bits.length bits).2
  by_cases hp : pk.length = 0
  · have : pk = [] := List.length_eq_zero_iff.1 hp
    refine ⟨[], by simp, ?_⟩
    rw [h3, if_pos hp, ← h1, this]; simp
  · refine ⟨List.replicate (8 - pk.length) false, by simp; omega, ?_⟩
    rw [h3, if_neg hp, List.flatMap_append, ← h1, List.append_assoc]
    congr 1
    rw [List.flatMap_singleton, bitsOf_padByte f (by omega)]

end Sys2Proof.Machine
end

