-- ==== Sys2Proof/Tests/Slice0.lean ====
section
/-!
SUPPORT. Tests with expected results from the spec's encodings, examples and vectors (30_encoding.md,
95_test_vectors.md), and for every statement with hypotheses states and operands that meet them.
-/

namespace Sys2Proof.Tests

open Sys2Proof.Machine

-- One theorem after the other: a kernel evaluation in each of many threads takes more memory than the host gives.
set_option Elab.async false

/-! ### WellFormed: ill-formed terms are refused, terms at the edge of the ranges are not (R311, R313) -/

theorem test_wf_pkCode_width_8 : WellFormed (.pkCode 0 8) = false := by decide
theorem test_wf_pkCode_width_17 : WellFormed (.pkCode 0 17) = false := by decide
theorem test_wf_pkCode_value_512_at_9 : WellFormed (.pkCode 512 9) = false := by decide
theorem test_wf_pkCode_edges : WellFormed (.pkCode 511 9) = true ∧ WellFormed (.pkCode 65535 16) = true := by decide
theorem test_wf_upTake_width_8 : WellFormed (.upTake 8) = false := by decide
theorem test_wf_upTake_width_17 : WellFormed (.upTake 17) = false := by decide
theorem test_wf_upTake_edges : WellFormed (.upTake 9) = true ∧ WellFormed (.upTake 16) = true := by decide

/-! ### Decoding of words written out from R301, R310, R312, R314 -/

theorem test_decode_setCap : decode (.command 0b00010000000000000010011100010000) = .ok (.setCap 10000) := by decide
theorem test_decode_encStart : decode (.command 0b00100000000000000000000000000000) = .ok .encStart := by decide
theorem test_decode_encSym : decode (.command 0b00110000000000000000000001000001) = .ok (.encSym 0x41) := by decide
theorem test_decode_encEnd : decode (.command 0b01000000000000000000000000000000) = .ok .encEnd := by decide
theorem test_decode_decStart : decode (.command 0b01010000000000000000000000000000) = .ok .decStart := by decide
theorem test_decode_decByte : decode (.command 0b01100000000000000000000011001000) = .ok (.decByte 0xC8) := by decide
theorem test_decode_decEnd : decode (.command 0b01110000000000000000000000000000) = .ok .decEnd := by decide
theorem test_decode_pkCode : decode (.packer 0b0010010000000001000001) = .ok (.pkCode 65 9) := by decide
theorem test_decode_pkFlush : decode (.packer 0b1000000000000000000000) = .ok .pkFlush := by decide
theorem test_decode_upPush : decode (.unpacker 0b000000000000000000000100) = .ok (.upPush 4) := by decide
theorem test_decode_upTake : decode (.unpacker 0b010010010000000000000000) = .ok (.upTake 9) := by decide
theorem test_decode_upDrop : decode (.unpacker 0b100000000000000000000000) = .ok .upDrop := by decide
theorem test_decode_csrRead : decode (.csr 0b00101000) = .ok (.csrRead 0x28) := by decide

/-- V-C1 to V-C6: illegal command words. -/
theorem test_decode_illegal_commands :
    decode (.command 0x00000000) = .error .illegalOp ∧ decode (.command 0x30000141) = .error .operandBits ∧
    decode (.command 0x21000000) = .error .reservedBits ∧ decode (.command 0x80000000) = .error .illegalOp ∧
    decode (.command 0x20000001) = .error .operandBits ∧ decode (.command 0x1001FFFF) = .error .reservedBits := by
  decide

/-- R311, R312: channel words outside the tables. -/
theorem test_decode_illegal_channel_words :
    decode (.packer 0x200001) = .error .flushOperand ∧ decode (.unpacker 0xC00000) = .error .reservedUop ∧
    decode (.unpacker 0x200000) = .error .unusedField ∧ decode (.unpacker 0x000100) = .error .unusedField ∧
    decode (.unpacker 0x490001) = .error .unusedField ∧ decode (.unpacker 0x800001) = .error .unusedField := by
  decide

/-- The table's words: 32 bits a command, 22 a packer word, 24 a channel word, 8 a CSR address. -/
theorem test_decodeTableWord :
    decodeTableWord 32 0x30000041 = some (.encSym 0x41) ∧ decodeTableWord 24 0x090041 = some (.pkCode 65 9) ∧
    decodeTableWord 22 0x090041 = some (.pkCode 65 9) ∧ decodeTableWord 24 0x200000 = some .pkFlush ∧
    decodeTableWord 24 0x490000 = some (.upTake 9) ∧ decodeTableWord 24 0x000004 = some (.upPush 4) ∧
    decodeTableWord 8 0x28 = some (.csrRead 0x28) ∧ decodeTableWord 32 0 = none := by
  decide

/-- R320 to R323: text lines. -/
theorem test_assembleLine :
    assembleLine "ENC_SYM 'A'".toList = some [0x30000041] ∧
    assembleLine "  DEC_BYTE   0xC8 ; a comment".toList = some [0x600000C8] ∧
    assembleLine "ENC_SYM 256".toList = none ∧ assembleLine "enc_start".toList = none ∧
    assembleLine "COMPRESS_CAP 257, \"AB\"".toList =
      some [0x10000101, 0x20000000, 0x30000041, 0x30000042, 0x40000000] ∧
    assembleLine "DECOMPRESS 0x04, 0x01".toList = some [0x50000000, 0x60000004, 0x60000001, 0x70000000] := by
  decide +kernel

/-- R321 and R322 with quoted commas, semicolons and quotes (0x2C, 0x3B, 0x27, 0x22: ASCII), at the points of log 21. -/
theorem test_assembleLine_quotes :
    assembleLine "DEC_BYTES ',' , 0x01,';' ; it's".toList = some [0x6000002C, 0x60000001, 0x6000003B] ∧
    assembleLine "COMPRESS_CAP ',', \"A,';\" ; x".toList =
      some [0x1000002C, 0x20000000, 0x30000041, 0x3000002C, 0x30000027, 0x3000003B, 0x40000000] ∧
    assembleLine "ENC_SYM ''' ; a comment".toList = some [0x30000027] ∧
    assembleLine "ENC_SYM '\"' ; a comment".toList = some [0x30000022] ∧
    assembleLine "DEC_BYTES 1, 256".toList = none := by
  decide +kernel

/-! ### States for the tests -/

/-- Both operations just begun, with the cap of reset (R610, R700). -/
def begun : State := { State.reset with enc := startEncoder 10000 Enc.reset, dec := startDecoder Dec.reset }

/-- A compress operation just begun with this cap. -/
def begunCap (v : BitVec 16) : State := { begun with enc := startEncoder v Enc.reset }

/-- `begun` after one ENC_SYM x: the pattern is [x] (R620 (a)). -/
def afterSym (v : BitVec 16) (x : Byte) : State := { begun with enc := { startEncoder v Enc.reset with pattern := [x] } }

/-- A decoder whose DTAB has n entries, each the low byte of its code, after n - 255 codes, with these pending bits. -/
def filled (n : Nat) (up : Bits) : Dec :=
  { startDecoder Dec.reset with
    table := (List.range n).map fun k => (BitVec.ofNat 16 k, [BitVec.ofNat 8 k])
    next := BitVec.ofNat 17 n
    count := BitVec.ofNat 17 (n + 1)
    width := BitVec.ofNat 5 (bitlen (n + 1))
    prev := [0x41]
    upBits := up }

/-- `begun` with such a decoder. -/
def decoding (n : Nat) (up : Bits) : State := { begun with dec := filled n up }

/-- What a next state shows. -/
def seen {α : Type} (f : State → α) : Result → Option α
  | .next s => some (f s)
  | .fault _ => none
  | .refused _ => none

theorem of_seen {α : Type} {f : State → α} {r : Result} {a : α} (h : seen f r = some a) : ∃ t, r = .next t ∧ f t = a := by
  cases r with
  | next t => exact ⟨t, rfl, Option.some.inj h⟩
  | fault x => cases h
  | refused x => cases h

/-! ### One step per instruction -/

/-- V-C7. -/
theorem test_setCap : seen (csrValue 0x04) (acceptWord (.command 0x1000FFFF) State.reset) = some 0xFFFF := by
  decide +kernel
/-- V-E14: the operation under way keeps the cap it latched. -/
theorem test_setCap_during_operation :
    seen (fun t => (csrValue 0x04 t, csrValue 0x08 t)) (exec (.setCap 0) begun) = some (0, 10000) := by decide +kernel

/-- V-R4. -/
theorem test_encStart_cap_0 :
    seen (csrValue 0x00) (exec .encStart { State.reset with ctrl.cap := 0 }) = some 0x09 := by decide +kernel
/-- R611: the pending bit and the pattern are dropped, the bytes out stay. -/
theorem test_encStart_restarts :
    seen (fun t => (t.enc.out, t.enc.pkBits, t.enc.pattern))
      (exec .encStart { begun with enc := { begun.enc with out := [4], pkBits := [true], pattern := [0x42] } }) =
        some ([4], [], []) := by decide +kernel

/-- R620's example: "T" then 'O' emits 84 at width 9, the pattern is "O" and "TO" is 256. -/
theorem test_encSym_miss :
    seen (fun t => (t.enc.out, t.enc.pkBits, t.enc.pattern, t.enc.count, etabLookup [0x54, 0x4F] t.enc.table))
      (acceptWord (.command 0x3000004F) (afterSym 10000 0x54)) =
        some ([0x54], [false], [0x4F], 257, some 256) := by decide +kernel
/-- V-T6: with cap 0 the code still goes out and nothing is inserted. -/
theorem test_encSym_at_cap :
    seen (fun t => (t.enc.out, t.enc.pattern, t.enc.count, t.enc.table == etabSeed))
      (exec (.encSym 0x4F) (afterSym 0 0x54)) = some ([0x54], [0x4F], 256, true) := by decide +kernel

/-- R630's example. -/
theorem test_encEnd :
    seen (fun t => (t.enc.out, t.enc.active)) (exec .encEnd (afterSym 10000 0x41)) = some ([0x04, 0x01], false) := by
  decide +kernel
/-- V-E16: ENC_END outside an operation. -/
theorem test_encEnd_outside :
    seen (fun t => (csrValue 0x00 t, csrValue 0x30 t)) (exec .encEnd State.reset) = some (0x24, 0x40000000) := by
  decide +kernel

/-- R700's example. -/
theorem test_decStart :
    seen (fun t => (csrValue 0x1C t, csrValue 0x20 t, csrValue 0x24 t, csrValue 0x2C t))
      (exec .decStart (decoding 300 [true])) = some (0x100, 0x100, 9, 0) := by decide +kernel

/-- R710's example: the second byte completes code 65. -/
theorem test_decByte_first_code :
    seen (fun t => (t.dec.out, csrValue 0x2C t, csrValue 0x20 t, csrValue 0x1C t))
      (exec (.decByte 0x01) { begun with dec.upBits := bitsOf .lsbFirst 0x04 }) = some ([0x41], 7, 257, 256) := by
  decide +kernel
/-- V-D4's last byte: code 256 is the KwK code, and "AA" goes out. -/
theorem test_decByte_kwk :
    seen (fun t => (t.dec.out, dtabLookup 256 t.dec.table, csrValue 0x1C t, csrValue 0x20 t, csrValue 0x2C t))
      (exec (.decByte 0x00) (decoding 256 [true, false, false, false, false, false, false])) =
        some ([0x41, 0x41], some [0x41, 0x41], 257, 258, 6) := by decide +kernel

/-- V-D2, then DEC_END. -/
theorem test_decEnd :
    seen (fun t => (csrValue 0x2C t, csrValue 0x20 t, csrValue 0x00 t))
      (exec .decEnd { decoding 256 (List.replicate 7 false) with enc.active := false }) = some (0, 257, 0) := by
  decide +kernel
/-- V-D19: DEC_END outside an operation. -/
theorem test_decEnd_outside :
    seen (fun t => (csrValue 0x00 t, csrValue 0x30 t)) (exec .decEnd State.reset) = some (0x34, 0x70000000) := by
  decide +kernel

/-- V-P1. -/
theorem test_pkCode_65_9 :
    seen (fun t => (t.enc.out, t.enc.pkBits)) (exec (.pkCode 65 9) State.reset) = some ([0x04], [true]) := by
  decide +kernel
/-- V-P4. -/
theorem test_pkCode_16_bits :
    seen (fun t => (t.enc.out, t.enc.pkBits)) (exec (.pkCode 0x1234 16) State.reset) = some ([0x48, 0x2C], []) := by
  decide +kernel

/-- V-P2. -/
theorem test_pkFlush :
    seen (fun t => (t.enc.out, t.enc.pkBits)) (exec .pkFlush { State.reset with enc.pkBits := [true] }) =
      some ([0x01], []) := by decide +kernel
/-- V-P8. -/
theorem test_pkFlush_empty : seen (fun t => t.enc.out) (exec .pkFlush State.reset) = some [] := by decide +kernel

/-- V-U1. -/
theorem test_upPush :
    seen (fun t => t.dec.upBits) (exec (.upPush 0x04) State.reset) =
      some [false, false, true, false, false, false, false, false] := by decide +kernel

/-- V-U2. -/
theorem test_upTake :
    seen (fun t => (t.ports.takeAnswers, t.dec.upBits))
      (exec (.upTake 9) { State.reset with dec.upBits := [0x04, 0x01].flatMap (bitsOf .lsbFirst) }) =
        some ([0x10041], List.replicate 7 false) := by decide +kernel
/-- V-U3 is the operation's response; the word on its own is refused (R313, X11). -/
theorem test_upTake_too_few :
    (takeAnswer (unpackTake 9 { Dec.reset with upBits := List.replicate 8 true }).1 = 0 ∧
      (unpackTake 9 { Dec.reset with upBits := List.replicate 8 true }).2.upBits = List.replicate 8 true) ∧
    seen (fun t => t.ports.takeAnswers)
      (exec (.upTake 9) { State.reset with dec.upBits := List.replicate 8 true }) = none := by decide +kernel

/-- V-U6. -/
theorem test_upDrop :
    seen (fun t => t.dec.upBits) (exec .upDrop { State.reset with dec.upBits := List.replicate 7 true }) = some [] := by
  decide +kernel

/-- V-R1, V-R2. -/
theorem test_csrRead_values :
    [0x00, 0x04, 0x08, 0x0C, 0x10, 0x14, 0x18, 0x1C, 0x20, 0x24, 0x28, 0x2C, 0x30].map (csrValue · State.reset) =
      [0, 0x2710, 0x2710, 0x100, 9, 0, 0, 0x100, 0x100, 9, 0x4C5A5701, 0, 0] := by decide +kernel
/-- V-R3, and V-R5 in a halted state. -/
theorem test_csrRead_unlisted :
    [0x01, 0x34, 0xFF].map (csrValue · begun) = [0, 0, 0] ∧
    seen (fun t => t.ports.csrAnswers) (exec (.csrRead 0x28) { State.reset with ctrl.halted := true }) =
      some [0x4C5A5701] := by decide +kernel

/-- V-C2: an illegal word during an operation. -/
theorem test_illegal_word :
    seen (fun t => (csrValue 0x00 t, csrValue 0x30 t, csrValue 0x14 t))
      (acceptWord (.command 0x30000141) { State.reset with enc := startEncoder 10000 Enc.reset }) =
        some (0x15, 0x30000141, 0) := by decide +kernel
/-- V-C1: the command after it is dropped. -/
theorem test_halted_drops :
    seen (fun t => (csrValue 0x00 t, csrValue 0x30 t)) (acceptAll (([0, 0x20000000] : List CmdWord).map fun w => .word (.command w)) State.reset) =
      some (0x14, 0) := by decide +kernel
/-- V-C10: reset clears the fault. -/
theorem test_reset_event :
    seen (fun t => (csrValue 0x00 t, csrValue 0x04 t)) (acceptEvent (.reset [0]) { begunCap 0 with ctrl.halted := true }) =
      some (0, 0x2710) := by decide +kernel
/-- `withFetchWord` puts the word where the next step takes it. -/
theorem test_withFetchWord : seen (csrValue 0x04) (step (State.reset.withFetchWord 32 0x10000000)) = some 0 := by
  decide +kernel

/-! ### The whole operations as algorithms (R650, R750) -/

/-- V-E5, V-E6 and V-E10 for both values of FILL. -/
theorem test_compress :
    compress .lsbFirst [0x41, 0x42] 10000 = [0x04, 0x09, 0x01] ∧ compress .msbFirst [0x41, 0x42] 10000 = [0x20, 0x90, 0x80] ∧
    compress .lsbFirst [0x41, 0x41, 0x41] 10000 = [0x04, 0x03, 0x00] ∧
    compress .msbFirst [0x41, 0x42, 0x41, 0x42] 0 = [0x20, 0x90, 0x88, 0x24, 0x20] := by decide +kernel
/-- V-E9, the classic string. -/
theorem test_compress_tobeornot :
    (compCodes [84, 79, 66, 69, 79, 82, 78, 79, 84, 84, 79, 66, 69, 79, 82, 84, 79, 66, 69, 79, 82, 78, 79, 84] 10000).map
      Prod.fst = [84, 79, 66, 69, 79, 82, 78, 79, 84, 256, 258, 260, 265, 259, 261, 263] := by decide +kernel
/-- V-D5, V-D12 and V-D13. -/
theorem test_decompress :
    decompress .lsbFirst [0x04, 0x03, 0x04, 0x24, 0x08] = .ok (List.replicate 7 0x41) ∧
    decompress .lsbFirst [0x01, 0x00] = .error .decBadCode ∧
    decompress .lsbFirst [0x04, 0xD3, 0x00] = .error .decBadCode := by decide +kernel

/-! ### States that meet the invariants -/

theorem begun_encInv (v : BitVec 16) : EncInv (begunCap v).enc := encInv_seeded rfl rfl rfl rfl rfl

theorem afterSym_encInv (v : BitVec 16) (x : Byte) : EncInv (afterSym v x).enc :=
  encInv_pattern (begun_encInv v) rfl ⟨_, etabLookup_seed x⟩

theorem begun_decInv : DecInv begun.dec := decInv_seeded rfl rfl rfl rfl rfl rfl

/-- The same with fewer than 9 bits pending. -/
theorem begun_pending_decInv {up : Bits} (h : up.length < 9) : DecInv { begun.dec with upBits := up } :=
  have d := begun_decInv
  ⟨d.rises, d.domain, d.seeds, d.nonEmpty, d.lengths, d.previous, d.counted, d.next, d.first, d.width, fun _ => h,
    fun h => by cases h⟩

theorem begun_inv : Inv begun :=
  ⟨⟨fun _ => ⟨rfl, rfl⟩, fun h => by cases h⟩, encInv_seeded rfl rfl rfl rfl rfl, begun_decInv, fun _ h => by cases h⟩

theorem filled_decInv {n : Nat} (h1 : 256 ≤ n) (h2 : n ≤ 65535) {up : Bits} (hup : up.length < bitlen (n + 1)) :
    DecInv (filled n up) := by
  have hn : (BitVec.ofNat 17 n).toNat = n := by simp; omega
  have hc : (BitVec.ofNat 17 (n + 1)).toNat = n + 1 := by simp; omega
  have hr := bitlen_range (n := n + 1) (by omega) (by omega)
  have hw : (BitVec.ofNat 5 (bitlen (n + 1))).toNat = bitlen (n + 1) := by simp; omega
  have inj : ∀ i < n, ∀ j < n, BitVec.ofNat 16 j = BitVec.ofNat 16 i → j = i := by
    intro i hi j hj h
    have := congrArg BitVec.toNat h
    simp only [BitVec.toNat_ofNat] at this
    omega
  have look : ∀ c : Code, c.toNat < n → dtabLookup c (filled n up).table = some [BitVec.ofNat 8 c.toNat] := fun c h =>
    tableLookup_map_range c (fun k => BitVec.ofNat 16 k) (fun k => [BitVec.ofNat 8 k]) n c.toNat h (by simp)
      (inj c.toNat h)
  have past : ∀ c : Code, n ≤ c.toNat → dtabLookup c (filled n up).table = none := fun c h =>
    tableLookup_map_range_none c (fun k => BitVec.ofNat 16 k) (fun k => [BitVec.ofNat 8 k]) n fun j hj e => by
      have := congrArg BitVec.toNat e
      simp only [BitVec.toNat_ofNat] at this
      omega
  have some_of : ∀ c p, dtabLookup c (filled n up).table = some p → p = [BitVec.ofNat 8 c.toNat] := by
    intro c p h
    rcases Nat.lt_or_ge c.toNat n with hlt | hge
    · rw [look c hlt] at h; exact (Option.some.inj h).symm
    · rw [past c hge] at h; cases h
  constructor
  · refine List.pairwise_map.2 (List.Pairwise.imp_of_mem ?_ List.pairwise_lt_range)
    intro a b ha hb hab
    have ha : a < n := List.mem_range.1 ha
    have hb : b < n := List.mem_range.1 hb
    simp only [codeLt, decide_eq_true_eq, BitVec.toNat_ofNat]
    omega
  · intro c
    change _ ↔ c.toNat < (BitVec.ofNat 17 n).toNat
    rw [hn]
    constructor
    · intro h
      by_contra hge
      exact h (past c (by omega))
    · intro h; rw [look c h]; exact Option.some_ne_none _
  · intro b
    have hb := b.isLt
    have : (b.setWidth 16).toNat = b.toNat := by simp; omega
    rw [look _ (by omega), this]; simp
  · intro c p h; rw [some_of c p h]; simp
  · intro c p h; rw [some_of c p h]; simp
  · exact .inr ⟨0x41, look 0x41 (by change 0x41 < n; omega)⟩
  · change 256 ≤ (BitVec.ofNat 17 (n + 1)).toNat ∧ (BitVec.ofNat 17 (n + 1)).toNat ≤ 65536
    omega
  · change (BitVec.ofNat 17 n).toNat = 256 + ((BitVec.ofNat 17 (n + 1)).toNat - 257)
    omega
  · intro _
    change [0x41] = [] ↔ (BitVec.ofNat 17 (n + 1)).toNat = 256
    rw [hc]
    constructor
    · intro h; cases h
    · intro h; omega
  · change (BitVec.ofNat 5 (bitlen (n + 1))).toNat = bitlen (BitVec.ofNat 17 (n + 1)).toNat
    rw [hw, hc]
  · intro _
    change up.length < (BitVec.ofNat 5 (bitlen (n + 1))).toNat
    rw [hw]; exact hup
  · intro h; cases h

theorem decoding_inv {n : Nat} (h1 : 256 ≤ n) (h2 : n ≤ 65535) {up : Bits} (hup : up.length < bitlen (n + 1)) :
    Inv (decoding n up) :=
  ⟨begun_inv.ctrl, begun_inv.enc, filled_decInv h1 h2 hup, begun_inv.inputs⟩

/-- The width 17 of `dec_width`, after 65280 codes (R126, R713). -/
theorem filled_width_17 (up : Bits) : (filled 65535 up).width = 17 := by
  have : bitlen (65535 + 1) = 17 := by decide
  change BitVec.ofNat 5 (bitlen (65535 + 1)) = 17
  rw [this]; rfl

/-! ### Witnesses: for each statement with hypotheses, a state and operands that meet them together -/

theorem witness_EncodeUndoesDecode : ∃ (p : PortWord) (i : Instr), decode p = .ok i := ⟨_, _, test_decode_pkCode⟩

theorem witness_CommandWordsMatchTheirRow :
    encode (.setCap 65535) = .command 0x1000FFFF ∧ encode (.decByte 255) = .command 0x600000FF ∧
    decode (.command 0x1000FFFF) = .ok (.setCap 65535) ∧ decode (.command 0x300000FF) = .ok (.encSym 255) ∧
    decode (.command 0x600000FF) = .ok (.decByte 255) := by decide

theorem witness_LegalCommandWordsAre66052 :
    encode (.encSym 0) = .command 0x30000000 ∧ rowMatches (rowOf (.encSym 0)) (0x300000FF : CmdWord).toNat = true := by
  decide

/-- The first and the last OP of each range, the ends of RSV, and the ends of the unused part of IMM. -/
theorem witness_IllegalWordsTakeIllegal :
    Running State.reset ∧
    ∀ w ∈ ([0x00000000, 0x80000000, 0xF0000000, 0x10010000, 0x18000000, 0x30000100, 0x30008000, 0x60000100, 0x60008000,
      0x20000001, 0x20008000, 0x40000001, 0x50000001, 0x70008000] : List CmdWord), IllegalWord w := by
  refine ⟨rfl, ?_⟩
  simp only [List.forall_mem_cons, List.not_mem_nil, false_implies, implies_true, and_true]
  refine ⟨?_, ?_, ?_, ?_, ?_, ?_, ?_, ?_, ?_, ?_, ?_, ?_, ?_, ?_⟩ <;> unfold IllegalWord <;> decide

theorem witness_PseudoInstructionsExpand : (∀ c ∈ [0, 255], c ≤ 255) ∧ 65535 ≤ 65535 := by decide

/-- A word for each cause. -/
theorem witness_FaultEntryWritesOnlyTheRecord :
    ([(0x00000000, State.reset, 1), (0x30000041, State.reset, 2), (0x40000000, State.reset, 2),
      (0x60000004, State.reset, 3), (0x70000000, State.reset, 3),
      (0x60000000, { begun with dec.upBits := bitsOf .lsbFirst 0x01 }, 4),
      (0x60000000, { begun with dec := { begun.dec with width := 17, upBits := List.replicate 9 false } }, 5)] :
      List (CmdWord × State × BitVec 4)).all (fun x => x.2.1.ctrl.halted == false &&
        (seen (fun t => (t.ctrl.halted, t.ctrl.faultCause)) (acceptWord (.command x.1) x.2.1) == some (true, x.2.2))) =
      true := by decide +kernel

/-- Causes 1, 3 and 4 from invariant states; 2 below in an idle encoder, 5 at the width 17. -/
theorem witness_FaultCausesAreRaisedAsListed_illegal :
    Inv begun ∧ Running begun ∧ ∃ t, acceptWord (.command 0) begun = .next t ∧ t.ctrl.halted = true :=
  ⟨begun_inv, rfl, _, rfl, rfl⟩

theorem begun_idle_inv :
    Inv { begun with enc := endEncoder begun.enc, dec := endDecoder begun.dec } :=
  ⟨begun_inv.ctrl, encInv_endEncoder begun_inv.enc, decInv_endDecoder begun_inv.dec, begun_inv.inputs⟩

theorem witness_FaultCausesAreRaisedAsListed_seq :
    ∃ s, Inv s ∧ Running s ∧ (∃ t, acceptWord (.command 0x40000000) s = .next t ∧ t.ctrl.faultCause = 2) ∧
      ∃ t, acceptWord (.command 0x60000004) s = .next t ∧ t.ctrl.faultCause = 3 :=
  ⟨_, begun_idle_inv, rfl, ⟨_, rfl, rfl⟩, ⟨_, rfl, rfl⟩⟩

/-- V-D14: the code 257 while `dec_next` is 256. -/
theorem witness_FaultCausesAreRaisedAsListed_badCode :
    Inv (decoding 256 [true, false, false, false, false, false, false]) ∧
    ∃ t, acceptWord (.command 0x60000002) (decoding 256 [true, false, false, false, false, false, false]) = .next t ∧
      (t.ctrl.halted, t.ctrl.faultCause) = (true, 4) :=
  ⟨decoding_inv (by decide) (by decide) (by decide), of_seen (by decide +kernel)⟩

/-- V-D17: 9 bits pending and one byte more make 17. -/
theorem witness_FaultCausesAreRaisedAsListed_width :
    Inv (decoding 65535 (List.replicate 9 false)) ∧ Running (decoding 65535 (List.replicate 9 false)) ∧
    ∃ t, acceptWord (.command 0x60000000) (decoding 65535 (List.replicate 9 false)) = .next t ∧
      t.ctrl.halted = true ∧ t.ctrl.faultCause = 5 := by
  refine ⟨decoding_inv (by decide) (by decide) (by decide), rfl, ?_⟩
  have hd : decode (.command 0x60000000) = .ok (.decByte 0) := by decide
  have hw : (decoding 65535 (List.replicate 9 false)).dec.width.toNat = 17 := by
    change (filled 65535 _).width.toNat = 17
    rw [filled_width_17]; rfl
  rcases decodeByte_cases 0 (decoding 65535 (List.replicate 9 false)).dec with ⟨h, _⟩ | ⟨_, _, h⟩ | ⟨_, h, _⟩
  · rw [hw] at h; exact absurd h (by decide)
  · rw [acceptWord_of_decode hd, exec, execDecByte, whenDecoding_of_active rfl rfl, h]
    exact ⟨_, rfl, rfl, rfl⟩
  · rw [hw] at h; exact absurd h (by decide)

theorem witness_HaltedBlockDropsCommands :
    ∃ s t : State, s.ctrl.halted = true ∧ acceptEvent (.reset []) s = .next t :=
  ⟨{ State.reset with ctrl.halted := true }, _, rfl, rfl⟩

theorem witness_CommandsOutsideAnOperationFault :
    Running State.reset ∧ State.reset.enc.active = false ∧ State.reset.dec.active = false := ⟨rfl, rfl, rfl⟩

theorem witness_CsrMapShowsTheRegisters : Inv begun ∧ Inv (decoding 65535 (List.replicate 16 true)) :=
  ⟨begun_inv, decoding_inv (by decide) (by decide) (by decide)⟩

theorem witness_UnlistedCsrAddressesReadZero :
    ∀ a ∈ ([0x01, 0x03, 0x31, 0x34, 0xFF] : List (BitVec 8)),
      a.toNat ∉ [0x00, 0x04, 0x08, 0x0C, 0x10, 0x14, 0x18, 0x1C, 0x20, 0x24, 0x28, 0x2C, 0x30] := by decide

theorem witness_SetCapWritesTheCapOnly :
    Running begun ∧ EncInv (begunCap 0).enc ∧ (begunCap 0).enc.cap = 0 ∧ EncInv (begunCap 256).enc ∧
    (begunCap 256).enc.cap = 256 := ⟨rfl, begun_encInv 0, rfl, begun_encInv 256, rfl⟩

theorem witness_CapIsWrittenOnlyBySetCapAndReset :
    (∃ t, acceptEvent (.word (.command 0x10000000)) begun = .next t ∧ t.ctrl.cap ≠ begun.ctrl.cap) ∧
    ∃ s t : State, acceptEvent (.reset []) s = .next t ∧ t.ctrl.cap ≠ s.ctrl.cap :=
  ⟨⟨_, rfl, by decide⟩, { begun with ctrl.cap := 0 }, _, rfl, by decide⟩

theorem witness_EncStartBeginsAnOperation : Running State.reset ∧ Running begun := ⟨rfl, rfl⟩

/-- The first symbol; a miss below the cap, at the cap 257 of V-E15 and at the cap 256. -/
theorem witness_EncSymMatchesOrEmits :
    Running State.reset ∧ State.reset.enc.active = false ∧
    ((begunCap 256).enc.active = true ∧ EncInv (begunCap 256).enc ∧ (begunCap 256).enc.pattern = []) ∧
    (∀ v ∈ ([0, 256, 257, 65535] : List (BitVec 16)), Running (afterSym v 0x54) ∧ EncInv (afterSym v 0x54).enc ∧
      etabLookup ((afterSym v 0x54).enc.pattern ++ [0x4F]) (afterSym v 0x54).enc.table = none) :=
  ⟨rfl, rfl, ⟨rfl, begun_encInv 256, rfl⟩, fun v _ => ⟨rfl, afterSym_encInv v 0x54, etabLookup_seed_none (p := [0x54, 0x4F]) (by decide)⟩⟩

theorem witness_EncEndFlushes :
    Running begun ∧ begun.enc.active = true ∧ EncInv begun.enc ∧ begun.enc.pattern = [] ∧
    EncInv (afterSym 10000 0x41).enc ∧ (afterSym 10000 0x41).enc.pattern ≠ [] :=
  ⟨rfl, rfl, begun_inv.enc, rfl, afterSym_encInv _ _, by decide⟩

theorem witness_TableNeverExceedsTheCap :
    EncInv (begunCap 256).enc ∧ EncInv (begunCap 257).enc ∧ Running State.reset :=
  ⟨begun_encInv 256, begun_encInv 257, rfl⟩

/-- Every register of the encoder changed by some event. -/
theorem witness_EncoderRegistersAreWrittenAsListed :
    seen (fun t => (t.enc.active, t.enc.cap, t.enc.pattern)) (acceptEvent (.word (.command 0x20000000))
      { afterSym 0 0x54 with enc := { (afterSym 0 0x54).enc with active := false } }) = some (true, 10000, []) ∧
    seen (fun t => (t.enc.active, t.enc.out)) (acceptEvent (.word (.command 0x40000000)) (afterSym 0 0x54)) =
      some (false, [0x54, 0]) ∧
    seen (fun t => (t.enc.table == etabSeed, t.enc.count, t.enc.pkBits))
      (acceptEvent (.word (.command 0x3000004F)) (afterSym 10000 0x54)) = some (false, 257, [false]) := by
  decide +kernel

theorem witness_WidthsFollowTheClosedForm :
    (Inv begun ∧ step begun = .next begun) ∧
    Inv (decoding 65535 []) ∧ step (decoding 65535 []) = .next (decoding 65535 []) ∧
    (decoding 65535 []).dec.width = 17 ∧ ∃ u, exec (.decByte 0) { decoding 65535 [] with ctrl.halted := true } = .next u :=
  ⟨⟨begun_inv, rfl⟩, decoding_inv (by decide) (by decide) (by decide), rfl, filled_width_17 [], _, rfl⟩

theorem witness_WidthsNeverDecrease :
    Inv begun ∧ step begun = .next begun ∧ (∀ ws, begun.ports.input.head? ≠ some (.reset ws)) ∧
    begun.ports.input.head? ≠ some (.word (encode .encStart)) ∧
    begun.ports.input.head? ≠ some (.word (encode .decStart)) :=
  ⟨begun_inv, rfl, (by intro ws h; cases h), by decide, by decide⟩

theorem witness_StreamBitsFillBytes :
    0 < 8 * (([true] : Bits).length + 7) / 8 ∧ 7 < 8 * ((([true] : Bits).length + 7) / 8) ∧
    0 < ([4] : List Byte).length ∧ 7 < 8 := by decide

theorem witness_PkCodeSendsTheCodeBits :
    (9 ≤ (9 : BitVec 5).toNat ∧ (511 : Code).toNat < 2 ^ (9 : BitVec 5).toNat) ∧
    ((16 : BitVec 5).toNat ≤ 16 ∧ (65535 : Code).toNat < 2 ^ (16 : BitVec 5).toNat) ∧
    ¬ 9 ≤ (8 : BitVec 5).toNat ∧ ¬ (17 : BitVec 5).toNat ≤ 16 ∧ ¬ (512 : Code).toNat < 2 ^ (9 : BitVec 5).toNat ∧
    State.reset.enc.pkBits.length ≤ 7 := by decide

theorem witness_PkFlushPadsWithZeros :
    State.reset.enc.pkBits = [] ∧ (List.replicate 7 true ≠ [] ∧ (List.replicate 7 true).length ≤ 7) ∧ [true] ≠ [] := by
  decide

/-- A code of ETAB; a take at the width 9 with 1 bit pending before the byte, and at the width 16 with 8. -/
theorem witness_IllegalChannelWordsAreRefused :
    (EncInv begun.enc ∧ etabLookup [0xFF] begun.enc.table = some 255) ∧
    (DecInv (filled 256 [true]) ∧ (filled 256 [true]).width.toNat ≤ 1 + 8 ∧ (filled 256 [true]).width.toNat ≤ 16) ∧
    DecInv (filled 65534 (List.replicate 8 false)) ∧ (filled 65534 (List.replicate 8 false)).width.toNat = 16 :=
  ⟨⟨begun_inv.enc, etabLookup_seed 0xFF⟩, ⟨filled_decInv (by decide) (by decide) (by decide), by decide, by decide⟩,
    filled_decInv (by decide) (by decide) (by decide), by decide⟩

theorem witness_UpPushAppendsTheByteBits : DecInv (filled 65535 (List.replicate 16 true)) ∧
    (filled 65535 (List.replicate 16 true)).active = true :=
  ⟨filled_decInv (by decide) (by decide) (by decide), rfl⟩

theorem witness_UpTakeFoldsTheBits :
    (9 ≤ (9 : BitVec 5).toNat ∧ (9 : BitVec 5).toNat ≤ (List.replicate 9 true).length) ∧
    ((16 : BitVec 5).toNat ≤ 16 ∧ (16 : BitVec 5).toNat ≤ (List.replicate 16 true).length) ∧
    (List.replicate 8 true).length < (9 : BitVec 5).toNat ∧ ¬ 9 ≤ (8 : BitVec 5).toNat ∧ ¬ (17 : BitVec 5).toNat ≤ 16 := by
  decide

theorem witness_UpTakeInvertsPkCode :
    State.reset.enc.pkBits = [] ∧ State.reset.dec.upBits = [] ∧
    ∃ t, acceptAll (eventsOf [.pkCode 65 9, .pkFlush]) State.reset = .next t ∧ t.enc.out = State.reset.enc.out ++ [0x04, 0x01] :=
  ⟨rfl, rfl, of_seen (by decide +kernel)⟩

theorem witness_UpDropEmptiesTheUnpacker : DecInv (filled 256 (List.replicate 8 true)) ∧
    (filled 256 (List.replicate 8 true)).active = true :=
  ⟨filled_decInv (by decide) (by decide) (by decide), rfl⟩

/-- Too few bits; the first code; a later code at the width 9 (511 entries) and at the width 16. -/
theorem witness_DecByteDecodesAKnownCode :
    (Running begun ∧ begun.dec.active = true ∧ DecInv begun.dec ∧ begun.dec.upBits.length + 8 < begun.dec.width.toNat) ∧
    dtabLookup 65 begun.dec.table = some [0x41] ∧ DecInv { begun.dec with upBits := bitsOf Config.fill 0x04 } ∧
    ((65 : Code).toNat = ((bitsOf Config.fill 0x04 ++ bitsOf Config.fill 0x01).take 9).foldl
      (fun acc x => 2 * acc + x.toNat) 0) ∧
    DecInv (filled 510 [false]) ∧ (filled 510 [false]).width.toNat = 9 ∧
    DecInv (filled 65534 (List.replicate 8 false)) ∧ (filled 65534 (List.replicate 8 false)).width.toNat = 16 :=
  ⟨⟨rfl, rfl, begun_decInv, by decide +kernel⟩, dtabLookup_seed 65, begun_pending_decInv (by decide), by decide +kernel,
    filled_decInv (by decide) (by decide) (by decide), by decide, filled_decInv (by decide) (by decide) (by decide),
    by decide⟩

/-- V-D4's last byte. -/
theorem witness_KwkCodeIsSynthesised :
    let d := filled 256 [true, false, false, false, false, false, false]
    DecInv d ∧ d.active = true ∧ d.width.toNat ≤ d.upBits.length + 8 ∧ d.width.toNat ≤ 16 ∧
    (256 : Code).toNat = ((d.upBits ++ bitsOf Config.fill 0).take d.width.toNat).foldl
      (fun acc x => 2 * acc + x.toNat) 0 ∧
    dtabLookup 256 d.table = none ∧ (256 : Code).toNat = d.next.toNat ∧ d.prev = 0x41 :: [] :=
  ⟨filled_decInv (by decide) (by decide) (by decide), by decide +kernel⟩

/-- V-D14 (a code past `dec_next`) and V-D12 (the first code is 256). -/
theorem witness_BadCodeFaults :
    ((257 : Code).toNat = (([true, false, false, false, false, false, false] ++ bitsOf Config.fill 2).take
        (filled 256 []).width.toNat).foldl (fun acc x => 2 * acc + x.toNat) 0 ∧
      dtabLookup 257 (filled 256 []).table = none ∧ (257 : Code).toNat ≠ (filled 256 []).next.toNat ∧
      (filled 256 []).active = true ∧ (filled 256 []).width.toNat ≤ 7 + 8) ∧
    ((256 : Code).toNat = ((bitsOf Config.fill 1 ++ bitsOf Config.fill 0).take begun.dec.width.toNat).foldl
        (fun acc x => 2 * acc + x.toNat) 0 ∧
      dtabLookup 256 begun.dec.table = none ∧ begun.dec.prev = [] ∧ begun.dec.width.toNat ≤ 8 + 8) := by
  decide +kernel

/-- V-D16 and V-D17: 8 bits pending and 9. -/
theorem witness_SeventeenBitCodeFaults :
    ∀ n ≤ 16, DecInv (filled 65535 (List.replicate n false)) ∧ (filled 65535 (List.replicate n false)).active = true ∧
      (filled 65535 (List.replicate n false)).width = 17 :=
  fun n h => ⟨filled_decInv (by decide) (by decide)
    (by rw [List.length_replicate, show bitlen (65535 + 1) = 17 by decide]; omega), rfl, filled_width_17 _⟩

theorem witness_DecByteDecodesAtMostOneCode : Running begun ∧ begun.dec.active = true ∧ DecInv begun.dec :=
  ⟨rfl, rfl, begun_decInv⟩

theorem witness_DecEndDropsThePendingBits :
    (Running State.reset ∧ State.reset.dec.active = false) ∧
    Running begun ∧ (filled 256 (List.replicate 8 true)).active = true ∧ DecInv (filled 256 (List.replicate 8 true)) :=
  ⟨⟨rfl, rfl⟩, rfl, witness_UpDropEmptiesTheUnpacker.2, witness_UpDropEmptiesTheUnpacker.1⟩

/-- Every register of the decoder changed by some event. -/
theorem witness_DecoderRegistersAreWrittenAsListed :
    seen (fun t => (t.dec.active, t.dec.next, t.dec.prev, t.dec.upBits)) (acceptEvent (.word (.command 0x50000000))
      { begun with dec := { filled 300 [true] with active := false } }) = some (true, 256, [], []) ∧
    seen (fun t => (t.dec.active, t.dec.prev)) (acceptEvent (.word (.command 0x70000000)) (decoding 300 [true])) =
      some (false, []) ∧
    seen (fun t => (t.dec.count, t.dec.out)) (acceptEvent (.word (.command 0x60000001))
      { begun with dec.upBits := bitsOf .lsbFirst 0x04 }) = some (257, [0x41]) := by decide +kernel

theorem witness_StepKeepsTheInvariant : Inv begun ∧ step begun = .next begun := ⟨begun_inv, rfl⟩

theorem witness_StepNeverStops : Inv (decoding 65535 (List.replicate 16 true)) :=
  decoding_inv (by decide) (by decide) (by decide)

theorem witness_StepRunsTheDecodedInstruction :
    decode (.command 0x20000000) = .ok .encStart ∧ decode (.command 0) = .error .illegalOp ∧
    (send [.word (.command 0x20000000), .reset []] State.reset).ports.input =
      .word (.command 0x20000000) :: [.reset []] ∧ State.reset.ports.input = [] := by decide

theorem witness_StepsAcceptEventsInOrder : State.reset.ports.input = [] := rfl

theorem witness_PathsShareOnlyTheFaultRecord :
    (encoderPath .encStart = true ∧ ∃ t, exec .encStart State.reset = .next t) ∧
    decoderPath .decEnd = true ∧ ∃ t, exec .decEnd State.reset = .next t := ⟨⟨rfl, _, rfl⟩, rfl, _, rfl⟩

theorem witness_InterleavingGivesEachPathItsOwnResult :
    (∀ i ∈ ([.encStart, .decStart, .encSym 0x41, .decByte 0x04] : List Instr), encoderPath i = true ∨ decoderPath i = true) ∧
    ∃ t, acceptAll (eventsOf [.encStart, .decStart, .encSym 0x41, .decByte 0x04]) State.reset = .next t ∧
      t.ctrl.halted = false :=
  ⟨by decide, of_seen (by decide +kernel)⟩

theorem witness_OutputsOnlyGrow :
    seen (fun t => t.enc.out) (acceptEvent (.word (.command 0x40000000)) (afterSym 0 0x54)) = some [0x54, 0] ∧
    ∀ ws, Event.word (.command 0x40000000) ≠ .reset ws := ⟨by decide +kernel, by intro ws h; cases h⟩

/-- For EncStartBeginsAnOperation, DecStartBeginsAnOperation, OneSymbolGivesItsNineBitCode, StreamBitsFillBytes,
CompressOperationWritesCompress, DecompressOperationWritesDecompress and CompressedLengthIsTheRoundedBitCount, whose only
premise on the state is that it is not halted. -/
theorem witness_wholeOperations : Running State.reset ∧ Running begun := ⟨rfl, rfl⟩

/-- V-E10 and V-D10: four codes, below the bound 257 of the cap 0. -/
theorem witness_RoundTripBelowTheLockstepBound :
    (compCodes [0x41, 0x42, 0x41, 0x42] 0).length < 2 ^ bitlen (max 256 0) - 255 ∧
    (compCodes [] 65535).length < 2 ^ bitlen (max 256 65535) - 255 ∧ Running State.reset := by decide +kernel

theorem witness_CodeWidthsFollowTheirClosedForms :
    (3 - 1 < (compCodes [0x41, 0x42] 10000).length + 1 ∧ 2 - 1 < (compCodes [0x41, 0x42] 10000).length) ∧
    (Inv begun ∧ begun.dec.count.toNat = 256 + 1 - 1) ∧ Inv (decoding 65535 []) ∧
    (decoding 65535 []).dec.count.toNat = 256 + 65281 - 1 ∧ 256 ≤ 256 ∧ 1 ≤ 1 :=
  ⟨by decide +kernel, ⟨begun_inv, by decide +kernel⟩, decoding_inv (by decide) (by decide) (by decide), by
    change (BitVec.ofNat 17 65536).toNat = _; rfl, by decide, by decide⟩

end Sys2Proof.Tests
end

section
/-!
PROOFS. The statements about the state: what an accepted event does to each part of it, said once as the moves of the
control state, the encoder and the decoder, and from the moves the invariant, the writers of every register and the
outputs; then the values after reset and the CSR map.
-/

namespace Sys2Proof

/-! ### The decoder's answers -/

/-- A word with the op of a command without an operand, when it decodes, is that command's word (R302, R304). -/
theorem encode_of_noOperand {w : CmdWord} {op : BitVec 4} {i j : Instr} (hw : commandWord op (immField w) = w)
    (hi : encode i = .command (commandWord op 0)) (h : noOperand (immField w) i = .ok j) : encode j = .command w := by
  unfold noOperand at h
  split_ifs at h with himm
  rw [← Except.ok.inj h, hi, ← himm, hw]

/-- A word with the op of a command with a byte, when it decodes, is the word of that command and its byte (R302 to
R304). -/
theorem encode_of_byteOperand {w : CmdWord} {op : BitVec 4} {i : Byte → Instr} {j : Instr}
    (hw : commandWord op (immField w) = w) (hi : ∀ b, encode (i b) = .command (commandWord op (byteImm b)))
    (h : byteOperand (immField w) i = .ok j) : encode j = .command w := by
  unfold byteOperand at h
  split_ifs at h with himm
  rw [← Except.ok.inj h, hi, byteImm_fields himm, hw]

theorem encode_of_decodeCommand {w : CmdWord} {i : Instr} (h : decodeCommand w = .ok i) : encode i = .command w := by
  unfold decodeCommand at h
  split_ifs at h with hrsv
  have hw : ∀ op : BitVec 4, (opField w).toNat = op.toNat → commandWord op (immField w) = w := fun _ hop =>
    BitVec.eq_of_toNat_eq hop ▸ commandWord_fields (not_not.1 hrsv)
  split at h
  · next hop => rw [← Except.ok.inj h, encode, hw 1 hop]
  · next hop => exact encode_of_noOperand (hw 2 hop) rfl h
  · next hop => exact encode_of_byteOperand (hw 3 hop) (fun _ => rfl) h
  · next hop => exact encode_of_noOperand (hw 4 hop) rfl h
  · next hop => exact encode_of_noOperand (hw 5 hop) rfl h
  · next hop => exact encode_of_byteOperand (hw 6 hop) (fun _ => rfl) h
  · next hop => exact encode_of_noOperand (hw 7 hop) rfl h
  · cases h

/-- A bit inside a field that is 0 is 0. -/
theorem getLsbD_of_field_zero {n lo len k : Nat} {w : BitVec n} (h : w.extractLsb' lo len = 0) (hlo : lo ≤ k)
    (hhi : k < lo + len) : w.getLsbD k = false := by
  have hbit := congrArg (fun x => x.getLsbD (k - lo)) h
  simpa [show k - lo < len by omega, show lo + (k - lo) = k by omega] using hbit

/-- A field inside a field that is 0 is 0. -/
theorem field_zero_of_field_zero {n lo len lo' len' : Nat} {w : BitVec n} (h : w.extractLsb' lo len = 0)
    (hlo : lo ≤ lo') (hhi : lo' + len' ≤ lo + len) : w.extractLsb' lo' len' = 0 := by
  refine BitVec.eq_of_getLsbD_eq fun i hi => ?_
  rw [BitVec.getLsbD_extractLsb', getLsbD_of_field_zero h (by omega) (by omega)]
  simp

theorem encode_of_decodePacker {w : BitVec 22} {i : Instr} (h : decodePacker w = .ok i) : encode i = .packer w := by
  have hw := packerWord_fields w
  unfold decodePacker at h
  split_ifs at h with hkind hzero
  · rw [hkind, field_zero_of_field_zero hzero (by decide) (by decide),
      field_zero_of_field_zero hzero (by decide) (by decide)] at hw
    rw [← Except.ok.inj h, encode, hw]
  · rw [Bool.not_eq_true] at hkind
    rw [hkind] at hw
    rw [← Except.ok.inj h, encode, hw]

theorem encode_of_decodeUnpacker {w : BitVec 24} {i : Instr} (h : decodeUnpacker w = .ok i) :
    encode i = .unpacker w := by
  have hop : ∀ k : BitVec 2, (w.extractLsb' 22 2).toNat = k.toNat → w.extractLsb' 22 2 = k := fun k =>
    BitVec.eq_of_toNat_eq
  unfold decodeUnpacker at h
  split at h
  · next hk =>
    split_ifs at h with hzero
    have hw := unpackerWord_fields (getLsbD_of_field_zero hzero (by decide) (by decide))
      (field_zero_of_field_zero hzero (by decide) (by decide))
    rw [hop 0 hk, field_zero_of_field_zero hzero (by decide) (by decide)] at hw
    rw [← Except.ok.inj h, encode, hw]
  · next hk =>
    split_ifs at h with hzero
    obtain ⟨hbit, hlow⟩ := hzero
    have hw := unpackerWord_fields hbit (field_zero_of_field_zero hlow (by decide) (by decide))
    rw [hop 1 hk, field_zero_of_field_zero (len' := 8) hlow (by decide) (by decide)] at hw
    rw [← Except.ok.inj h, encode, hw]
  · next hk =>
    split_ifs at h with hzero
    have hw := unpackerWord_fields (getLsbD_of_field_zero hzero (by decide) (by decide))
      (field_zero_of_field_zero hzero (by decide) (by decide))
    rw [hop 2 hk, field_zero_of_field_zero (len' := 5) hzero (by decide) (by decide),
      field_zero_of_field_zero (len' := 8) hzero (by decide) (by decide)] at hw
    rw [← Except.ok.inj h, encode, hw]
  · cases h

/-- A word that decodes is the word of its instruction, on its port (R302, R306, R310, R312, R314). -/
theorem encode_of_decode {p : PortWord} {i : Instr} (h : decode p = .ok i) : encode i = p := by
  cases p with
  | command w => exact encode_of_decodeCommand h
  | packer w => exact encode_of_decodePacker h
  | unpacker w => exact encode_of_decodeUnpacker h
  | csr a => rw [← Except.ok.inj h, encode]

end Sys2Proof

namespace Sys2Proof.Machine

/-! ### What an accepted event does to each part of the state -/

/-- What accepting an event can make of the control state (R110 to R113). -/
inductive CtrlMove (c : Ctrl) : Event → Ctrl → Prop where
  | kept (ev : Event) : CtrlMove c ev c
  | fault (ev : Event) (cause : FaultCause) (w : CmdWord) :
      CtrlMove c ev { c with halted := true, faultCause := causeCode cause, faultCmd := w }
  | setCap (v : BitVec 16) : CtrlMove c (.word (encode (.setCap v))) { c with cap := v }
  | reset (ws : List CmdWord) : CtrlMove c (.reset ws) Ctrl.reset

/-- What accepting an event can make of the encoder and the packer, `cap` being the control state's (R115 to R121). -/
inductive EncMove (cap : BitVec 16) (e : Enc) : Event → Enc → Prop where
  | kept (ev : Event) : EncMove cap e ev e
  | start : EncMove cap e (.word (encode .encStart)) (startEncoder cap e)
  | symbol {x : Byte} {e' : Enc} (active : e.active = true) (done : encodeSymbol x e = some e') :
      EncMove cap e (.word (encode (.encSym x))) e'
  | finish : EncMove cap e (.word (encode .encEnd)) (endEncoder e)
  | code (v : Code) (w : BitVec 5) : EncMove cap e (.word (encode (.pkCode v w))) (packCode v w.toNat e)
  | flush : EncMove cap e (.word (encode .pkFlush)) (packFlush e)
  | reset (ws : List CmdWord) : EncMove cap e (.reset ws) Enc.reset

/-- What accepting an event can make of the decoder and the unpacker (R122 to R129). -/
inductive DecMove (d : Dec) : Event → Dec → Prop where
  | kept (ev : Event) : DecMove d ev d
  | start : DecMove d (.word (encode .decStart)) (startDecoder d)
  | byte {b : Byte} {d' : Dec} (active : d.active = true) (done : decodeByte b d = .done d') :
      DecMove d (.word (encode (.decByte b))) d'
  | finish : DecMove d (.word (encode .decEnd)) (endDecoder d)
  | push (b : Byte) : DecMove d (.word (encode (.upPush b))) (unpackPush b d)
  | take (w : BitVec 5) : DecMove d (.word (encode (.upTake w))) (unpackTake w.toNat d).2
  | drop : DecMove d (.word (encode .upDrop)) (unpackDrop d)
  | reset (ws : List CmdWord) : DecMove d (.reset ws) Dec.reset

/-- What accepting an event can make of the whole state, part by part; the events not yet accepted stay. -/
structure EventEffect (ev : Event) (s t : State) : Prop where
  ctrl : CtrlMove s.ctrl ev t.ctrl
  enc : EncMove s.ctrl.cap s.enc ev t.enc
  dec : DecMove s.dec ev t.dec
  input : t.ports.input = s.ports.input

theorem eventEffect_takeFault (ev : Event) (c : FaultCause) (w : CmdWord) (s : State) :
    EventEffect ev s (takeFault c w s) :=
  ⟨.fault ev c w, .kept ev, .kept ev, rfl⟩

theorem eventEffect_of_exec {i : Instr} {s t : State} (h : exec i s = .next t) :
    EventEffect (.word (encode i)) s t := by
  rcases exec_next h with ⟨rfl, _⟩ | ⟨rfl, _⟩ | ⟨rfl, _⟩ | ⟨b, c, _, _, _, _, rfl⟩ | ⟨v, rfl, _, rfl⟩ |
    ⟨rfl, _, rfl⟩ | ⟨x, e, rfl, _, active, done, rfl⟩ | ⟨rfl, _, _, rfl⟩ | ⟨rfl, _, rfl⟩ |
    ⟨b, d, rfl, _, active, done, rfl⟩ | ⟨rfl, _, _, rfl⟩ | ⟨v, w, rfl, rfl⟩ | ⟨rfl, rfl⟩ | ⟨b, rfl, rfl⟩ |
    ⟨w, l, rfl, rfl⟩ | ⟨rfl, rfl⟩ | ⟨a, l, rfl, rfl⟩
  · exact ⟨.kept _, .kept _, .kept _, rfl⟩
  · exact eventEffect_takeFault ..
  · exact eventEffect_takeFault ..
  · exact eventEffect_takeFault ..
  · exact ⟨.setCap v, .kept _, .kept _, rfl⟩
  · exact ⟨.kept _, .start, .kept _, rfl⟩
  · exact ⟨.kept _, .symbol active done, .kept _, rfl⟩
  · exact ⟨.kept _, .finish, .kept _, rfl⟩
  · exact ⟨.kept _, .kept _, .start, rfl⟩
  · exact ⟨.kept _, .kept _, .byte active done, rfl⟩
  · exact ⟨.kept _, .kept _, .finish, rfl⟩
  · exact ⟨.kept _, .code v w, .kept _, rfl⟩
  · exact ⟨.kept _, .flush, .kept _, rfl⟩
  · exact ⟨.kept _, .kept _, .push b, rfl⟩
  · exact ⟨.kept _, .kept _, .take w, rfl⟩
  · exact ⟨.kept _, .kept _, .drop, rfl⟩
  · exact ⟨.kept _, .kept _, .kept _, rfl⟩

/-- Every accepted event moves the parts of the state as listed. -/
theorem eventEffect_of_acceptEvent {ev : Event} {s t : State} (h : acceptEvent ev s = .next t) :
    EventEffect ev s t := by
  rcases event_next h with ⟨ws, rfl, rfl⟩ | ⟨p, r, rfl, _, rfl | ⟨w, rfl, _, rfl⟩⟩ | ⟨p, i, rfl, hdecode, hexec⟩
  · exact ⟨.reset ws, .reset ws, .reset ws, rfl⟩
  · exact ⟨.kept _, .kept _, .kept _, rfl⟩
  · exact eventEffect_takeFault ..
  · rw [← encode_of_decode hdecode]
    exact eventEffect_of_exec hexec

/-! ### The invariant -/

theorem encInv_reset : EncInv Enc.reset := encInv_seeded rfl rfl rfl rfl rfl

theorem decInv_reset : DecInv Dec.reset := decInv_seeded rfl rfl rfl rfl rfl rfl

theorem ctrlInv_reset : CtrlInv Ctrl.reset := ⟨fun _ => ⟨rfl, rfl⟩, fun h => by cases h⟩

theorem CtrlMove.keeps_inv {c c' : Ctrl} {ev : Event} (move : CtrlMove c ev c') (h : CtrlInv c) : CtrlInv c' := by
  cases move with
  | kept => exact h
  | fault _ cause w => exact ⟨(fun hrun => by cases hrun), fun _ => causeCode_range cause⟩
  | setCap v => exact ⟨h.clear, h.cause⟩
  | reset ws => exact ctrlInv_reset

theorem EncMove.keeps_inv {cap : BitVec 16} {e e' : Enc} {ev : Event} (move : EncMove cap e ev e')
    (host : ev.fromHost = true) (h : EncInv e) : EncInv e' := by
  cases move with
  | kept => exact h
  | start => exact encInv_seeded rfl rfl rfl rfl rfl
  | symbol active done =>
    obtain ⟨e₁, hdone, hinv, _⟩ := encInv_encodeSymbol h active
    exact Option.some.inj (hdone.symm.trans done) ▸ hinv
  | finish => exact encInv_endEncoder h
  | code v w => cases host
  | flush => cases host
  | reset ws => exact encInv_reset

theorem DecMove.keeps_inv {d d' : Dec} {ev : Event} (move : DecMove d ev d') (host : ev.fromHost = true)
    (h : DecInv d) : DecInv d' := by
  cases move with
  | kept => exact h
  | start => exact decInv_seeded rfl rfl rfl rfl rfl rfl
  | byte active done =>
    rcases decInv_decodeByte h active with ⟨d₁, hdone, hinv, _⟩ | ⟨c, htrap⟩
    · exact Decoded.done.inj (hdone.symm.trans done) ▸ hinv
    · cases htrap.symm.trans done
  | finish => exact decInv_endDecoder h
  | push b => cases host
  | take w => cases host
  | drop => cases host
  | reset ws => exact decInv_reset

/-- An event of the host, accepted, keeps the invariant. -/
theorem inv_of_acceptEvent {ev : Event} {s t : State} (h : Inv s) (host : ev.fromHost = true)
    (haccept : acceptEvent ev s = .next t) : Inv t := by
  obtain ⟨ctrl, enc, dec, input⟩ := eventEffect_of_acceptEvent haccept
  exact ⟨ctrl.keeps_inv h.ctrl, enc.keeps_inv host h.enc, dec.keeps_inv host h.dec,
    fun e he => h.inputs e (input ▸ he)⟩

/-- Taking the oldest event off the queue leaves an invariant state, and the event is the host's. -/
theorem inv_pop {s : State} {ev : Event} {rest : List Event} (h : Inv s) (hq : s.ports.input = ev :: rest) :
    ev.fromHost = true ∧ Inv { s with ports.input := rest } :=
  ⟨h.inputs ev (by simp [hq]), h.ctrl, h.enc, h.dec, fun e he => h.inputs e (by rw [hq]; exact .tail _ he)⟩

/-- Settles O45: a step accepts the oldest event, and each part of the state moves by an operation that keeps its
invariant. -/
theorem stepKeepsTheInvariant : Obligations.StepKeepsTheInvariant := by
  intro s t h hstep
  rcases hq : s.ports.input with _ | ⟨ev, rest⟩
  · rw [step_of_no_event hq] at hstep
    exact Host.Outcome.next.inj hstep ▸ h
  · rw [step_of_event hq] at hstep
    obtain ⟨host, hpop⟩ := inv_pop h hq
    exact inv_of_acceptEvent hpop host hstep

/-- Settles O46: both units are freshly seeded and the fault record is clear. -/
theorem resetMeetsTheInvariant : Obligations.ResetMeetsTheInvariant :=
  ⟨ctrlInv_reset, encInv_reset, decInv_reset, fun e he => by cases he⟩

/-! ### Which registers an event writes -/

/-- R113: an event that changes `cap` is SET_CAP or reset. -/
theorem CtrlMove.cap_writer {c c' : Ctrl} {ev : Event} (move : CtrlMove c ev c') (changed : c'.cap ≠ c.cap) :
    (∃ v, ev = .word (encode (.setCap v)) ∧ c'.cap = v) ∨ (∃ ws, ev = .reset ws ∧ c'.cap = 10000) := by
  cases move with
  | kept => exact absurd rfl changed
  | fault _ cause w => exact absurd rfl changed
  | setCap v => exact .inl ⟨v, rfl, rfl⟩
  | reset ws => exact .inr ⟨ws, rfl, rfl⟩

/-- Settles O20, by the control moves that write `cap`. -/
theorem capIsWrittenOnlyBySetCapAndReset : Obligations.CapIsWrittenOnlyBySetCapAndReset := by
  refine ⟨rfl, fun v s hrun => ?_, fun s hrun => ?_, fun ev s t h => (eventEffect_of_acceptEvent h).ctrl.cap_writer⟩
  · rw [exec, execSetCap, whenRunning_of_running hrun]
    exact ⟨_, rfl, rfl⟩
  · rw [exec, execEncStart, whenRunning_of_running hrun]
    exact ⟨_, rfl, rfl⟩

/-- Settles O26, move by move of the encoder: each names the registers it writes, and leaves the others. -/
theorem encoderRegistersAreWrittenAsListed : Obligations.EncoderRegistersAreWrittenAsListed := by
  rintro ev ⟨c, e, d, p⟩ ⟨c', e', d', p'⟩ h noReset
  have move : EncMove c.cap e ev e' := (eventEffect_of_acceptEvent h).enc
  cases move with
  | kept => simp
  | start =>
    exact ⟨fun _ => .inl ⟨rfl, rfl⟩, fun _ => ⟨rfl, rfl⟩, fun _ => .inl rfl, fun _ => .inl rfl, fun _ => .inl rfl,
      by simp⟩
  | @symbol x e' active done =>
    obtain ⟨hactive, hcap, _⟩ := encodeSymbol_keeps done
    exact ⟨by simp [hactive], by simp [hcap], fun _ => .inr ⟨x, rfl⟩, fun _ => .inr (.inl ⟨x, rfl⟩),
      fun _ => .inr (.inl ⟨x, rfl⟩), fun _ => .inl ⟨x, rfl⟩⟩
  | finish =>
    exact ⟨fun _ => .inr ⟨rfl, rfl⟩, by simp, by simp, fun _ => .inr (.inr rfl), fun _ => .inr (.inr (.inl rfl)),
      fun _ => .inr (.inl rfl)⟩
  | code v w =>
    exact ⟨by simp, by simp, by simp, by simp, fun _ => .inr (.inr (.inr (.inl ⟨v, w, rfl⟩))),
      fun _ => .inr (.inr (.inl ⟨v, w, rfl⟩))⟩
  | flush =>
    exact ⟨by simp, by simp, by simp, by simp, fun _ => .inr (.inr (.inr (.inr rfl))),
      fun _ => .inr (.inr (.inr rfl))⟩
  | reset ws => exact absurd rfl (noReset ws)

/-- Settles O44, move by move of the decoder. -/
theorem decoderRegistersAreWrittenAsListed : Obligations.DecoderRegistersAreWrittenAsListed := by
  rintro ev ⟨c, e, d, p⟩ ⟨c', e', d', p'⟩ h noReset
  have move : DecMove d ev d' := (eventEffect_of_acceptEvent h).dec
  cases move with
  | kept => simp
  | start =>
    exact ⟨fun _ => .inl ⟨rfl, rfl⟩, fun _ => .inl rfl, fun _ => .inl rfl, fun _ => .inl rfl, by simp⟩
  | @byte b d' active done =>
    exact ⟨by simp [(decodeByte_keeps done).1], fun _ => .inr ⟨b, rfl⟩, fun _ => .inr (.inl ⟨b, rfl⟩),
      fun _ => .inr (.inl ⟨b, rfl⟩), fun _ => ⟨b, rfl⟩⟩
  | finish =>
    exact ⟨fun _ => .inr ⟨rfl, rfl⟩, by simp, fun _ => .inr (.inr rfl), fun _ => .inr (.inr (.inl rfl)), by simp⟩
  | push b => exact ⟨by simp, by simp, by simp, fun _ => .inr (.inr (.inr (.inl ⟨b, rfl⟩))), by simp⟩
  | take w =>
    obtain ⟨hactive, htable, hnext, hcount, hwidth, hprev, hout⟩ := unpackTake_keeps w.toNat d
    exact ⟨by simp [hactive], by simp [htable, hnext, hcount, hwidth], by simp [hprev],
      fun _ => .inr (.inr (.inr (.inr (.inl ⟨w, rfl⟩)))), by simp [hout]⟩
  | drop => exact ⟨by simp, by simp, by simp, fun _ => .inr (.inr (.inr (.inr (.inr rfl)))), by simp⟩
  | reset ws => exact absurd rfl (noReset ws)

/-! ### The outputs -/

theorem EncMove.appends {cap : BitVec 16} {e e' : Enc} {ev : Event} (move : EncMove cap e ev e')
    (noReset : ∀ ws, ev ≠ .reset ws) : ∃ bytes, e'.out = e.out ++ bytes := by
  have same : ∃ bytes, e.out = e.out ++ bytes := ⟨[], (List.append_nil _).symm⟩
  cases move with
  | kept => exact same
  | start => exact same
  | symbol active done =>
    obtain ⟨_, _, happends⟩ := encodeSymbol_keeps done
    exact happends
  | finish => exact endEncoder_appends e
  | code v w =>
    obtain ⟨bytes, hout, _⟩ := packCode_bits v w.toNat e
    exact ⟨bytes, hout⟩
  | flush => exact packFlush_appends e
  | reset ws => exact absurd rfl (noReset ws)

theorem DecMove.appends {d d' : Dec} {ev : Event} (move : DecMove d ev d') (noReset : ∀ ws, ev ≠ .reset ws) :
    ∃ bytes, d'.out = d.out ++ bytes := by
  have same : ∃ bytes, d.out = d.out ++ bytes := ⟨[], (List.append_nil _).symm⟩
  cases move with
  | kept => exact same
  | start => exact same
  | byte active done => exact (decodeByte_keeps done).2
  | finish => exact same
  | push b => exact same
  | take w =>
    obtain ⟨_, _, _, _, _, _, hout⟩ := unpackTake_keeps w.toNat d
    exact ⟨[], by rw [hout, List.append_nil]⟩
  | drop => exact same
  | reset ws => exact absurd rfl (noReset ws)

/-- Settles O52, by the moves of both units. -/
theorem outputsOnlyGrow : Obligations.OutputsOnlyGrow := fun _ _ _ h noReset =>
  ⟨(eventEffect_of_acceptEvent h).enc.appends noReset, (eventEffect_of_acceptEvent h).dec.appends noReset⟩

/-! ### The CSR map -/

/-- The current pattern is shorter than the number of codes (R120, R136). -/
theorem EncInv.pattern_lt {e : Enc} (h : EncInv e) : e.pattern.length < 2 ^ 17 := by
  rcases h.current with hnil | ⟨c, hc⟩
  · simp [hnil]
  · have hlen := h.lengths _ _ hc
    have hc := c.isLt
    omega

/-- The pending unpacker bits are fewer than the widest width (R128, R142). -/
theorem DecInv.upBits_lt {d : Dec} (h : DecInv d) : d.upBits.length < 17 := by
  rcases hactive : d.active with _ | _
  · simp [(h.idle hactive).2]
  · have hpending := h.pending hactive
    have hrange := bitlen_range h.counted.1 h.counted.2
    have hwidth := h.width
    omega

/-- A length that fits its field reads as it is. -/
theorem toNat_length_field {n len : Nat} (h : n ≤ 32) (hlen : len < 2 ^ n) :
    ((BitVec.ofNat n len).setWidth 32).toNat = len := by
  rw [BitVec.toNat_setWidth_of_le h, BitVec.toNat_ofNat, Nat.mod_eq_of_lt hlen]

/-- Settles O16: a register fits the 32 bits of a CSR, and the invariant makes each length fit its field. -/
theorem csrMapShowsTheRegisters : Obligations.CsrMapShowsTheRegisters := by
  refine ⟨fun s h => ?_, rfl, rfl, rfl, rfl, rfl, rfl, rfl, rfl, rfl, rfl, rfl⟩
  have hpk := h.enc.pending
  have hup := h.dec.upBits_lt
  have register : ∀ {n : Nat} (x : BitVec n), n ≤ 32 → (x.setWidth 32).toNat = x.toNat := fun _ =>
    BitVec.toNat_setWidth_of_le
  exact ⟨register _ (by decide), register _ (by decide), register _ (by decide), register _ (by decide),
    toNat_length_field (by decide) h.enc.pattern_lt, toNat_length_field (by decide) (by omega),
    register _ (by decide), register _ (by decide), register _ (by decide), rfl,
    toNat_length_field (by decide) (by omega), rfl⟩

/-- STATUS as a number: its fields at their positions (R131). -/
theorem toNat_statusWord (s : State) :
    (statusWord s).toNat = s.ctrl.faultCause.toNat * 2 ^ 4 + (encCapReached s).toNat * 2 ^ 3 +
      s.ctrl.halted.toNat * 2 ^ 2 + s.dec.active.toNat * 2 + s.enc.active.toNat := by
  simp only [statusWord, toNat_append_eq, BitVec.toNat_ofBool]
  simp
  ring

/-- Settles O15: the low bits one after the other off the end of the word, the two fields by the word's number. -/
theorem statusBitsShowTheState : Obligations.StatusBitsShowTheState := by
  refine ⟨fun s => ?_, rfl⟩
  rw [show csrValue 0x00 s = statusWord s from rfl]
  have hnum := toNat_statusWord s
  have hreached := Bool.toNat_le (encCapReached s)
  have hhalted := Bool.toNat_le s.ctrl.halted
  have hdec := Bool.toNat_le s.dec.active
  have henc := Bool.toNat_le s.enc.active
  have bit3 : (statusWord s).getLsbD 3 = encCapReached s :=
    BitVec.getLsbD_concat_succ.trans (BitVec.getLsbD_concat_succ.trans
      (BitVec.getLsbD_concat_succ.trans BitVec.getLsbD_concat_zero))
  refine ⟨BitVec.getLsbD_concat_zero, BitVec.getLsbD_concat_succ.trans BitVec.getLsbD_concat_zero,
    BitVec.getLsbD_concat_succ.trans (BitVec.getLsbD_concat_succ.trans BitVec.getLsbD_concat_zero), ?_,
    BitVec.eq_of_toNat_eq ?_, BitVec.eq_of_toNat_eq ?_⟩
  · rw [bit3, encCapReached, decide_eq_true_iff]
  · rw [toNat_extract_eq]
    omega
  · rw [toNat_extract_eq]
    change _ = 0
    omega

/-- Settles O17: an address outside the map takes the map's last row, and CSR_READ writes no state of the block. -/
theorem unlistedCsrAddressesReadZero : Obligations.UnlistedCsrAddressesReadZero := by
  intro a s unlisted
  refine ⟨?_, _, rfl, rfl, rfl, rfl⟩
  unfold csrValue
  split
  -- the last row answers 0; every row before it has a listed address
  on_goal 14 => rfl
  all_goals simp_all

/-- Settles O13: the tables are the seed maps, which bind the one-symbol patterns and nothing else. -/
theorem resetLeavesEveryElementAsListed : Obligations.ResetLeavesEveryElementAsListed := by
  have etab : ∀ p c, etabLookup p etabSeed = some c ↔ ∃ b : Byte, p = [b] ∧ c = b.setWidth 16 := fun p c =>
    ⟨etabLookup_seed_some, fun ⟨b, hp, hc⟩ => hp ▸ hc ▸ etabLookup_seed b⟩
  have dtab : ∀ c p, dtabLookup c dtabSeed = some p ↔ ∃ b : Byte, c = b.setWidth 16 ∧ p = [b] := fun c p =>
    ⟨fun h => (dtabLookup_seed_some h).imp fun _ => And.symm, fun ⟨b, hc, hp⟩ => hp ▸ hc ▸ dtabLookup_seed b⟩
  exact ⟨rfl, rfl, rfl, rfl, rfl, rfl, etab, rfl, rfl, rfl, rfl, rfl, dtab, rfl, rfl, rfl, rfl, rfl, rfl, rfl⟩

end Sys2Proof.Machine
end

section
/-!
PROOFS. The statements of 20_memory.md: a step and a sequence of instructions, the two paths and their interleaving, and
the packed stream of a compress operation.
-/

namespace Sys2Proof

/-- The instruction of every word the encoder writes is the one written (R302, R303, R310, R312, R314). -/
theorem decode_encode (i : Instr) : decode (encode i) = .ok i := by
  -- what the command decoder answers on a word built from an op and an operand
  have command := fun (op : BitVec 4) (imm : BitVec 16) => decodeCommand.eq_1 (commandWord op imm)
  simp only [rsvField_commandWord, opField_commandWord, immField_commandWord, ne_eq, not_true_eq_false, if_false]
    at command
  cases i with
  | setCap v => exact command 1 v
  | encStart => exact command 2 0
  | encSym x => exact (command 3 _).trans (by simp [byteOperand, byteImm_high, byteImm_low])
  | encEnd => exact command 4 0
  | decStart => exact command 5 0
  | decByte b => exact (command 6 _).trans (by simp [byteOperand, byteImm_high, byteImm_low])
  | decEnd => exact command 7 0
  | pkCode v w =>
    simp only [decode, encode, decodePacker, packerWord_kind, packerWord_width, packerWord_value, Bool.false_eq_true,
      if_false]
  | pkFlush => rfl
  | upPush b => revert b; decide
  | upTake w => revert w; decide
  | upDrop => rfl
  | csrRead a => rfl

end Sys2Proof

namespace Sys2Proof.Machine

/-! ### Steps and sequences of instructions -/

/-- Settles O48, by what a step does with the oldest event and with none. -/
theorem stepRunsTheDecodedInstruction : Obligations.StepRunsTheDecodedInstruction :=
  ⟨fun _ _ _ _ hq hdecode => (step_of_event hq).trans (acceptWord_of_decode hdecode _),
    fun _ _ _ _ hq hreject => (step_of_event hq).trans (acceptWord_of_reject hreject _),
    fun _ _ _ hq => step_of_event hq, fun _ => step_of_no_event⟩

/-- A run of one step more takes that step first. -/
theorem run_succ (k : Nat) (s : State) : core.run (k + 1) s = andThen (step s) (core.run k) := by
  refine (Host.Core.run.eq_2 core s k).trans ?_
  rcases h : core.step s with t | x | x <;> rw [show step s = _ from h] <;> rfl

@[simp] theorem send_nil (s : State) : send [] s = s := by rw [send, List.append_nil]

/-- Events sent to a block with none waiting are the events waiting. -/
theorem send_of_no_event {s : State} (es : List Event) (h : s.ports.input = []) : send es s = withInput es s := by
  rw [send, withInput, h, List.nil_append]

/-- One step after sending to a block with no event waiting: the first event sent is accepted, the others wait. -/
theorem step_send_cons {s : State} (e : Event) (es : List Event) (h : s.ports.input = []) :
    step (send (e :: es) s) = mapNext (send es) (acceptEvent e s) := by
  have hstep : step (send (e :: es) s) = mapNext (withInput es) (acceptEvent e s) := by
    rw [send_of_no_event _ h, ← acceptEvent_withInput]
    exact step_of_event rfl
  rw [hstep]
  cases haccept : acceptEvent e s with
  | next t =>
    have hinput := (eventEffect_of_acceptEvent haccept).input
    rw [mapNext_next, mapNext_next, send_of_no_event es (hinput.trans h)]
  | fault x => rfl
  | refused x => rfl

/-- Settles O49, by induction on the events: each step accepts the first one sent and leaves the others waiting. -/
theorem stepsAcceptEventsInOrder : Obligations.StepsAcceptEventsInOrder := by
  intro es
  induction es with
  | nil =>
    intro s h
    rw [send_nil]
    rfl
  | cons e es ih =>
    intro s h
    rw [List.length_cons, run_succ, step_send_cons e es h, acceptAll_cons]
    cases haccept : acceptEvent e s with
    | next t => exact ih t ((eventEffect_of_acceptEvent haccept).input.trans h)
    | fault x => rfl
    | refused x => rfl

/-- A sequence of instructions runs each one on the state the ones before it leave. -/
theorem acceptAll_eventsOf_cons (i : Instr) (is : List Instr) (s : State) :
    acceptAll (eventsOf (i :: is)) s = andThen (exec i s) (acceptAll (eventsOf is)) := by
  rw [eventsOf, List.map_cons, acceptAll_cons, acceptEvent, acceptWord_of_decode (decode_encode i)]
  rfl

theorem acceptAll_eventsOf_append (is js : List Instr) (s : State) :
    acceptAll (eventsOf (is ++ js)) s = andThen (acceptAll (eventsOf is) s) (acceptAll (eventsOf js)) := by
  rw [eventsOf, List.map_append, acceptAll_append]
  rfl

/-! ### The two paths (R233) -/

/-- The commands of the encoder path, one by one. -/
theorem encoderPath_iff {i : Instr} :
    encoderPath i = true ↔ (∃ v, i = .setCap v) ∨ i = .encStart ∨ (∃ x, i = .encSym x) ∨ i = .encEnd := by
  cases i <;> simp [encoderPath]

/-- The commands of the decoder path, one by one. -/
theorem decoderPath_iff {i : Instr} :
    decoderPath i = true ↔ i = .decStart ∨ (∃ b, i = .decByte b) ∨ i = .decEnd := by
  cases i <;> simp [decoderPath]

/-- The state with another decoder. -/
def withDec (d : Dec) (s : State) : State := { s with dec := d }

/-- The state with another encoder and another cap: what the encoder path owns (R233, R413). -/
def withEncAndCap (e : Enc) (cap : BitVec 16) (s : State) : State :=
  { s with enc := e, ctrl := { s.ctrl with cap := cap } }

/-- The dispatch check of R800 goes with a change of the state that keeps `halted`, where the command's rule does. -/
theorem whenRunning_mapNext {g : State → State} {s : State} {rule : State → Result}
    (halted : (g s).ctrl.halted = s.ctrl.halted) (hrule : rule (g s) = mapNext g (rule s)) :
    whenRunning (g s) rule = mapNext g (whenRunning s rule) := by
  rw [whenRunning, whenRunning, halted]
  split_ifs
  · rfl
  · exact hrule

/-- So does the check of an active operation, under a change that keeps the check's answer and the fault entry. -/
theorem activeCheck_mapNext {g : State → State} {active active' : Bool} {r r' : Result} {faulted faulted' : State}
    (hactive : active' = active) (hfault : faulted' = g faulted) (hr : r' = mapNext g r) :
    (if active' then r' else .next faulted') = mapNext g (if active then r else .next faulted) := by
  rw [hactive, hfault]
  split_ifs
  · exact hr
  · rfl

theorem whenEncoding_mapNext {g : State → State} {i : Instr} {s : State} {rule : State → Result}
    (halted : (g s).ctrl.halted = s.ctrl.halted) (active : (g s).enc.active = s.enc.active)
    (fault : takeFault .encSeq (wordOf i) (g s) = g (takeFault .encSeq (wordOf i) s))
    (hrule : rule (g s) = mapNext g (rule s)) :
    whenEncoding i (g s) rule = mapNext g (whenEncoding i s rule) :=
  whenRunning_mapNext halted (activeCheck_mapNext active fault hrule)

theorem whenDecoding_mapNext {g : State → State} {i : Instr} {s : State} {rule : State → Result}
    (halted : (g s).ctrl.halted = s.ctrl.halted) (active : (g s).dec.active = s.dec.active)
    (fault : takeFault .decSeq (wordOf i) (g s) = g (takeFault .decSeq (wordOf i) s))
    (hrule : rule (g s) = mapNext g (rule s)) :
    whenDecoding i (g s) rule = mapNext g (whenDecoding i s rule) :=
  whenRunning_mapNext halted (activeCheck_mapNext active fault hrule)

/-- A command of the encoder path does the same whatever the decoder holds, and leaves it. -/
theorem exec_withDec {i : Instr} (hi : encoderPath i = true) (d : Dec) (s : State) :
    exec i (withDec d s) = mapNext (withDec d) (exec i s) := by
  rcases encoderPath_iff.1 hi with ⟨v, rfl⟩ | rfl | ⟨x, rfl⟩ | rfl
  · rw [exec, exec, execSetCap, execSetCap]
    exact whenRunning_mapNext (g := withDec d) rfl rfl
  · rw [exec, exec, execEncStart, execEncStart]
    exact whenRunning_mapNext (g := withDec d) rfl rfl
  · rw [exec, exec, execEncSym, execEncSym]
    refine whenEncoding_mapNext (g := withDec d) rfl rfl rfl ?_
    rw [show (withDec d s).enc = s.enc from rfl]
    cases encodeSymbol x s.enc <;> rfl
  · rw [exec, exec, execEncEnd, execEncEnd]
    exact whenEncoding_mapNext (g := withDec d) rfl rfl rfl rfl

/-- A command of the decoder path does the same whatever the encoder and the cap hold, and leaves them. -/
theorem exec_withEncAndCap {i : Instr} (hi : decoderPath i = true) (e : Enc) (cap : BitVec 16) (s : State) :
    exec i (withEncAndCap e cap s) = mapNext (withEncAndCap e cap) (exec i s) := by
  rcases decoderPath_iff.1 hi with rfl | ⟨b, rfl⟩ | rfl
  · rw [exec, exec, execDecStart, execDecStart]
    exact whenRunning_mapNext (g := withEncAndCap e cap) rfl rfl
  · rw [exec, exec, execDecByte, execDecByte]
    refine whenDecoding_mapNext (g := withEncAndCap e cap) rfl rfl rfl ?_
    rw [show (withEncAndCap e cap s).dec = s.dec from rfl]
    cases decodeByte b s.dec <;> rfl
  · rw [exec, exec, execDecEnd, execDecEnd]
    exact whenDecoding_mapNext (g := withEncAndCap e cap) rfl rfl rfl rfl

/-- Settles O50. Putting in the other path's own state shows that the command leaves it; any other one, that the
command does not read it. -/
theorem pathsShareOnlyTheFaultRecord : Obligations.PathsShareOnlyTheFaultRecord := by
  refine ⟨fun i s t hi h => ?_, fun i s t hi h => ?_⟩
  · have same : ∀ d, exec i (withDec d s) = .next (withDec d t) := fun d => by rw [exec_withDec hi, h, mapNext_next]
    have own : t = withDec s.dec t := Host.Outcome.next.inj (h.symm.trans (same s.dec))
    exact ⟨(congrArg State.dec own :), same⟩
  · have same : ∀ e cap, exec i (withEncAndCap e cap s) = .next (withEncAndCap e cap t) := fun e cap => by
      rw [exec_withEncAndCap hi, h, mapNext_next]
    have own : t = withEncAndCap s.enc s.ctrl.cap t := Host.Outcome.next.inj (h.symm.trans (same _ _))
    exact ⟨(congrArg State.enc own :), (congrArg (fun u => u.ctrl.cap) own :), same⟩

/-! ### Interleaving (R1037) -/

/-- Only reset ends the halted state (R1001). -/
theorem CtrlMove.running {c c' : Ctrl} {ev : Event} (move : CtrlMove c ev c') (noReset : ∀ ws, ev ≠ .reset ws)
    (h : c'.halted = false) : c.halted = false := by
  cases move with
  | kept => exact h
  | fault => cases h
  | setCap v => exact h
  | reset ws => exact absurd rfl (noReset ws)

theorem running_of_exec {i : Instr} {s t : State} (h : exec i s = .next t) (hrun : Running t) : Running s :=
  (eventEffect_of_exec h).ctrl.running (fun _ hreset => by cases hreset) hrun

/-- Instructions that end in a running block began in one. -/
theorem running_of_acceptAll {is : List Instr} {s t : State} (h : acceptAll (eventsOf is) s = .next t)
    (hrun : Running t) : Running s := by
  induction is generalizing s with
  | nil => exact Host.Outcome.next.inj h ▸ hrun
  | cons i is ih =>
    rw [acceptAll_eventsOf_cons] at h
    obtain ⟨s₁, hexec, hrest⟩ := andThen_eq_next h
    exact running_of_exec hexec (ih hrest)

/-- A command that leaves the block running was not dropped. -/
theorem rule_of_whenRunning {s t : State} {rule : State → Result} (h : whenRunning s rule = .next t)
    (hrun : Running t) : rule s = .next t := by
  rcases hhalted : s.ctrl.halted with _ | _
  · rwa [whenRunning_of_running hhalted] at h
  · rw [whenRunning_of_halted hhalted] at h
    cases h
    cases hhalted.symm.trans hrun

/-- A check of an active operation that leaves the block running was passed. -/
theorem rule_of_activeCheck {active : Bool} {r : Result} {cause : FaultCause} {w : CmdWord} {s t : State}
    (h : (if active then r else .next (takeFault cause w s)) = .next t) (hrun : Running t) : r = .next t := by
  split_ifs at h
  · exact h
  · cases h
    cases hrun

theorem rule_of_whenEncoding {i : Instr} {s t : State} {rule : State → Result} (h : whenEncoding i s rule = .next t)
    (hrun : Running t) : rule s = .next t :=
  rule_of_activeCheck (rule_of_whenRunning h hrun) hrun

theorem rule_of_whenDecoding {i : Instr} {s t : State} {rule : State → Result} (h : whenDecoding i s rule = .next t)
    (hrun : Running t) : rule s = .next t :=
  rule_of_activeCheck (rule_of_whenRunning h hrun) hrun

/-- A command of the encoder path that takes no fault writes the encoder and the cap only. -/
theorem withEncAndCap_of_exec {i : Instr} {s t : State} (hi : encoderPath i = true) (h : exec i s = .next t)
    (hrun : Running t) (e : Enc) (cap : BitVec 16) : withEncAndCap e cap t = withEncAndCap e cap s := by
  rcases encoderPath_iff.1 hi with ⟨v, rfl⟩ | rfl | ⟨x, rfl⟩ | rfl
  · rw [exec, execSetCap] at h
    cases rule_of_whenRunning h hrun
    rfl
  · rw [exec, execEncStart] at h
    cases rule_of_whenRunning h hrun
    rfl
  · rw [exec, execEncSym] at h
    have hrule := rule_of_whenEncoding h hrun
    split at hrule
    · cases hrule
      rfl
    · cases hrule
  · rw [exec, execEncEnd] at h
    cases rule_of_whenEncoding h hrun
    rfl

/-- A command of the decoder path that takes no fault writes the decoder only. -/
theorem withDec_of_exec {i : Instr} {s t : State} (hi : decoderPath i = true) (h : exec i s = .next t)
    (hrun : Running t) (d : Dec) : withDec d t = withDec d s := by
  rcases decoderPath_iff.1 hi with rfl | ⟨b, rfl⟩ | rfl
  · rw [exec, execDecStart] at h
    cases rule_of_whenRunning h hrun
    rfl
  · rw [exec, execDecByte] at h
    have hrule := rule_of_whenDecoding h hrun
    split at hrule
    · cases hrule
      rfl
    · cases hrule
      cases hrun
    · cases hrule
  · rw [exec, execDecEnd] at h
    cases rule_of_whenDecoding h hrun
    rfl

/-- A run that ends in a running block, seen through a change `g` of the state: instructions that go with `g` are kept,
instructions whose effect `g` hides are left out. -/
theorem acceptAll_filter {own : Instr → Bool} {g : State → State} {is : List Instr}
    (goes : ∀ i ∈ is, own i = true → ∀ s, exec i (g s) = mapNext g (exec i s))
    (hides : ∀ i ∈ is, own i = false → ∀ s t, exec i s = .next t → Running t → g t = g s)
    {s t : State} (h : acceptAll (eventsOf is) s = .next t) (hrun : Running t) :
    acceptAll (eventsOf (is.filter own)) (g s) = .next (g t) := by
  induction is generalizing s with
  | nil =>
    cases h
    rfl
  | cons i is ih =>
    rw [acceptAll_eventsOf_cons] at h
    obtain ⟨s₁, hexec, hrest⟩ := andThen_eq_next h
    have hfiltered := ih (fun j hj => goes j (.tail _ hj)) (fun j hj => hides j (.tail _ hj)) hrest
    rcases hown : own i with _ | _
    · rw [List.filter_cons_of_neg (ne_true_of_eq_false hown),
        ← hides i (.head _) hown s s₁ hexec (running_of_acceptAll hrest hrun)]
      exact hfiltered
    · rw [List.filter_cons_of_pos hown, acceptAll_eventsOf_cons, goes i (.head _) hown, hexec]
      exact hfiltered

/-- Settles O51: each path's commands alone are the run seen through the change that puts back what the other path
owns. -/
theorem interleavingGivesEachPathItsOwnResult : Obligations.InterleavingGivesEachPathItsOwnResult := by
  intro is s t paths h hrun
  have encoderRun : acceptAll (eventsOf (is.filter encoderPath)) s = .next (withDec s.dec t) :=
    acceptAll_filter (g := withDec s.dec) (fun i _ hi => exec_withDec hi s.dec)
      (fun i hmem hi s₁ t₁ hexec hrun₁ =>
        withDec_of_exec ((paths i hmem).resolve_left (ne_true_of_eq_false hi)) hexec hrun₁ s.dec) h hrun
  have decoderRun : acceptAll (eventsOf (is.filter decoderPath)) s = .next (withEncAndCap s.enc s.ctrl.cap t) :=
    acceptAll_filter (g := withEncAndCap s.enc s.ctrl.cap) (fun i _ hi => exec_withEncAndCap hi s.enc s.ctrl.cap)
      (fun i hmem hi s₁ t₁ hexec hrun₁ =>
        withEncAndCap_of_exec ((paths i hmem).resolve_right (ne_true_of_eq_false hi)) hexec hrun₁ s.enc s.ctrl.cap)
      h hrun
  exact ⟨⟨_, encoderRun, rfl, rfl, rfl⟩, _, decoderRun, rfl, rfl, hrun⟩

/-! ### The packed stream (R210, R211) -/

/-- Every bit list is the bits of whole bytes and fewer than 8 bits. -/
theorem exists_whole_bytes (f : Fill) (bits : Bits) :
    ∃ (bytes : List Byte) (rest : Bits), rest.length < 8 ∧ bits = bytes.flatMap (bitsOf f) ++ rest :=
  ⟨_, _, drainBytes_rest_lt f _ bits le_rfl, (drainBytes_bits f _ bits).symm⟩

/-- A packed stream read back is the bits packed, then fewer than 8 zeros. -/
theorem packedStream_unpack_zeros (f : Fill) (bits : Bits) :
    ∃ zeros < 8, (packedStream f bits).flatMap (bitsOf f) = bits ++ List.replicate zeros false := by
  obtain ⟨bytes, rest, hrest, rfl⟩ := exists_whole_bytes f bits
  rw [packedStream_bytes f bytes rest hrest]
  split_ifs with hempty
  · refine ⟨0, by decide, ?_⟩
    rw [List.length_eq_zero_iff.1 hempty]
    simp
  · refine ⟨8 - rest.length, by omega, ?_⟩
    rw [List.flatMap_append, List.flatMap_singleton, bitsOf_padByte f (by omega), List.append_assoc]

/-- The bytes of a packed stream hold its bits and its zeros. -/
theorem eight_mul_length_packedStream {f : Fill} {bits : Bits} {zeros : Nat}
    (h : (packedStream f bits).flatMap (bitsOf f) = bits ++ List.replicate zeros false) :
    8 * (packedStream f bits).length = bits.length + zeros := by
  rw [← length_flatMap_bitsOf f, h, List.length_append, List.length_replicate]

theorem length_packedStream (f : Fill) (bits : Bits) : (packedStream f bits).length = (bits.length + 7) / 8 := by
  obtain ⟨zeros, hlt, hunpack⟩ := packedStream_unpack_zeros f bits
  have hlength := eight_mul_length_packedStream hunpack
  omega

theorem getD_bitsOf_lsbFirst (v : Byte) {i : Nat} (hi : i < 8) : (bitsOf .lsbFirst v).getD i false = v.getLsbD i := by
  interval_cases i <;> rfl

theorem getD_bitsOf_msbFirst (v : Byte) {i : Nat} (hi : i < 8) :
    (bitsOf .msbFirst v).getD i false = v.getLsbD (7 - i) := by
  interval_cases i <;> rfl

/-- Bit 8k + i of the bits of a byte list is bit i of the bits of byte k. -/
theorem getD_flatMap_bitsOf (f : Fill) {bytes : List Byte} {k i : Nat} (hk : k < bytes.length) (hi : i < 8) :
    (bytes.flatMap (bitsOf f)).getD (8 * k + i) false = (bitsOf f (bytes.getD k 0)).getD i false := by
  induction bytes generalizing k with
  | nil => cases hk
  | cons b bytes ih =>
    rw [List.flatMap_cons]
    cases k with
    | zero =>
      rw [List.getD_append _ _ _ _ (by rw [length_bitsOf]; omega), Nat.mul_zero, Nat.zero_add, List.getD_cons_zero]
    | succ k =>
      rw [List.getD_append_right _ _ _ _ (by rw [length_bitsOf]; omega), length_bitsOf,
        show 8 * (k + 1) + i - 8 = 8 * k + i by omega, List.getD_cons_succ]
      exact ih (Nat.lt_of_succ_lt_succ hk)

/-- Stream bit j is bit j mod 8 of the bits of byte j div 8, up to the last byte's end. -/
theorem getD_bitsOf_packedStream (f : Fill) (bits : Bits) {j : Nat} (hj : j < 8 * ((bits.length + 7) / 8)) :
    (bitsOf f ((packedStream f bits).getD (j / 8) 0)).getD (j % 8) false = bits.getD j false := by
  obtain ⟨zeros, _, hunpack⟩ := packedStream_unpack_zeros f bits
  rw [← length_packedStream f] at hj
  rw [← getD_flatMap_bitsOf f (by omega) (by omega), Nat.div_add_mod, hunpack]
  rcases Nat.lt_or_ge j bits.length with hlt | hge
  · exact List.getD_append _ _ _ _ hlt
  · rw [List.getD_append_right _ _ _ _ hge, List.getD_eq_default bits false hge]
    rw [List.getD_eq_getElem?_getD, List.getElem?_replicate]
    split_ifs <;> rfl

/-! ### A whole compress operation (R650) -/

theorem exec_setCap_of_running {s : State} (hrun : Running s) (v : BitVec 16) :
    exec (.setCap v) s = .next (withEncAndCap s.enc v s) := by
  rw [exec, execSetCap, whenRunning_of_running hrun]
  rfl

theorem exec_encStart_of_running {s : State} (hrun : Running s) :
    exec .encStart s = .next { s with enc := startEncoder s.ctrl.cap s.enc } := by
  rw [exec, execEncStart, whenRunning_of_running hrun]

theorem exec_encSym_of_active {s : State} (hrun : Running s) (hactive : s.enc.active = true) {x : Byte} {e : Enc}
    (hsymbol : encodeSymbol x s.enc = some e) : exec (.encSym x) s = .next { s with enc := e } := by
  rw [exec, execEncSym, whenEncoding_of_active hrun hactive, hsymbol]

theorem exec_encEnd_of_active {s : State} (hrun : Running s) (hactive : s.enc.active = true) :
    exec .encEnd s = .next { s with enc := endEncoder s.enc } := by
  rw [exec, execEncEnd, whenEncoding_of_active hrun hactive]

/-- ENC_SYM of each symbol takes the encoder along with the loop of compress. -/
theorem acceptAll_encSyms {o : List Byte} {v : Nat} (symbols : List Byte) :
    ∀ {s : State} {c : Comp}, Running s → Mirrors o v s.enc c →
      ∃ e, acceptAll (eventsOf (symbols.map .encSym)) s = .next { s with enc := e } ∧
        Mirrors o v e (symbols.foldl (compSymbol v) c) := by
  induction symbols with
  | nil => exact fun {s _} _ h => ⟨s.enc, rfl, h⟩
  | cons x symbols ih =>
    intro s c hrun h
    obtain ⟨e₁, hsymbol, h₁⟩ := mirrors_symbol h x
    obtain ⟨e, hrest, he⟩ := ih (s := { s with enc := e₁ }) hrun h₁
    refine ⟨e, ?_, he⟩
    rw [List.map_cons, acceptAll_eventsOf_cons, exec_encSym_of_active hrun h.active hsymbol]
    exact hrest

/-- From a running block a compress operation completes: the cap is written, the encoder has gone along with compress
up to ENC_END, and nothing else changes. -/
theorem acceptAll_compressCommands (v : BitVec 16) (symbols : List Byte) {s : State} (hrun : Running s) :
    ∃ e, acceptAll (eventsOf (compressCommands v symbols)) s = .next (withEncAndCap (endEncoder e) v s) ∧
      Mirrors s.enc.out v.toNat e (symbols.foldl (compSymbol v.toNat) compStart) := by
  obtain ⟨e, hsymbols, he⟩ := acceptAll_encSyms symbols (s := withEncAndCap (startEncoder v s.enc) v s) hrun
    (mirrors_start v s.enc)
  have hstart : exec .encStart (withEncAndCap s.enc v s) = .next (withEncAndCap (startEncoder v s.enc) v s) :=
    exec_encStart_of_running hrun
  have hend : exec .encEnd (withEncAndCap e v s) = .next (withEncAndCap (endEncoder e) v s) :=
    exec_encEnd_of_active hrun he.active
  change acceptAll _ _ = .next (withEncAndCap e v s) at hsymbols
  refine ⟨e, ?_, he⟩
  rw [compressCommands, acceptAll_eventsOf_cons, exec_setCap_of_running hrun, andThen_next, acceptAll_eventsOf_cons,
    hstart, andThen_next, acceptAll_eventsOf_append, hsymbols, andThen_next, acceptAll_eventsOf_cons, hend]
  rfl

/-- What a compress operation appends is the packed stream of its code bits. -/
theorem compressCommands_out (v : BitVec 16) (symbols : List Byte) {s : State} (hrun : Running s) :
    ∃ t, acceptAll (eventsOf (compressCommands v symbols)) s = .next t ∧
      t.enc.out = s.enc.out ++ packedStream Config.fill (codeBits (compCodes symbols v.toNat)) := by
  obtain ⟨e, hrunAll, he⟩ := acceptAll_compressCommands v symbols hrun
  exact ⟨_, hrunAll, mirrors_end he⟩

/-- Pushing bytes appends their bits to the unpacker's. -/
theorem acceptAll_upPushes (bytes : List Byte) (s : State) :
    acceptAll (eventsOf (bytes.map .upPush)) s =
      .next { s with dec := { s.dec with upBits := s.dec.upBits ++ bytes.flatMap (bitsOf Config.fill) } } := by
  induction bytes generalizing s with
  | nil => simp [eventsOf]
  | cons b bytes ih =>
    rw [List.map_cons, acceptAll_eventsOf_cons, exec, execUpPush, andThen_next, ih]
    simp [unpackPush]

/-- Settles O29: the bits of a packed stream are read back bit by bit, and both channels carry them. -/
theorem streamBitsFillBytes : Obligations.StreamBitsFillBytes := by
  refine ⟨fun bits j hj => ⟨?_, ?_⟩, length_packedStream, fun bytes k i hk hi => ⟨?_, ?_⟩, packedStream_unpack_zeros,
    fun s v symbols hrun => compressCommands_out v symbols hrun, fun s bytes => acceptAll_upPushes bytes s⟩
  · rw [← getD_bitsOf_lsbFirst _ (by omega), getD_bitsOf_packedStream _ _ hj]
  · rw [← getD_bitsOf_msbFirst _ (by omega), getD_bitsOf_packedStream _ _ hj]
  · rw [getD_flatMap_bitsOf _ hk hi, getD_bitsOf_lsbFirst _ hi]
  · rw [getD_flatMap_bitsOf _ hk hi, getD_bitsOf_msbFirst _ hi]

/-! ### The length of a compressed stream (R213) -/

theorem length_codeBits (codes : List (Nat × Nat)) : (codeBits codes).length = (codes.map Prod.snd).sum := by
  induction codes with
  | nil => rfl
  | cons c codes ih =>
    rw [List.map_cons, List.sum_cons, ← ih, codeBits, List.flatMap_cons, List.length_append, msbBits_length, codeBits]

/-- Code k + 1 of a compress operation is packed at the width of the count it meets (R457). -/
theorem compCodes_width (symbols : List Byte) (v k : Nat) (hk : k < (compCodes symbols v).length) :
    ((compCodes symbols v)[k]).2 = bitlen (min (256 + k) (max 256 v)) := by
  obtain ⟨ps, h⟩ := traced_fold symbols (traced_start (le_max_left 256 v))
  by_cases hp : (symbols.foldl (compSymbol v) compStart).pattern = []
  · simp only [compCodes, if_pos hp] at hk ⊢
    exact (h.codes k hk).2
  · simp only [compCodes, if_neg hp] at hk ⊢
    exact ((traced_emit h hp).2 k hk).2

/-- Every code of a compress operation is at least 9 bits wide. -/
theorem nine_le_compCodes_width {symbols : List Byte} {v w : Nat} (h : w ∈ (compCodes symbols v).map Prod.snd) :
    9 ≤ w := by
  obtain ⟨code, hcode, rfl⟩ := List.mem_map.1 h
  obtain ⟨k, hk, rfl⟩ := List.getElem_of_mem hcode
  rw [compCodes_width symbols v k hk, ← bitlen_256]
  exact bitlen_mono (by omega)

/-- Settles O58: the bytes are the packed stream of the code bits, so their number and the zeros follow from the number
of bits. -/
theorem compressedLengthIsTheRoundedBitCount : Obligations.CompressedLengthIsTheRoundedBitCount := by
  intro s v symbols hrun
  obtain ⟨t, haccept, hout⟩ := compressCommands_out v symbols hrun
  obtain ⟨zeros, hzeros, hunpack⟩ := packedStream_unpack_zeros Config.fill (codeBits (compCodes symbols v.toNat))
  have hlength := eight_mul_length_packedStream hunpack
  rw [length_codeBits] at hlength
  exact ⟨t, _, _, zeros, haccept, hout, rfl, hunpack, by omega, by omega,
    fun w hw => ⟨by omega, nine_le_compCodes_width hw⟩⟩

end Sys2Proof.Machine
end

section
/-!
PROOFS. The statements of 30_encoding.md: decoding and encoding as inverses, the rows of R302 and the words they match,
the legal and the illegal command words, the channel words a stand-alone unit refuses, and the assembler's words.
-/

namespace Sys2Proof

/-! ### Decoding and encoding undo each other -/

/-- Settles O2, by what the decoder answers on each instruction's word. -/
theorem decodeUndoesEncode : Obligations.DecodeUndoesEncode := decode_encode

/-- Settles O3, by the decoder's answers on each port. -/
theorem encodeUndoesDecode : Obligations.EncodeUndoesDecode := fun _ _ => encode_of_decode

theorem decode_eq_ok_iff {p : PortWord} {i : Instr} : decode p = .ok i ↔ encode i = p :=
  ⟨encode_of_decode, fun h => h ▸ decode_encode i⟩

theorem encode_injective : Function.Injective encode := fun i j h =>
  Except.ok.inj ((decode_encode i).symm.trans (h ▸ decode_encode j))

/-! ### The rows of R302 and their words -/

theorem toNat_byteImm (b : Byte) : (byteImm b).toNat = b.toNat := by
  rw [byteImm, toNat_append_eq]
  simp

theorem byte_of_commandWord (op : BitVec 4) (b : Byte) : (commandWord op (byteImm b)).extractLsb' 0 8 = b := by
  have hb := b.isLt
  apply BitVec.eq_of_toNat_eq
  rw [toNat_extract_eq, toNat_commandWord, toNat_byteImm]
  omega

/-- The instruction's word matches its row (R302, R310, R312, R314). -/
theorem rowMatches_encode : ∀ i : Instr, rowMatches (rowOf i) (portNat (encode i)) = true
  | .setCap v => Laws.EncodesItsRow.setCap v
  | .encStart => Laws.EncodesItsRow.encStart
  | .encSym s => Laws.EncodesItsRow.encSym s
  | .encEnd => Laws.EncodesItsRow.encEnd
  | .decStart => Laws.EncodesItsRow.decStart
  | .decByte b => Laws.EncodesItsRow.decByte b
  | .decEnd => Laws.EncodesItsRow.decEnd
  | .pkCode v w => Laws.EncodesItsRow.pkCode v w
  | .pkFlush => Laws.EncodesItsRow.pkFlush
  | .upPush b => Laws.EncodesItsRow.upPush b
  | .upTake w => Laws.EncodesItsRow.upTake w
  | .upDrop => Laws.EncodesItsRow.upDrop
  | .csrRead a => Laws.EncodesItsRow.csrRead a

/-- A word that matches a row whose mask leaves its low m bits free is the row's OP with those bits as IMM. -/
theorem commandWord_of_rowMatches {m k : Nat} {op : BitVec 4} {imm : BitVec 16} {w : CmdWord} (hmk : m + k = 32)
    (hmatch : rowMatches ⟨(2 ^ k - 1) * 2 ^ m, op.toNat * 2 ^ 28⟩ w.toNat = true)
    (himm : imm.toNat = w.toNat % 2 ^ m) : commandWord op imm = w := by
  have hfixed : w.toNat / 2 ^ m * 2 ^ m = op.toNat * 2 ^ 28 := by
    have hlt : w.toNat / 2 ^ m < 2 ^ k := by
      rw [Nat.div_lt_iff_lt_mul (Nat.two_pow_pos m), ← pow_add, add_comm, hmk]
      exact w.isLt
    rw [← Nat.mod_eq_of_lt hlt, ← land_field]
    exact beq_iff_eq.1 hmatch
  apply BitVec.eq_of_toNat_eq
  rw [toNat_commandWord, himm, ← hfixed]
  exact Nat.div_add_mod' _ _

/-- The words a command's row matches are the words of the commands of that row (R302). -/
theorem rowMatches_iff {i : Instr} {c w : CmdWord} (hi : encode i = .command c) :
    rowMatches (rowOf i) w.toNat = true ↔ ∃ j, encode j = .command w ∧ rowOf j = rowOf i := by
  constructor
  · intro hmatch
    have bare := fun (op : BitVec 4) (h : rowMatches ⟨0xFFFFFFFF, op.toNat * 2 ^ 28⟩ w.toNat = true) =>
      congrArg PortWord.command (commandWord_of_rowMatches (m := 0) (k := 32) (imm := 0) rfl h (Nat.mod_one _).symm)
    have byte := fun (op : BitVec 4) (h : rowMatches ⟨0xFFFFFF00, op.toNat * 2 ^ 28⟩ w.toNat = true) =>
      congrArg PortWord.command (commandWord_of_rowMatches (m := 8) (k := 24)
        (imm := byteImm (w.extractLsb' 0 8)) rfl h (by rw [toNat_byteImm, toNat_extract_eq, pow_zero, Nat.div_one]))
    cases i with
    | setCap v =>
      have himm : (immField w).toNat = w.toNat % 2 ^ 16 := by rw [immField, toNat_extract_eq, pow_zero, Nat.div_one]
      exact ⟨.setCap (immField w),
        congrArg PortWord.command (commandWord_of_rowMatches (k := 16) (op := 1) rfl hmatch himm), rfl⟩
    | encStart => exact ⟨.encStart, bare 2 hmatch, rfl⟩
    | encSym x => exact ⟨.encSym (w.extractLsb' 0 8), byte 3 hmatch, rfl⟩
    | encEnd => exact ⟨.encEnd, bare 4 hmatch, rfl⟩
    | decStart => exact ⟨.decStart, bare 5 hmatch, rfl⟩
    | decByte b => exact ⟨.decByte (w.extractLsb' 0 8), byte 6 hmatch, rfl⟩
    | decEnd => exact ⟨.decEnd, bare 7 hmatch, rfl⟩
    | pkCode v w => cases hi
    | pkFlush => cases hi
    | upPush b => cases hi
    | upTake w => cases hi
    | upDrop => cases hi
    | csrRead a => cases hi
  · rintro ⟨j, hj, hrow⟩
    have hmatch := rowMatches_encode j
    rwa [hj, hrow] at hmatch

/-- Settles O4: a row's words are the words of its commands, and an operand is read back from its field. -/
theorem commandWordsMatchTheirRow : Obligations.CommandWordsMatchTheirRow := by
  refine ⟨fun _ => rfl, rfl, fun _ => rfl, rfl, rfl, fun _ => rfl, rfl, fun w c i hi => ?_,
    fun w => ⟨fun v h => ?_, fun x h => ?_, fun b h => ?_⟩⟩
  · simp only [decode_eq_ok_iff, rowMatches_iff hi]
  · obtain rfl := PortWord.command.inj (encode_of_decode h)
    exact (immField_commandWord 1 v).symm
  · obtain rfl := PortWord.command.inj (encode_of_decode h)
    exact (byte_of_commandWord 3 x).symm
  · obtain rfl := PortWord.command.inj (encode_of_decode h)
    exact (byte_of_commandWord 6 b).symm

end Sys2Proof

namespace Sys2Proof.Machine

/-! ### Illegal command words (R304, R305) -/

theorem noOperand_rejects_iff {imm : BitVec 16} {i : Instr} : (∃ r, noOperand imm i = .error r) ↔ imm ≠ 0 := by
  unfold noOperand
  split_ifs with h
  · simp [h]
  · exact iff_of_true ⟨_, rfl⟩ h

theorem byteOperand_rejects_iff {imm : BitVec 16} {i : Byte → Instr} :
    (∃ r, byteOperand imm i = .error r) ↔ imm.extractLsb' 8 8 ≠ 0 := by
  unfold byteOperand
  split_ifs with h
  · simp [h]
  · exact iff_of_true ⟨_, rfl⟩ h

/-- The high byte of IMM is [15:8] of the word. -/
theorem immField_high (w : CmdWord) : (immField w).extractLsb' 8 8 = w.extractLsb' 8 8 := by
  apply BitVec.eq_of_toNat_eq
  rw [toNat_extract_eq, immField, toNat_extract_eq, toNat_extract_eq]
  omega

/-- IllegalWord, in the fields the decoder reads. -/
theorem illegalWord_iff_fields (w : CmdWord) : IllegalWord w ↔
    (opField w).toNat = 0 ∨ 8 ≤ (opField w).toNat ∨ rsvField w ≠ 0 ∨
    ((opField w).toNat ∈ [3, 6] ∧ (immField w).extractLsb' 8 8 ≠ 0) ∨
    ((opField w).toNat ∈ [2, 4, 5, 7] ∧ immField w ≠ 0) := by
  rw [immField_high]
  rfl

/-- The decoder rejects exactly the illegal words (R305, R308). -/
theorem illegalWord_iff_rejected (w : CmdWord) : IllegalWord w ↔ ∃ r, decode (.command w) = .error r := by
  rw [illegalWord_iff_fields, decode, decodeCommand]
  by_cases hrsv : rsvField w = 0
  · rw [if_neg (not_not.2 hrsv)]
    split
    · next hop => simp [hop, hrsv]
    · next hop => simp [hop, hrsv, noOperand_rejects_iff]
    · next hop => simp [hop, hrsv, byteOperand_rejects_iff]
    · next hop => simp [hop, hrsv, noOperand_rejects_iff]
    · next hop => simp [hop, hrsv, noOperand_rejects_iff]
    · next hop => simp [hop, hrsv, byteOperand_rejects_iff]
    · next hop => simp [hop, hrsv, noOperand_rejects_iff]
    · have hop : (opField w).toNat = 0 ∨ 8 ≤ (opField w).toNat := by
        simp only [imp_false] at *
        omega
      exact iff_of_true (hop.imp_right .inl) ⟨_, rfl⟩
  · rw [if_pos hrsv]
    exact iff_of_true (.inr (.inr (.inl hrsv))) ⟨_, rfl⟩

/-- Settles O6: the decoder rejects the illegal words, and a rejected command word takes the fault ILLEGAL. -/
theorem illegalWordsTakeIllegal : Obligations.IllegalWordsTakeIllegal := by
  refine ⟨illegalWord_iff_rejected, fun w s hrun hw => ?_⟩
  obtain ⟨r, hr⟩ := (illegalWord_iff_rejected w).1 hw
  rw [acceptWord_of_reject hr, rejectWord, whenRunning_of_running hrun]
  rfl

/-! ### The legal command words and their number (R306) -/

theorem not_illegalWord_iff (w : CmdWord) : ¬ IllegalWord w ↔ ∃ i, decode (.command w) = .ok i := by
  rw [illegalWord_iff_rejected]
  cases decode (.command w) <;> simp

/-- Every value of an operand of n bits. -/
def operands (n : Nat) : List (BitVec n) := (List.finRange (2 ^ n)).map BitVec.ofFin

@[simp] theorem mem_operands {n : Nat} (x : BitVec n) : x ∈ operands n :=
  List.mem_map.2 ⟨x.toFin, List.mem_finRange _, rfl⟩

@[simp] theorem length_operands (n : Nat) : (operands n).length = 2 ^ n := by simp [operands]

theorem nodup_operands (n : Nat) : (operands n).Nodup :=
  (List.nodup_finRange _).map fun _ _ h => BitVec.ofFin.inj h

/-- The commands without an operand. -/
def bareCommands : List Instr := [.encStart, .encEnd, .decStart, .decEnd]

/-- Every command, by row and operand (R302, R303). -/
def commands : List Instr :=
  (operands 16).map .setCap ++ (operands 8).map .encSym ++ (operands 8).map .decByte ++ bareCommands

theorem nodup_commands : commands.Nodup := by
  have caps : ((operands 16).map Instr.setCap).Nodup := (nodup_operands 16).map fun _ _ => Instr.setCap.inj
  have syms : ((operands 8).map Instr.encSym).Nodup := (nodup_operands 8).map fun _ _ => Instr.encSym.inj
  have bytes : ((operands 8).map Instr.decByte).Nodup := (nodup_operands 8).map fun _ _ => Instr.decByte.inj
  simp [commands, List.nodup_append', List.disjoint_left, caps, syms, bytes, bareCommands]

theorem mem_commands_iff {i : Instr} : i ∈ commands ↔ encode i = .command (wordOf i) := by
  cases i <;> simp [commands, bareCommands, encode, wordOf]

/-- The words of a list of commands are the words that decode to one of them. -/
theorem mem_words_iff {is : List Instr} (his : ∀ i ∈ is, encode i = .command (wordOf i)) (w : CmdWord) :
    w ∈ is.map wordOf ↔ ∃ i ∈ is, decode (.command w) = .ok i := by
  rw [List.mem_map]
  refine exists_congr fun i => and_congr_right fun hi => ?_
  rw [decode_eq_ok_iff, his i hi, PortWord.command.injEq]

theorem nodup_words : (commands.map wordOf).Nodup :=
  nodup_commands.map_on fun i hi j hj h => encode_injective (by
    rw [mem_commands_iff.1 hi, mem_commands_iff.1 hj, h])

theorem mem_words_iff_legal (w : CmdWord) : w ∈ commands.map wordOf ↔ ¬ IllegalWord w := by
  rw [mem_words_iff fun _ => mem_commands_iff.1, not_illegalWord_iff]
  refine exists_congr fun i => and_iff_right_of_imp fun h => ?_
  have hi := encode_of_decode h
  rw [mem_commands_iff, wordOf, hi]

/-- Settles O5: the legal words are the words of `commands`, one for each, so they number what the commands number. -/
theorem legalCommandWordsAre66052 : Obligations.LegalCommandWordsAre66052 := by
  refine ⟨fun w c d i j hi hj hwi hwj => ?_, fun w => ?_, ((operands 16).map .setCap).map wordOf,
    ((operands 8).map .encSym).map wordOf, ((operands 8).map .decByte).map wordOf, bareCommands.map wordOf,
    fun w => ?_, fun w => ?_, fun w => ?_, fun w => ?_, ?_, ?_, ?_, ?_, ?_, ?_, ?_⟩
  · obtain ⟨i', hi', hrow⟩ := (rowMatches_iff hi).1 hwi
    obtain ⟨j', hj', hrow'⟩ := (rowMatches_iff hj).1 hwj
    rw [← hrow, ← hrow', encode_injective (hi'.trans hj'.symm)]
  · rw [not_illegalWord_iff]
    constructor
    · rintro ⟨i, hdecode⟩
      have hi := encode_of_decode hdecode
      exact ⟨i, w, hi, (rowMatches_iff hi).2 ⟨i, hi, rfl⟩⟩
    · rintro ⟨i, c, hi, hmatch⟩
      obtain ⟨j, hj, -⟩ := (rowMatches_iff hi).1 hmatch
      exact ⟨j, decode_eq_ok_iff.2 hj⟩
  · rw [mem_words_iff (List.forall_mem_map.2 fun _ _ => rfl)]; simp
  · rw [mem_words_iff (List.forall_mem_map.2 fun _ _ => rfl)]; simp
  · rw [mem_words_iff (List.forall_mem_map.2 fun _ _ => rfl)]; simp
  · rw [mem_words_iff (by decide)]; simp [bareCommands]
  · simp
  · simp
  · simp
  · rfl
  · simpa only [commands, List.map_append] using nodup_words
  · simp [bareCommands]
  · simpa only [commands, List.map_append] using mem_words_iff_legal

/-! ### The channel words a stand-alone unit refuses (R311, R313) -/

/-- The packer words that decode (R310). -/
theorem packer_of_decode {w : BitVec 22} {i : Instr} (h : decode (.packer w) = .ok i) :
    (∃ v n, i = .pkCode v n ∧ w = packerWord false n v) ∨ (i = .pkFlush ∧ w = packerWord true 0 0) := by
  have hi := encode_of_decode h
  cases i with
  | pkCode v n => exact .inl ⟨v, n, rfl, (PortWord.packer.inj hi).symm⟩
  | pkFlush => exact .inr ⟨rfl, (PortWord.packer.inj hi).symm⟩
  | _ => cases hi

/-- The unpacker words that decode (R312). -/
theorem unpacker_of_decode {w : BitVec 24} {i : Instr} (h : decode (.unpacker w) = .ok i) :
    (∃ b, i = .upPush b ∧ w = unpackerWord 0 0 b) ∨ (∃ n, i = .upTake n ∧ w = unpackerWord 1 n 0) ∨
    (i = .upDrop ∧ w = unpackerWord 2 0 0) := by
  have hi := encode_of_decode h
  cases i with
  | upPush b => exact .inl ⟨b, rfl, (PortWord.unpacker.inj hi).symm⟩
  | upTake n => exact .inr (.inl ⟨n, rfl, (PortWord.unpacker.inj hi).symm⟩)
  | upDrop => exact .inr (.inr ⟨rfl, (PortWord.unpacker.inj hi).symm⟩)
  | _ => cases hi

/-- The legal PK_CODE operands, in the words of R311. -/
theorem codeInRange_iff {v : Code} {n : BitVec 5} :
    codeInRange v n = true ↔ 9 ≤ n.toNat ∧ n.toNat ≤ 16 ∧ v.toNat < 2 ^ n.toNat := by
  simp [codeInRange, widthInRange, and_assoc]

theorem execPkCode_of_legal {v : Code} {n : BitVec 5} (h : codeInRange v n = true) (s : State) :
    execPkCode v n s = .next { s with enc := packCode v n.toNat s.enc } := by
  rw [execPkCode, if_pos h]

theorem pkCode_refused_iff {v : Code} {n : BitVec 5} {s : State} :
    exec (.pkCode v n) s = .refused .packerWordNotLegal ↔ ¬ codeInRange v n = true := by
  rw [exec]
  by_cases h : codeInRange v n = true
  · simp [execPkCode_of_legal h, h]
  · simp [execPkCode, h]

theorem upTake_refused_iff {n : BitVec 5} {s : State} :
    exec (.upTake n) s = .refused .unpackerWordNotLegal ↔ ¬ takeInRange n s.dec.upBits = true := by
  rw [exec]
  by_cases h : takeInRange n s.dec.upBits = true
  · simp [execUpTake_of_legal h, h]
  · simp [execUpTake_of_illegal h, h]

theorem packer_refused_iff (w : BitVec 22) (s : State) : acceptWord (.packer w) s = .refused .packerWordNotLegal ↔
    ¬ ((w.getLsbD 21 = false ∧ codeInRange (w.extractLsb' 0 16) (w.extractLsb' 16 5) = true) ∨
      w = packerWord true 0 0) := by
  rcases hdecode : decode (.packer w) with r | i
  · rw [acceptWord_of_reject hdecode]
    refine iff_of_true rfl ?_
    rintro (⟨hkind, -⟩ | rfl)
    · rw [decode, decodePacker, hkind] at hdecode
      cases hdecode
    · cases (decode_encode .pkFlush).symm.trans hdecode
  · rw [acceptWord_of_decode hdecode]
    rcases packer_of_decode hdecode with ⟨v, n, rfl, rfl⟩ | ⟨rfl, rfl⟩
    · have hflush : packerWord false n v ≠ packerWord true 0 0 := fun h => by
        simpa only [packerWord_kind, Bool.false_eq_true] using congrArg (·.getLsbD 21) h
      simp only [pkCode_refused_iff, packerWord_kind, packerWord_width, packerWord_value, hflush, true_and, or_false]
    · exact iff_of_false (by simp [exec, execPkFlush]) (not_not.2 (.inr rfl))

theorem unpackerWord_width (uop : BitVec 2) (n : BitVec 5) (b : Byte) :
    (unpackerWord uop n b).extractLsb' 16 5 = n := by
  apply BitVec.eq_of_toNat_eq
  rw [toNat_extract_eq, toNat_unpackerWord]
  omega

theorem unpackerWord_byte (uop : BitVec 2) (n : BitVec 5) (b : Byte) : (unpackerWord uop n b).extractLsb' 0 8 = b := by
  apply BitVec.eq_of_toNat_eq
  rw [toNat_extract_eq, toNat_unpackerWord]
  omega

theorem unpackerWord_reserved (uop : BitVec 2) (n : BitVec 5) (b : Byte) :
    (unpackerWord uop n b).getLsbD 21 = false ∧ (unpackerWord uop n b).extractLsb' 8 8 = 0 := by
  constructor
  · rw [← BitVec.testBit_toNat, toNat_unpackerWord, Nat.testBit_eq_decide_div_mod_eq, decide_eq_false_iff_not]
    omega
  · apply BitVec.eq_of_toNat_eq
    rw [toNat_extract_eq, toNat_unpackerWord]
    simp
    omega

theorem unpacker_refused_iff (w : BitVec 24) (s : State) :
    acceptWord (.unpacker w) s = .refused .unpackerWordNotLegal ↔
      ¬ (w.getLsbD 21 = false ∧ w.extractLsb' 8 8 = 0 ∧
        ((w.extractLsb' 22 2 = 0 ∧ w.extractLsb' 16 5 = 0) ∨
         (w.extractLsb' 22 2 = 1 ∧ takeInRange (w.extractLsb' 16 5) s.dec.upBits = true ∧ w.extractLsb' 0 8 = 0) ∨
         (w.extractLsb' 22 2 = 2 ∧ w.extractLsb' 16 5 = 0 ∧ w.extractLsb' 0 8 = 0))) := by
  rcases hdecode : decode (.unpacker w) with r | i
  · rw [acceptWord_of_reject hdecode]
    refine iff_of_true rfl ?_
    rintro ⟨hbit, hreserved, hfields⟩
    have noInstr : ∀ i, encode i ≠ .unpacker w := fun i hi => by
      cases hdecode.symm.trans (decode_eq_ok_iff.2 hi)
    have hw := unpackerWord_fields hbit hreserved
    rcases hfields with ⟨huop, hn⟩ | ⟨huop, -, hb⟩ | ⟨huop, hn, hb⟩
    · rw [huop, hn] at hw
      exact noInstr (.upPush _) (congrArg _ hw)
    · rw [huop, hb] at hw
      exact noInstr (.upTake _) (congrArg _ hw)
    · rw [huop, hn, hb] at hw
      exact noInstr .upDrop (congrArg _ hw)
  · rw [acceptWord_of_decode hdecode]
    rcases unpacker_of_decode hdecode with ⟨b, rfl, rfl⟩ | ⟨n, rfl, rfl⟩ | ⟨rfl, rfl⟩
    · obtain ⟨hbit, hreserved⟩ := unpackerWord_reserved 0 0 b
      exact iff_of_false (by simp [exec, execUpPush])
        (not_not.2 ⟨hbit, hreserved, .inl ⟨unpackerWord_uop .., unpackerWord_width ..⟩⟩)
    · simp only [upTake_refused_iff, unpackerWord_reserved, unpackerWord_uop, unpackerWord_width, unpackerWord_byte]
      simp
    · obtain ⟨hbit, hreserved⟩ := unpackerWord_reserved 2 0 0
      exact iff_of_false (by simp [exec, execUpDrop]) (not_not.2
        ⟨hbit, hreserved, .inr (.inr ⟨unpackerWord_uop .., unpackerWord_width .., unpackerWord_byte ..⟩)⟩)

/-- A code of ETAB fits the width of an encoder that meets the invariant, and that width is legal (R160, R311). -/
theorem codeInRange_of_encInv {e : Enc} (h : EncInv e) {p : Pattern} {c : Code} (hc : etabLookup p e.table = some c) :
    codeInRange c e.width = true := by
  have hcap := e.cap.isLt
  have hcapped := h.capped
  have hwidth := bitlen_range h.seeded (by omega)
  have hwidth16 := bitlen_le_16 (n := e.count.toNat) (by omega)
  have hlt := (bitlen_bounds (n := e.count.toNat) (by have := h.seeded; omega)).2
  rw [codeInRange_iff, h.width]
  exact ⟨hwidth.1, hwidth16, (h.bounded p c hc).trans hlt⟩

/-- Settles O32: the two units refuse what their legal sets leave out, and the invariants put the words of the encoder
and the decoder into the legal sets. -/
theorem illegalChannelWordsAreRefused : Obligations.IllegalChannelWordsAreRefused := by
  refine ⟨fun w s => ?_, fun w s => ?_, fun p c s hinv hc => ?_, fun b s hinv hpending h16 => ?_⟩
  · rw [packer_refused_iff, codeInRange_iff]
    rfl
  · rw [unpacker_refused_iff, takeInRange_iff]
    simp only [and_assoc]
  · exact ⟨_, execPkCode_of_legal (codeInRange_of_encInv hinv hc) s⟩
  · have h9 : 9 ≤ s.dec.width.toNat := hinv.width ▸ (bitlen_range hinv.counted.1 hinv.counted.2).1
    have htake : takeInRange s.dec.width (unpackPush b s.dec).upBits = true :=
      takeInRange_iff.2 ⟨⟨h9, h16⟩, by simpa using hpending⟩
    rw [acceptAll_eventsOf_cons, exec, execUpPush, andThen_next, acceptAll_eventsOf_cons, exec,
      execUpTake_of_legal htake]
    exact ⟨_, rfl⟩

/-! ### The assembler's words (R320 to R322) -/

theorem commandWord_eq_ofNat (op : BitVec 4) (imm : BitVec 16) :
    commandWord op imm = BitVec.ofNat 32 (op.toNat * 2 ^ 28 + imm.toNat) := by
  rw [← toNat_commandWord, BitVec.ofNat_toNat, BitVec.setWidth_eq]

theorem wordOf_setCap {v : Nat} (hv : v ≤ 65535) :
    wordOf (.setCap (BitVec.ofNat 16 v)) = BitVec.ofNat 32 (0x10000000 + v) := by
  rw [wordOf, encode]
  simp only [commandWord_eq_ofNat]
  rw [BitVec.toNat_ofNat, Nat.mod_eq_of_lt (by omega)]
  rfl

/-- The word of a command with a byte is its OP and the byte. -/
theorem commandWord_byteImm_ofNat (op : BitVec 4) {b : Nat} (hb : b ≤ 255) :
    commandWord op (byteImm (BitVec.ofNat 8 b)) = BitVec.ofNat 32 (op.toNat * 2 ^ 28 + b) := by
  rw [commandWord_eq_ofNat, toNat_byteImm, BitVec.toNat_ofNat, Nat.mod_eq_of_lt (by omega)]

theorem wordOf_encSym {x : Nat} (hx : x ≤ 255) :
    wordOf (.encSym (BitVec.ofNat 8 x)) = BitVec.ofNat 32 (0x30000000 + x) := commandWord_byteImm_ofNat 3 hx

theorem wordOf_decByte {b : Nat} (hb : b ≤ 255) :
    wordOf (.decByte (BitVec.ofNat 8 b)) = BitVec.ofNat 32 (0x60000000 + b) := commandWord_byteImm_ofNat 6 hb

/-- A command with an operand up to `top` whose word is known there. -/
theorem ranged_eq {top n : Nat} {i : Instr} {w : CmdWord} (hw : n ≤ top → wordOf i = w) :
    ranged (top + 1) n i = if n ≤ top then some [w] else none := by
  rw [ranged, if_congr Nat.lt_succ_iff rfl rfl]
  split_ifs with h
  · rw [hw h]
  · rfl

/-- Settles O7, by the words of the commands with an operand. -/
theorem assemblerWritesTheTableWords : Obligations.AssemblerWritesTheTableWords := by
  refine ⟨fun v => ranged_eq wordOf_setCap, rfl, fun x => ranged_eq wordOf_encSym, rfl, rfl,
    fun b => ranged_eq wordOf_decByte, rfl, fun w => ?_⟩
  rw [assemble, if_pos w.isLt, BitVec.ofNat_toNat, BitVec.setWidth_eq]

/-- A list of bytes expands to one word per byte, in order (R322). -/
theorem perByte_eq {i : Byte → Instr} {f : Nat → CmdWord} (hf : ∀ c ≤ 255, wordOf (i (BitVec.ofNat 8 c)) = f c)
    {bytes : List Nat} (hbytes : ∀ c ∈ bytes, c ≤ 255) : perByte i bytes = some (bytes.map f) := by
  induction bytes with
  | nil => rfl
  | cons c bytes ih =>
    obtain ⟨hc, hbytes⟩ := List.forall_mem_cons.1 hbytes
    rw [perByte, ranged_eq (top := 255) (hf c), if_pos hc, ih hbytes]
    rfl

/-- Settles O8, by the words of the listed bytes. -/
theorem pseudoInstructionsExpand : Obligations.PseudoInstructionsExpand := by
  intro bytes hbytes
  have hsyms := perByte_eq (fun _ => wordOf_encSym) hbytes
  have hdecs := perByte_eq (fun _ => wordOf_decByte) hbytes
  refine ⟨hsyms, ?_, fun v hv => ?_, hdecs, ?_⟩
  · rw [assemble, hsyms]; rfl
  · rw [assemble, hsyms, ranged_eq (top := 65535) wordOf_setCap, if_pos hv]; rfl
  · rw [assemble, hdecs]; rfl

/-- Settles O1: the assembler is run on the five lines; the words are the encodings of their instructions. -/
theorem writtenWordsDecode : Obligations.WrittenWordsDecode :=
  ⟨by decide +kernel, decode_encode (.encSym 0x41), by decide +kernel, decode_encode (.setCap 0),
    by decide +kernel, decode_encode (.setCap 10000), by decide +kernel, decode_encode (.decByte 0xC8),
    by decide +kernel, rfl, decode_encode (.pkCode 65 9), decode_encode .pkFlush, decode_encode (.upPush 4),
    decode_encode (.upTake 9), decode_encode .upDrop, decode_encode (.csrRead 0x28)⟩

end Sys2Proof.Machine
end

section
/-!
PROOFS. The statement of 40_symbol_table.md: an insert into ETAB succeeds exactly below the cap, and the bound this puts
on the table.
-/

namespace Sys2Proof.Machine

/-- The test of ETAB.insert, on the count (R402). -/
theorem etabInsert_isSome_iff {p : Pattern} {e : Enc} :
    (etabInsert p e).isSome = true ↔ e.count.toNat < e.cap.toNat := by
  rw [etabInsert]
  split_ifs with hbelow
  · exact iff_of_true rfl hbelow
  · exact iff_of_false Bool.false_ne_true hbelow

/-- The count is the number of entries, so the bound of R160 (f) is one on the table. -/
theorem EncInv.length_table_le {e : Enc} (h : EncInv e) : e.table.length ≤ max 256 e.cap.toNat :=
  h.entries ▸ h.capped

/-- Settles O25: the encoder ENC_END meets has the operation's cap and keeps the invariant, and ENC_END leaves its
table. -/
theorem tableNeverExceedsTheCap : Obligations.TableNeverExceedsTheCap := by
  refine ⟨fun p e h => h.entries ▸ etabInsert_isSome_iff, fun v symbols s hrun => ?_⟩
  obtain ⟨e, haccept, he⟩ := acceptAll_compressCommands v symbols hrun
  refine ⟨_, haccept, ?_⟩
  calc (endEncoder e).table.length
      = e.table.length := by rw [endEncoder_table]
    _ ≤ max 256 e.cap.toNat := he.inv.length_table_le
    _ = max 256 v.toNat := by rw [he.cap]

end Sys2Proof.Machine
end

section
/-!
PROOFS. The statements of 41_width_policy.md: the width of each unit is the number of binary digits of its counter, a
counter rises by at most one within an operation, and how far the widths of the two sides agree.
-/

namespace Sys2Proof.Machine

/-! ### Binary digits -/

/-- A number has at most w binary digits exactly when it is below 2^w. -/
theorem bitlen_le_iff {n w : Nat} : bitlen n ≤ w ↔ n < 2 ^ w := by
  by_cases hn : n = 0
  · simp [bitlen, hn]
  · rw [bitlen, if_neg hn, Nat.succ_le_iff, Nat.log2_lt hn]

/-- A number that rises by at most one gains at most one binary digit, and loses none. -/
theorem bitlen_rise {m n : Nat} (hm : 0 < m) (hle : m ≤ n) (hstep : n ≤ m + 1) :
    bitlen m ≤ bitlen n ∧ bitlen n ≤ bitlen m + 1 := by
  refine ⟨bitlen_mono hle, (bitlen_mono hstep).trans ?_⟩
  rw [bitlen_succ hm]
  split_ifs <;> omega

/-- A bound M shows in the number of digits exactly from the next power of two past M on. -/
theorem bitlen_min_eq_iff (n M : Nat) : bitlen (min n M) = bitlen n ↔ n < 2 ^ bitlen M := by
  have hmono : Monotone bitlen := fun _ _ => bitlen_mono
  rw [hmono.map_min, min_eq_left_iff, bitlen_le_iff]

/-! ### The widths of a state that meets the invariant (R455, R459) -/

theorem EncInv.count_range {e : Enc} (h : EncInv e) : 256 ≤ e.count.toNat ∧ e.count.toNat ≤ 65535 := by
  have hcapped := h.capped
  have hcap := e.cap.isLt
  exact ⟨h.seeded, by omega⟩

theorem EncInv.width_range {e : Enc} (h : EncInv e) : 9 ≤ e.width.toNat ∧ e.width.toNat ≤ 16 := by
  obtain ⟨hlow, hhigh⟩ := h.count_range
  rw [h.width]
  exact ⟨(bitlen_range hlow (by omega)).1, bitlen_le_16 hhigh⟩

theorem DecInv.width_range {d : Dec} (h : DecInv d) : 9 ≤ d.width.toNat ∧ d.width.toNat ≤ 17 :=
  h.width ▸ bitlen_range h.counted.1 h.counted.2

theorem EncInv.count_bounds {e : Enc} (h : EncInv e) :
    2 ^ (e.width.toNat - 1) ≤ e.count.toNat ∧ e.count.toNat < 2 ^ e.width.toNat :=
  h.width ▸ bitlen_bounds (lt_of_lt_of_le (by decide) h.count_range.1)

theorem DecInv.count_bounds {d : Dec} (h : DecInv d) :
    2 ^ (d.width.toNat - 1) ≤ d.count.toNat ∧ d.count.toNat < 2 ^ d.width.toNat :=
  h.width ▸ bitlen_bounds (lt_of_lt_of_le (by decide) h.counted.1)

theorem EncInv.code_lt {e : Enc} (h : EncInv e) {p : Pattern} {c : Code} (hc : etabLookup p e.table = some c) :
    c.toNat < 2 ^ e.width.toNat :=
  (h.bounded p c hc).trans h.count_bounds.2

/-- The decoder's width is 17 at the last value of its counter only. -/
theorem DecInv.width_eq_17_iff {d : Dec} (h : DecInv d) : d.width = 17 ↔ d.count.toNat = 65536 := by
  constructor
  · intro h17
    have hlow := h.count_bounds.1
    rw [h17] at hlow
    exact le_antisymm h.counted.2 hlow
  · intro hcount
    have hwidth := h.width
    rw [hcount] at hwidth
    exact BitVec.eq_of_toNat_eq (hwidth.trans (by decide))

/-! ### How a counter moves (R452, R453) -/

/-- ENC_SYM's body inserts at most one entry. -/
theorem encodeSymbol_count {x : Byte} {e e' : Enc} (h : encodeSymbol x e = some e') :
    e'.count = e.count ∨ e'.count = e.count + 1 := by
  rcases encodeSymbol_cases h with ⟨c, _, rfl⟩ | ⟨c, _, _, rfl⟩
  · exact .inl rfl
  · rw [encodeMiss]
    rcases insertAndGrow_cases (e.pattern ++ [x]) { packCode c e.width.toNat e with pattern := [x] } with
      ⟨_, hgrow⟩ | ⟨_, hfull⟩
    · exact .inr (by rw [hgrow]; rfl)
    · exact .inl (by rw [hfull]; rfl)

/-- DEC_BYTE's body decodes at most one code. -/
theorem decodeByte_count {b : Byte} {d d' : Dec} (h : decodeByte b d = .done d') :
    d'.count = d.count ∨ d'.count = d.count + 1 := by
  rcases decodeByte_cases b d with ⟨_, hpush⟩ | ⟨_, _, htrap⟩ | ⟨_, _, hroute⟩
  · exact .inl (by rw [← Decoded.done.inj (hpush.symm.trans h)]; rfl)
  · cases htrap.symm.trans h
  · rw [hroute] at h
    refine .inr ?_
    rcases routeCode_cases (codeOf ((d.upBits ++ bitsOf Config.fill b).take d.width.toNat))
      { d with upBits := (d.upBits ++ bitsOf Config.fill b).drop d.width.toNat } with
      ⟨_, _, hknown⟩ | ⟨_, _, _, _, _, hkwk⟩ | ⟨_, _, htrap⟩
    · obtain ⟨_, _, _, _, hcount⟩ := deliver_keeps (hknown.symm.trans h)
      exact hcount
    · obtain ⟨_, _, _, _, hcount⟩ := deliver_keeps (hkwk.symm.trans h)
      exact hcount
    · cases htrap.symm.trans h

/-- Only a start and reset put the encoder's counter back; every other event leaves it or counts one entry. -/
theorem EncMove.count_rises {cap : BitVec 16} {e e' : Enc} {ev : Event} (move : EncMove cap e ev e')
    (noStart : ev ≠ .word (encode .encStart)) (noReset : ∀ ws, ev ≠ .reset ws) :
    e'.count = e.count ∨ e'.count = e.count + 1 := by
  cases move with
  | kept => exact .inl rfl
  | start => exact absurd rfl noStart
  | symbol _ done => exact encodeSymbol_count done
  | finish => exact .inl (endEncoder_count e)
  | code v w => exact .inl rfl
  | flush => exact .inl rfl
  | reset ws => exact absurd rfl (noReset ws)

/-- Only a start and reset put the decoder's counter back; every other event leaves it or counts one code. -/
theorem DecMove.count_rises {d d' : Dec} {ev : Event} (move : DecMove d ev d')
    (noStart : ev ≠ .word (encode .decStart)) (noReset : ∀ ws, ev ≠ .reset ws) :
    d'.count = d.count ∨ d'.count = d.count + 1 := by
  cases move with
  | kept => exact .inl rfl
  | start => exact absurd rfl noStart
  | byte _ done => exact decodeByte_count done
  | finish => exact .inl rfl
  | push b => exact .inl rfl
  | take w =>
    obtain ⟨_, _, _, hcount, _⟩ := unpackTake_keeps w.toNat d
    exact .inl hcount
  | drop => exact .inl rfl
  | reset ws => exact absurd rfl (noReset ws)

/-- A width that is bitlen of its counter before and after rises with it (R454). -/
theorem width_rises {w w' : BitVec 5} {n n' : BitVec 17} (hw : w.toNat = bitlen n.toNat)
    (hw' : w'.toNat = bitlen n'.toNat) (hpos : 0 < n.toNat) (hlt : n.toNat < 2 ^ 17 - 1) (h : n' = n ∨ n' = n + 1) :
    w.toNat ≤ w'.toNat ∧ w'.toNat ≤ w.toNat + 1 := by
  rw [hw, hw']
  rcases h with rfl | rfl
  · exact ⟨le_rfl, Nat.le_succ _⟩
  · have hsucc : (n + 1).toNat = n.toNat + 1 := BitVec.toNat_add_of_lt (by simp; omega)
    exact bitlen_rise hpos (by omega) (by omega)

/-- Settles O28: the invariant ties each width to its counter before and after the step, and the counter rises by at
most one. -/
theorem widthsNeverDecrease : Obligations.WidthsNeverDecrease := by
  intro s t h hstep noReset
  have h' : Inv t := stepKeepsTheInvariant s t h hstep
  rcases hq : s.ports.input with _ | ⟨ev, rest⟩
  · rw [step_of_no_event hq] at hstep
    obtain rfl := Host.Outcome.next.inj hstep
    exact ⟨fun _ => ⟨le_rfl, Nat.le_succ _⟩, fun _ => ⟨le_rfl, Nat.le_succ _⟩⟩
  · rw [step_of_event hq] at hstep
    simp only [hq, List.head?_cons, ne_eq, Option.some.injEq] at noReset ⊢
    obtain ⟨_, enc, dec, _⟩ := eventEffect_of_acceptEvent hstep
    obtain ⟨henc, henc'⟩ := h.enc.count_range
    obtain ⟨hdec, hdec'⟩ := h.dec.counted
    refine ⟨fun noStart => ?_, fun noStart => ?_⟩
    · exact width_rises h.enc.width h'.enc.width (by omega) (by omega) (enc.count_rises noStart noReset)
    · exact width_rises h.dec.width h'.dec.width (by omega) (by omega) (dec.count_rises noStart noReset)

/-! ### The end of the decoder's codes (R459, R713) -/

/-- At width 17 DEC_BYTE's body completes only by storing its byte. -/
theorem decodeByte_of_width_17 {b : Byte} {d d' : Dec} (h17 : d.width = 17) (h : decodeByte b d = .done d') :
    d' = unpackPush b d := by
  have hwidth : d.width.toNat = 17 := congrArg BitVec.toNat h17
  rcases decodeByte_cases b d with ⟨_, hpush⟩ | ⟨_, _, htrap⟩ | ⟨_, h16, _⟩
  · exact (Decoded.done.inj (hpush.symm.trans h)).symm
  · cases htrap.symm.trans h
  · omega

/-- At width 17 the decoder decodes and outputs nothing more, until it is started again or reset. -/
theorem DecMove.no_code_of_width_17 {d d' : Dec} {ev : Event} (move : DecMove d ev d') (h17 : d.width = 17)
    (noStart : ev ≠ .word (encode .decStart)) (noReset : ∀ ws, ev ≠ .reset ws) :
    d'.count = d.count ∧ d'.out = d.out := by
  cases move with
  | kept => exact ⟨rfl, rfl⟩
  | start => exact absurd rfl noStart
  | byte _ done => exact decodeByte_of_width_17 h17 done ▸ ⟨rfl, rfl⟩
  | finish => exact ⟨rfl, rfl⟩
  | push b => exact ⟨rfl, rfl⟩
  | take w =>
    obtain ⟨_, _, _, hcount, _, _, hout⟩ := unpackTake_keeps w.toNat d
    exact ⟨hcount, hout⟩
  | drop => exact ⟨rfl, rfl⟩
  | reset ws => exact absurd rfl (noReset ws)

/-- Settles O27: the invariant holds after the step, and gives the widths of both units; at width 17 a DEC_BYTE is no
move that decodes. -/
theorem widthsFollowTheClosedForm : Obligations.WidthsFollowTheClosedForm := by
  intro s t h hstep
  obtain ⟨_, henc, hdec, _⟩ : Inv t := stepKeepsTheInvariant s t h hstep
  refine ⟨henc.width, hdec.width, henc.count_bounds.1, henc.count_bounds.2, hdec.count_bounds.1, hdec.count_bounds.2,
    henc.entries, fun _ _ => henc.code_lt, henc.width_range.1, henc.width_range.2, hdec.width_range.1,
    hdec.width_range.2, hdec.width_eq_17_iff, fun h17 b u hexec => ?_⟩
  have noStart : Event.word (encode (.decByte b)) ≠ .word (encode .decStart) := fun he =>
    nomatch encode_injective (Event.word.inj he)
  exact (eventEffect_of_exec hexec).dec.no_code_of_width_17 h17 noStart (fun _ he => nomatch he)

/-! ### The widths of the two sides, code by code (R457) -/

/-- Settles O57: the encoder's width by the parse of compress, the decoder's by the invariant; a bound M on the counter
does not show before the next power of two. -/
theorem codeWidthsFollowTheirClosedForms : Obligations.CodeWidthsFollowTheirClosedForms := by
  refine ⟨fun symbols v k hk h => ?_, fun s k h hcount _ => hcount ▸ h.dec.width, fun M k _ hk => ?_, by decide,
    fun v hv => ?_⟩
  · rw [compCodes_width symbols v (k - 1) h, Nat.add_sub_assoc hk]
  · rw [bitlen_min_eq_iff]
    omega
  · rw [max_eq_left hv, bitlen_256]
    rfl

end Sys2Proof.Machine
end

section
/-!
PROOFS. The statements of 42_bit_packer.md: the bytes PK_CODE sends and the bits it leaves, and the padded byte of
PK_FLUSH.
-/

namespace Sys2Proof.Machine

/-! ### PK_CODE (R500) -/

/-- PK_CODE as one update of the packer: the bytes sent and the bits left, in order, are the bits that were pending and
the code's bits, and no whole byte is left. -/
theorem packCode_sends (v : Code) (w : Nat) (e : Enc) :
    ∃ (sent : List Byte) (rest : Bits), packCode v w e = { e with out := e.out ++ sent, pkBits := rest } ∧
      sent.flatMap (bitsOf Config.fill) ++ rest = e.pkBits ++ msbBits v.toNat w ∧ rest.length < 8 :=
  ⟨_, _, rfl, by rw [← msbFirst_eq]; exact drainBytes_bits _ _ _, drainBytes_rest_lt _ _ _ le_rfl⟩

/-- The bits of the bytes sent and the bits left, counted. -/
theorem eight_mul_length_sent {f : Fill} {sent : List Byte} {rest pending : Bits} {v w : Nat}
    (h : sent.flatMap (bitsOf f) ++ rest = pending ++ msbBits v w) :
    8 * sent.length + rest.length = pending.length + w := by
  have hlength := congrArg List.length h
  rwa [List.length_append, length_flatMap_bitsOf, List.length_append, msbBits_length] at hlength

/-- With at most 7 bits pending, a code of a legal width makes 9 to 23 bits: one or two whole bytes (R500 (a)). -/
theorem length_sent_eq_one_or_two {f : Fill} {sent : List Byte} {rest pending : Bits} {v w : Nat}
    (h : sent.flatMap (bitsOf f) ++ rest = pending ++ msbBits v w) (hrest : rest.length < 8)
    (hpending : pending.length ≤ 7) (hlow : 9 ≤ w) (hhigh : w ≤ 16) : sent.length = 1 ∨ sent.length = 2 := by
  have hcount := eight_mul_length_sent h
  omega

/-- Settles O30: a legal word runs the packer's drain, whose bit equation counts the bytes and the bits left; any other
word is refused by the range check. -/
theorem pkCodeSendsTheCodeBits : Obligations.PkCodeSendsTheCodeBits := by
  intro v w s
  rw [← codeInRange_iff]
  refine ⟨fun hlegal => ?_, pkCode_refused_iff.2⟩
  obtain ⟨hlow, hhigh, _⟩ := codeInRange_iff.1 hlegal
  obtain ⟨sent, rest, hpack, hbits, hrest⟩ := packCode_sends v w.toNat s.enc
  refine ⟨sent, rest, ?_, hbits, ?_, fun hpending => length_sent_eq_one_or_two hbits hrest hpending hlow hhigh⟩
  · rw [exec, execPkCode_of_legal hlegal, hpack]
  · have hcount := eight_mul_length_sent hbits
    omega

/-! ### PK_FLUSH (R510) -/

theorem packFlush_of_nil {e : Enc} (h : e.pkBits = []) : packFlush e = e := by
  rw [packFlush, if_pos (List.length_eq_zero_iff.2 h), ← h]

theorem packFlush_of_ne_nil {e : Enc} (h : e.pkBits ≠ []) :
    packFlush e = { e with out := e.out ++ [padByte Config.fill e.pkBits], pkBits := [] } := by
  rw [packFlush, if_neg (mt List.length_eq_zero_iff.1 h)]

/-- Settles O31, by whether a bit is pending. -/
theorem pkFlushPadsWithZeros : Obligations.PkFlushPadsWithZeros := by
  refine fun s => ⟨fun hnone => ?_, fun hpending _ => ?_⟩
  · rw [exec, execPkFlush, packFlush_of_nil hnone]
  · rw [exec, execPkFlush, packFlush_of_ne_nil hpending, padByte]

end Sys2Proof.Machine
end

section
/-!
PROOFS. The statements of 43_bit_unpacker.md: the bits UP_PUSH appends, the code UP_TAKE folds and answers, its inverse
PK_CODE, and the bits UP_DROP drops.
-/

namespace Sys2Proof.Machine

/-! ### UP_TAKE (R560) -/

/-- The answer OK = 1 with a code, as a number (R312). -/
theorem takeAnswer_some (c : Code) : takeAnswer (some c) = BitVec.ofNat 17 (2 ^ 16 + c.toNat) := by
  have hc := c.isLt
  apply BitVec.eq_of_toNat_eq
  rw [takeAnswer, toNat_append_eq, BitVec.toNat_ofNat, Nat.mod_eq_of_lt (by omega)]
  rfl

/-- A legal UP_TAKE takes its bits and answers their fold. -/
theorem exec_upTake_of_legal {w : BitVec 5} {s : State} (h : takeInRange w s.dec.upBits = true) :
    exec (.upTake w) s = .next { s with
      dec := { s.dec with upBits := s.dec.upBits.drop w.toNat }
      ports := { s.ports with
        takeAnswers := s.ports.takeAnswers ++ [BitVec.ofNat 17 (2 ^ 16 + foldMsb 0 (s.dec.upBits.take w.toNat))] } } := by
  obtain ⟨⟨_, hwide⟩, _⟩ := takeInRange_iff.1 h
  have hcode : (codeOf (s.dec.upBits.take w.toNat)).toNat = foldMsb 0 (s.dec.upBits.take w.toNat) :=
    codeOf_toNat ((List.length_take_le _ _).trans hwide)
  rw [exec, execUpTake_of_legal h, takeAnswer_some, hcode]

/-- Settles O34, by the range check of UP_TAKE: inside it the fold of w bits is answered; too few bits and a width out of
range are both outside it. -/
theorem upTakeFoldsTheBits : Obligations.UpTakeFoldsTheBits := by
  intro w s
  simp only [← foldMsb_eq_foldl, upTake_refused_iff, takeInRange_iff]
  refine ⟨fun hlow hhigh hpending => ⟨?_, ?_⟩, fun hshort => ?_, fun hrange ⟨hin, _⟩ => hrange hin⟩
  · have hfold := foldMsb_lt (s.dec.upBits.take w.toNat)
    rwa [List.length_take_of_le hpending] at hfold
  · exact exec_upTake_of_legal (takeInRange_iff.2 ⟨⟨hlow, hhigh⟩, hpending⟩)
  · rw [unpackTake_of_short hshort]
    exact ⟨rfl, rfl, fun ⟨_, henough⟩ => hshort.not_ge henough⟩

/-! ### UP_TAKE after PK_CODE (R560 (c)) -/

/-- PK_FLUSH completes the packed stream of the bits sent since the output was `o`. -/
theorem packFlush_out {e : Enc} {o bytes : List Byte} (hout : e.out = o ++ bytes) (hpending : e.pkBits.length < 8) :
    (packFlush e).out = o ++ packedStream Config.fill (bytes.flatMap (bitsOf Config.fill) ++ e.pkBits) := by
  rw [packedStream_bytes _ _ _ hpending, packFlush, hout]
  split_ifs
  · rw [List.append_nil]
  · rw [List.append_assoc]

/-- A code packed alone and flushed is the packed stream of its bits. -/
theorem packFlush_packCode_out (v : Code) (w : Nat) {e : Enc} (h : e.pkBits = []) :
    (packFlush (packCode v w e)).out = e.out ++ packedStream Config.fill (msbBits v.toNat w) := by
  obtain ⟨bytes, hout, hbits, hpending⟩ := packCode_bits v w e
  rw [packFlush_out hout hpending, hbits, h, List.nil_append, msbFirst_eq]

/-- A legal PK_CODE, then PK_FLUSH. -/
theorem acceptAll_pkCode_pkFlush {v : Code} {w : BitVec 5} (h : codeInRange v w = true) (s : State) :
    acceptAll (eventsOf [.pkCode v w, .pkFlush]) s = .next { s with enc := packFlush (packCode v w.toNat s.enc) } := by
  rw [acceptAll_eventsOf_cons, exec, execPkCode_of_legal h, andThen_next, acceptAll_eventsOf_cons]
  rfl

/-- Pushing bytes whose bits begin with a code's, then taking the code's width, answers the code and leaves the bits
after it. -/
theorem acceptAll_upPushes_upTake {v : Code} {w : BitVec 5} {bytes : List Byte} {rest : Bits} {s : State}
    (hcode : codeInRange v w = true) (hempty : s.dec.upBits = [])
    (hbits : bytes.flatMap (bitsOf Config.fill) = msbBits v.toNat w.toNat ++ rest) :
    acceptAll (eventsOf (bytes.map .upPush ++ [.upTake w])) s = .next { s with
      dec := { s.dec with upBits := rest }
      ports := { s.ports with takeAnswers := s.ports.takeAnswers ++ [BitVec.ofNat 17 (2 ^ 16 + v.toNat)] } } := by
  obtain ⟨hlow, hhigh, hfits⟩ := codeInRange_iff.1 hcode
  have hlength := msbBits_length v.toNat w.toNat
  have hlegal : takeInRange w (msbBits v.toNat w.toNat ++ rest) = true :=
    takeInRange_iff.2 ⟨⟨hlow, hhigh⟩, by rw [List.length_append, hlength]; omega⟩
  rw [acceptAll_eventsOf_append, acceptAll_upPushes, andThen_next, acceptAll_eventsOf_cons, hempty, hbits,
    List.nil_append, exec_upTake_of_legal hlegal, andThen_next]
  simp only [List.take_left' hlength, List.drop_left' hlength, foldMsb_msbBits, Nat.mod_eq_of_lt hfits]
  rfl

/-- Settles O35: the bytes are the packed stream of the code's bits, which reads back as those bits and fewer than 8
zeros. -/
theorem upTakeInvertsPkCode : Obligations.UpTakeInvertsPkCode := by
  intro v w s t bytes hlow hhigh hfits hpacker hpack hout hunpacker
  have hcode : codeInRange v w = true := codeInRange_iff.2 ⟨hlow, hhigh, hfits⟩
  obtain rfl := Host.Outcome.next.inj ((acceptAll_pkCode_pkFlush hcode s).symm.trans hpack)
  have hstream : packedStream Config.fill (msbBits v.toNat w.toNat) = bytes :=
    List.append_cancel_left ((packFlush_packCode_out v w.toNat hpacker).symm.trans hout)
  obtain ⟨zeros, hzeros, hbits⟩ := packedStream_unpack_zeros Config.fill (msbBits v.toNat w.toNat)
  rw [hstream] at hbits
  exact ⟨_, zeros, acceptAll_upPushes_upTake hcode hunpacker hbits, rfl, hzeros, rfl⟩

/-! ### UP_PUSH (R550) and UP_DROP (R570) -/

/-- Under LSB_FIRST the bits of a byte are its bits from bit 0 up (R211). -/
theorem bitsOf_lsbFirst_eq_map (b : Byte) : bitsOf .lsbFirst b = (List.range 8).map fun i => b.getLsbD i := rfl

/-- Settles O33, by the fill of this hardware and the invariant's bound on the pending bits. -/
theorem upPushAppendsTheByteBits : Obligations.UpPushAppendsTheByteBits := by
  refine fun b s => ⟨?_, fun h _ => Nat.lt_succ_iff.1 h.upBits_lt⟩
  rw [exec, execUpPush, unpackPush, Config.fill, bitsOf_lsbFirst_eq_map]

/-- Settles O36: UP_DROP writes the pending bits alone, and the invariant keeps them below the width. -/
theorem upDropEmptiesTheUnpacker : Obligations.UpDropEmptiesTheUnpacker :=
  fun s => ⟨by rw [exec, execUpDrop, unpackDrop], fun h => h.pending⟩

end Sys2Proof.Machine
end

section
/-!
PROOFS. The statements of 44_encoder.md: what each command of the encoder sends and writes, the operation of one symbol,
and the whole compress operation beside compress.
-/

namespace Sys2Proof.Machine

/-! ### The words of the encoder commands (R302) -/

theorem decode_setCap_word (v : BitVec 16) :
    decode (.command (BitVec.ofNat 32 (0x10000000 + v.toNat))) = .ok (.setCap v) :=
  decode_eq_ok_iff.2 (congrArg PortWord.command (commandWord_eq_ofNat 1 v))

theorem decode_encSym_word (x : Byte) :
    decode (.command (BitVec.ofNat 32 (0x30000000 + x.toNat))) = .ok (.encSym x) :=
  decode_eq_ok_iff.2 (congrArg PortWord.command (toNat_byteImm x ▸ commandWord_eq_ofNat 3 (byteImm x)))

/-! ### SET_CAP (R600) -/

/-- Settles O19: SET_CAP and ENC_START by what they do in a running block, and no insert below a count of at least 256
at a cap of at most 256. -/
theorem setCapWritesTheCapOnly : Obligations.SetCapWritesTheCapOnly := by
  intro v s hrun
  refine ⟨decode_setCap_word v, exec_setCap_of_running hrun v, ?_, fun hcap p e h hlatched => ?_⟩
  · rw [acceptAll_eventsOf_cons, exec_setCap_of_running hrun, andThen_next, acceptAll_eventsOf_cons,
      exec_encStart_of_running (s := withEncAndCap s.enc v s) hrun]
    exact ⟨_, rfl, rfl⟩
  · have hseeded := h.seeded
    rw [etabInsert, if_neg (by rw [hlatched]; omega)]

/-! ### ENC_START (R610, R611) -/

/-- The seed map binds the one-symbol patterns to their symbols and nothing else (R400). -/
theorem etabLookup_seed_iff {p : Pattern} {c : Code} :
    etabLookup p etabSeed = some c ↔ ∃ b : Byte, p = [b] ∧ c = b.setWidth 16 :=
  ⟨etabLookup_seed_some, fun ⟨b, hp, hc⟩ => hp ▸ hc ▸ etabLookup_seed b⟩

/-- Settles O21: the encoder ENC_START leaves is the one `startEncoder` writes, and STATUS shows its `enc_active`, its
cap and its count of 256. -/
theorem encStartBeginsAnOperation : Obligations.EncStartBeginsAnOperation := by
  refine ⟨fun _ _ => etabLookup_seed_iff, rfl, fun s hrun => ⟨_, exec_encStart_of_running hrun, rfl, ?_⟩⟩
  obtain ⟨hactive, -, -, hreached, -⟩ :=
    statusBitsShowTheState.1 { s with enc := startEncoder s.ctrl.cap s.enc }
  exact ⟨hactive, hreached⟩

/-! ### ENC_SYM (R620) -/

/-- An insert with its growth as one update, while the counter cannot wrap: every write is the cap's word. -/
theorem insertAndGrow_eq {e : Enc} (hcount : e.count.toNat ≤ 65535) (p : Pattern) :
    insertAndGrow p e = { e with
      table := if e.count.toNat < e.cap.toNat then etabBind p (e.count.setWidth 16) e.table else e.table
      count := if e.count.toNat < e.cap.toNat then e.count + 1 else e.count
      width := if e.count.toNat < e.cap.toNat ∧ 2 ^ e.width.toNat ≤ e.count.toNat + 1 then e.width + 1
        else e.width } := by
  have hsucc : (e.count + 1).toNat = e.count.toNat + 1 := BitVec.toNat_add_of_lt (by simp; omega)
  rcases insertAndGrow_cases p e with ⟨hbelow, h⟩ | ⟨hcap, h⟩
  · simp only [h, hbelow, if_true, true_and, recordGrowthE, hsucc]
  · simp only [h, hcap.not_gt, if_false, false_and]

/-- The current pattern of a miss is not empty: the one-symbol candidates are seeds (R620 (a), (b)). -/
theorem EncInv.pattern_ne_nil {e : Enc} (h : EncInv e) {x : Byte}
    (hmiss : etabLookup (e.pattern ++ [x]) e.table = none) : e.pattern ≠ [] := by
  intro hnil
  rw [hnil, List.nil_append, h.seeds] at hmiss
  cases hmiss

/-- A pattern that is not empty has a code (R160 (e)). -/
theorem EncInv.exists_code {e : Enc} (h : EncInv e) (hpattern : e.pattern ≠ []) :
    ∃ c, etabLookup e.pattern e.table = some c := h.current.resolve_left hpattern

theorem encodeSymbol_of_hit {x : Byte} {e : Enc} {c : Code} (hhit : etabLookup (e.pattern ++ [x]) e.table = some c) :
    encodeSymbol x e = some { e with pattern := e.pattern ++ [x] } := by
  rw [encodeSymbol, hhit]

theorem encodeSymbol_of_miss {x : Byte} {e : Enc} {c : Code} (hmiss : etabLookup (e.pattern ++ [x]) e.table = none)
    (hcode : etabLookup e.pattern e.table = some c) : encodeSymbol x e = some (encodeMiss x c e) := by
  rw [encodeSymbol, hmiss, hcode]
  rfl

/-- Sending a code of ETAB from an encoder that meets the invariant: one or two whole bytes (R500 (a), R620 (f)). -/
theorem EncInv.packCode_one_or_two {e : Enc} (h : EncInv e) (c : Code) :
    ∃ (sent : List Byte) (rest : Bits),
      packCode c e.width.toNat e = { e with out := e.out ++ sent, pkBits := rest } ∧
      sent.flatMap (bitsOf Config.fill) ++ rest = e.pkBits ++ msbBits c.toNat e.width.toNat ∧ rest.length < 8 ∧
      (sent.length = 1 ∨ sent.length = 2) := by
  obtain ⟨hlow, hhigh⟩ := h.width_range
  obtain ⟨sent, rest, hpack, hbits, hrest⟩ := packCode_sends c e.width.toNat e
  exact ⟨sent, rest, hpack, hbits, hrest, length_sent_eq_one_or_two hbits hrest h.pending hlow hhigh⟩

theorem exec_encSym_of_idle {s : State} (hrun : Running s) (hidle : s.enc.active = false) (x : Byte) :
    exec (.encSym x) s = .next (takeFault .encSeq (wordOf (.encSym x)) s) := by
  rw [exec, execEncSym, whenEncoding_of_idle hrun hidle]

/-- Settles O22: on a hit the pattern grows; a miss finds a pattern with a code, which the packer sends, and the insert
with its growth is the cap's word. -/
theorem encSymMatchesOrEmits : Obligations.EncSymMatchesOrEmits := by
  refine ⟨decode_encSym_word, fun x s hrun hidle => ⟨_, exec_encSym_of_idle hrun hidle x, rfl, rfl⟩,
    fun x s hrun hactive h => ⟨fun hfirst => ?_, fun c hhit => ?_, fun hmiss => ?_⟩⟩
  · exact ⟨_, by rw [hfirst]; exact h.seeds x⟩
  · exact exec_encSym_of_active hrun hactive (encodeSymbol_of_hit hhit)
  · have hpattern := h.pattern_ne_nil hmiss
    obtain ⟨c, hcode⟩ := h.exists_code hpattern
    obtain ⟨sent, rest, hpack, hbits, hrest, hsent⟩ := h.packCode_one_or_two c
    refine ⟨c, sent, rest, hpattern, hcode, hsent, hrest, hbits, ?_⟩
    rw [exec_encSym_of_active hrun hactive (encodeSymbol_of_miss hmiss hcode), encodeMiss, hpack,
      insertAndGrow_eq]
    exact h.count_range.2

/-! ### ENC_END (R630) -/

/-- ENC_END's final code as one update of the packer: at most two bytes, with the code's bits if a pattern is left and
none else (R630, R640). -/
theorem EncInv.encodeFinal_sends {e : Enc} (h : EncInv e) :
    ∃ (sent : List Byte) (rest final : Bits),
      ((e.pattern = [] ∧ final = []) ∨
        (e.pattern ≠ [] ∧ ∃ c, etabLookup e.pattern e.table = some c ∧ final = msbBits c.toNat e.width.toNat)) ∧
      encodeFinal e = { e with out := e.out ++ sent, pkBits := rest } ∧
      sent.flatMap (bitsOf Config.fill) ++ rest = e.pkBits ++ final ∧ rest.length < 8 ∧ sent.length ≤ 2 := by
  rcases encodeFinal_cases e with ⟨hnil, hfinal⟩ | ⟨c, hpattern, hcode, hfinal⟩ | ⟨hpattern, hnone, _⟩
  · refine ⟨[], e.pkBits, [], .inl ⟨hnil, rfl⟩, ?_, by simp, Nat.lt_succ_of_le h.pending, by simp⟩
    rw [hfinal, List.append_nil]
  · obtain ⟨sent, rest, hpack, hbits, hrest, hsent⟩ := h.packCode_one_or_two c
    exact ⟨sent, rest, _, .inr ⟨hpattern, c, hcode, rfl⟩, hfinal.trans hpack, hbits, hrest, by omega⟩
  · obtain ⟨c, hcode⟩ := h.exists_code hpattern
    cases hnone.symm.trans hcode

/-- PK_FLUSH as one update of the packer: at most one byte, with the pending bits and fewer than 8 zeros (R510). -/
theorem packFlush_sends {e : Enc} (hpending : e.pkBits.length < 8) :
    ∃ (sent : List Byte) (zeros : Nat), packFlush e = { e with out := e.out ++ sent, pkBits := [] } ∧
      sent.flatMap (bitsOf Config.fill) = e.pkBits ++ List.replicate zeros false ∧ zeros < 8 ∧ sent.length ≤ 1 := by
  by_cases hnone : e.pkBits = []
  · refine ⟨[], 0, ?_, by simp [hnone], by decide, by simp⟩
    rw [packFlush_of_nil hnone, List.append_nil, ← hnone]
  · have hsome := List.length_pos_iff.2 hnone
    refine ⟨[padByte Config.fill e.pkBits], 8 - e.pkBits.length, packFlush_of_ne_nil hnone, ?_, by omega, le_rfl⟩
    rw [List.flatMap_singleton, bitsOf_padByte _ hpending.le]

theorem exec_encEnd_of_idle {s : State} (hrun : Running s) (hidle : s.enc.active = false) :
    exec .encEnd s = .next (takeFault .encSeq (wordOf .encEnd) s) := by
  rw [exec, execEncEnd, whenEncoding_of_idle hrun hidle]

/-- Settles O23: the bytes of the final code, then the byte of the flush. -/
theorem encEndFlushes : Obligations.EncEndFlushes := by
  refine ⟨rfl, fun s hrun hidle => ⟨_, exec_encEnd_of_idle hrun hidle, rfl, rfl⟩, fun s hrun hactive h => ?_⟩
  obtain ⟨coded, rest, final, hcase, hfinal, hcoded, hrest, hcodedLen⟩ := h.encodeFinal_sends
  obtain ⟨padded, zeros, hflush, hpadded, hzeros, hpaddedLen⟩ :=
    packFlush_sends (e := encodeFinal s.enc) (by rwa [hfinal])
  rw [hfinal] at hflush hpadded
  refine ⟨coded ++ padded, final, zeros, hcase, hzeros, by rw [List.length_append]; omega, ?_, ?_⟩
  · rw [List.flatMap_append, hpadded, ← List.append_assoc, hcoded]
  · rw [exec_encEnd_of_active hrun hactive, endEncoder, hfinal, hflush, List.append_assoc]

/-! ### The operation of one symbol (R651) -/

/-- The nine bits of a byte as a code, most significant first, in the two bytes of LSB_FIRST: the leading zero and bits
7 to 1, then bit 0. -/
theorem packedStream_nine_bits (b : Byte) :
    packedStream .lsbFirst (msbBits b.toNat 9) =
      [BitVec.ofNat 8 ((b.getLsbD 7).toNat * 2 ^ 1 + (b.getLsbD 6).toNat * 2 ^ 2 + (b.getLsbD 5).toNat * 2 ^ 3 +
        (b.getLsbD 4).toNat * 2 ^ 4 + (b.getLsbD 3).toNat * 2 ^ 5 + (b.getLsbD 2).toNat * 2 ^ 6 +
        (b.getLsbD 1).toNat * 2 ^ 7), BitVec.ofNat 8 (b.getLsbD 0).toNat] := by
  have hbits : msbBits b.toNat 9 = [false, b.getLsbD 7, b.getLsbD 6, b.getLsbD 5, b.getLsbD 4, b.getLsbD 3,
      b.getLsbD 2, b.getLsbD 1, b.getLsbD 0] := by
    simp only [msbBits, BitVec.testBit_toNat, BitVec.getLsbD_of_ge b 8 le_rfl]
  have hsum : ∀ b7 b6 b5 b4 b3 b2 b1 : Bool, lsbValue [false, b7, b6, b5, b4, b3, b2, b1] =
      b7.toNat * 2 ^ 1 + b6.toNat * 2 ^ 2 + b5.toNat * 2 ^ 3 + b4.toNat * 2 ^ 4 + b3.toNat * 2 ^ 5 +
        b2.toNat * 2 ^ 6 + b1.toNat * 2 ^ 7 := by
    intros
    simp only [lsbValue, Bool.toNat_false]
    ring
  rw [hbits, ← hsum]
  rfl

/-- ENC_END with no bit pending appends the packed stream of the current pattern's code alone. -/
theorem endEncoder_out_of_code {e : Enc} {c : Code} (hpattern : e.pattern ≠ [])
    (hcode : etabLookup e.pattern e.table = some c) (hpending : e.pkBits = []) :
    (endEncoder e).out = e.out ++ packedStream Config.fill (msbBits c.toNat e.width.toNat) := by
  have hfinal : encodeFinal e = packCode c e.width.toNat e := by
    rcases encodeFinal_cases e with ⟨hnil, _⟩ | ⟨c', _, hcode', hfinal⟩ | ⟨_, hnone, _⟩
    · exact absurd hnil hpattern
    · rw [hfinal, Option.some.inj (hcode.symm.trans hcode')]
    · cases hnone.symm.trans hcode
  rw [← packFlush_packCode_out c e.width.toNat hpending, ← hfinal]
  rfl

/-- An operation of one symbol that ENC_SYM takes completes with what ENC_END makes of the encoder. -/
theorem acceptAll_one_symbol {s : State} (hrun : Running s) {b : Byte} {e : Enc}
    (hsymbol : encodeSymbol b (startEncoder s.ctrl.cap s.enc) = some e) :
    acceptAll (eventsOf [.encStart, .encSym b, .encEnd]) s = .next { s with enc := endEncoder e } := by
  obtain ⟨hactive, -, -⟩ := encodeSymbol_keeps hsymbol
  have hsym := exec_encSym_of_active (s := { s with enc := startEncoder s.ctrl.cap s.enc }) hrun rfl hsymbol
  have hend := exec_encEnd_of_active (s := { s with enc := e }) hrun hactive
  rw [acceptAll_eventsOf_cons, exec_encStart_of_running hrun, andThen_next, acceptAll_eventsOf_cons, hsym, andThen_next,
    acceptAll_eventsOf_cons, hend]
  rfl

/-- Settles O24: the symbol hits the seed map, so ENC_END packs its 9-bit code alone. -/
theorem oneSymbolGivesItsNineBitCode : Obligations.OneSymbolGivesItsNineBitCode := by
  intro b s hrun
  have hseed : etabLookup [b] etabSeed = some (b.setWidth 16) := etabLookup_seed b
  refine ⟨_, acceptAll_one_symbol hrun (encodeSymbol_of_hit hseed), ?_, packedStream_nine_bits b⟩
  have hcode : (b.setWidth 16 : Code).toNat = b.toNat := BitVec.toNat_setWidth_of_le (by decide)
  rw [← hcode]
  exact endEncoder_out_of_code (List.cons_ne_nil b []) hseed rfl

/-! ### The whole compress operation (R650) -/

/-- Settles O53: the encoder goes along with the loop of compress symbol by symbol, and ENC_END with its last lines. -/
theorem compressOperationWritesCompress : Obligations.CompressOperationWritesCompress := by
  intro s v symbols hrun
  obtain ⟨e, haccept, he⟩ := acceptAll_compressCommands v symbols hrun
  exact ⟨_, haccept, hrun, mirrors_end he, rfl⟩

end Sys2Proof.Machine
end

section
/-!
PROOFS. The statements of 45_decoder.md: what each command of the decoder outputs and writes, the whole decompress
operation beside decompress, and the round trip of the two algorithms and of the block's two operations.
-/

namespace Sys2Proof.Machine

/-! ### The decoder commands in a running block -/

theorem exec_decStart_of_running {s : State} (hrun : Running s) :
    exec .decStart s = .next (withDec (startDecoder s.dec) s) := by
  rw [exec, execDecStart, whenRunning_of_running hrun]
  rfl

theorem exec_decByte_of_done {s : State} (hrun : Running s) (hactive : s.dec.active = true) {b : Byte} {d : Dec}
    (hdone : decodeByte b s.dec = .done d) : exec (.decByte b) s = .next (withDec d s) := by
  rw [exec, execDecByte, whenDecoding_of_active hrun hactive, hdone]
  rfl

theorem exec_decByte_of_trap {s : State} (hrun : Running s) (hactive : s.dec.active = true) {b : Byte}
    {cause : FaultCause} (htrap : decodeByte b s.dec = .trap cause) :
    exec (.decByte b) s = .next (takeFault cause (wordOf (.decByte b)) s) := by
  rw [exec, execDecByte, whenDecoding_of_active hrun hactive, htrap]

theorem exec_decEnd_of_active {s : State} (hrun : Running s) (hactive : s.dec.active = true) :
    exec .decEnd s = .next (withDec (endDecoder s.dec) s) := by
  rw [exec, execDecEnd, whenDecoding_of_active hrun hactive]
  rfl

theorem exec_decEnd_of_idle {s : State} (hrun : Running s) (hidle : s.dec.active = false) :
    exec .decEnd s = .next (takeFault .decSeq (wordOf .decEnd) s) := by
  rw [exec, execDecEnd, whenDecoding_of_idle hrun hidle]

/-! ### DEC_START (R700) and DEC_END (R730) -/

/-- The seed map binds the codes below 256 to their one-symbol patterns and nothing else (R410). -/
theorem dtabLookup_seed_iff {c : Code} {p : Pattern} :
    dtabLookup c dtabSeed = some p ↔ ∃ b : Byte, c = b.setWidth 16 ∧ p = [b] :=
  ⟨fun h => (dtabLookup_seed_some h).imp fun _ => And.symm, fun ⟨b, hc, hp⟩ => hp ▸ hc ▸ dtabLookup_seed b⟩

/-- STATUS.DEC_ACTIVE (R131). -/
theorem csrValue_status_decActive (s : State) : (csrValue 0x00 s).getLsbD 1 = s.dec.active :=
  (statusBitsShowTheState.1 s).2.1

/-- Settles O37: the decoder DEC_START leaves is the one `startDecoder` writes. -/
theorem decStartBeginsAnOperation : Obligations.DecStartBeginsAnOperation :=
  ⟨fun _ _ => dtabLookup_seed_iff, rfl, fun _ hrun =>
    ⟨_, exec_decStart_of_running hrun, rfl, csrValue_status_decActive _⟩⟩

/-- Settles O43: the decoder DEC_END leaves is the one `endDecoder` writes; the bound on the bits dropped is the
invariant's. -/
theorem decEndDropsThePendingBits : Obligations.DecEndDropsThePendingBits :=
  ⟨rfl, fun _ hrun hidle => ⟨_, exec_decEnd_of_idle hrun hidle, rfl, rfl⟩, fun _ hrun hactive =>
    ⟨_, exec_decEnd_of_active hrun hactive, rfl, csrValue_status_decActive _, fun h => h.pending hactive⟩⟩

/-! ### DEC_BYTE (R710 to R713) -/

/-- The word a faulting DEC_BYTE leaves in the fault record (R302, R910). -/
theorem wordOf_decByte_eq (b : Byte) : wordOf (.decByte b) = BitVec.ofNat 32 (0x60000000 + b.toNat) :=
  toNat_byteImm b ▸ commandWord_eq_ofNat 6 (byteImm b)

/-- The code of at most 16 bits is the one whose number is their fold (R560). -/
theorem eq_codeOf_take {c : Code} {bits : Bits} {w : Nat} (hw : w ≤ 16)
    (hc : c.toNat = (bits.take w).foldl (fun acc x => 2 * acc + x.toNat) 0) : c = codeOf (bits.take w) := by
  apply BitVec.eq_of_toNat_eq
  rw [codeOf_toNat ((List.length_take_le _ _).trans hw), foldMsb_eq_foldl, hc]

/-- What a delivered code leaves, with the growth test on the counter as a number, which cannot wrap. -/
theorem delivered_eq {d : Dec} (h : DecInv d) (e : Pattern) (T : DecTable) (rest : Bits) :
    delivered e T rest d = { d with
      out := d.out ++ e
      table := if d.prev = [] then T else dtabInsert (d.next.setWidth 16) (d.prev ++ e.take 1) T
      next := if d.prev = [] then d.next else d.next + 1
      prev := e
      count := d.count + 1
      width := if 2 ^ d.width.toNat ≤ d.count.toNat + 1 then d.width + 1 else d.width
      upBits := rest } := by
  have hcount := h.counted.2
  have hsucc : (d.count + 1).toNat = d.count.toNat + 1 := BitVec.toNat_add_of_lt (by simp; omega)
  simp only [delivered, recordGrowthD, hsucc]

/-- A whole code that DTAB binds is delivered (R740, the table path). -/
theorem DecInv.decodeByte_known {d : Dec} (h : DecInv d) {b : Byte} {c : Code} {e : Pattern}
    (henough : d.width.toNat ≤ d.upBits.length + 8) (h16 : d.width.toNat ≤ 16)
    (hc : c = codeOf ((d.upBits ++ bitsOf Config.fill b).take d.width.toNat)) (hknown : dtabLookup c d.table = some e) :
    decodeByte b d = .done (delivered e d.table ((d.upBits ++ bitsOf Config.fill b).drop d.width.toNat) d) := by
  rcases decodeByte_of_inv b h c hc with ⟨hshort, _⟩ | ⟨_, h17, _⟩ | ⟨_, _, hcode⟩
  · omega
  · omega
  · rcases hcode with ⟨e', hknown', _, hdone⟩ | ⟨_, _, hunknown, _⟩ | ⟨hunknown, _⟩
    · rw [hdone, Option.some.inj (hknown.symm.trans hknown')]
    · cases hknown.symm.trans hunknown
    · cases hknown.symm.trans hunknown

/-- A whole code that DTAB does not bind but is about to be made is synthesised (R711). -/
theorem DecInv.decodeByte_kwk {d : Dec} (h : DecInv d) {b : Byte} {c : Code} {p0 : Byte} {p : Pattern}
    (henough : d.width.toNat ≤ d.upBits.length + 8) (h16 : d.width.toNat ≤ 16)
    (hc : c = codeOf ((d.upBits ++ bitsOf Config.fill b).take d.width.toNat))
    (hunknown : dtabLookup c d.table = none) (hnext : c.toNat = d.next.toNat) (hprev : d.prev = p0 :: p) :
    decodeByte b d = .done (delivered (d.prev ++ [p0]) (dtabInsert c (d.prev ++ [p0]) d.table)
      ((d.upBits ++ bitsOf Config.fill b).drop d.width.toNat) d) := by
  rcases decodeByte_of_inv b h c hc with ⟨hshort, _⟩ | ⟨_, h17, _⟩ | ⟨_, _, hcode⟩
  · omega
  · omega
  · rcases hcode with ⟨_, hknown, _⟩ | ⟨q0, q, _, hprev', _, hdone⟩ | ⟨_, hbad, _⟩
    · cases hunknown.symm.trans hknown
    · obtain ⟨rfl, _⟩ := List.cons.inj (hprev.symm.trans hprev')
      exact hdone
    · rcases hbad with hne | hnil
      · exact absurd hnext hne
      · cases hprev.symm.trans hnil

theorem decodeByte_short {d : Dec} {b : Byte} (hshort : d.upBits.length + 8 < d.width.toNat) :
    decodeByte b d = .done (unpackPush b d) := by
  rcases decodeByte_cases b d with ⟨_, hpush⟩ | ⟨henough, _⟩ | ⟨henough, _⟩
  · exact hpush
  · omega
  · omega

/-- Settles O38: a short byte is only pushed, and a whole code that DTAB binds is delivered. -/
theorem decByteDecodesAKnownCode : Obligations.DecByteDecodesAKnownCode := by
  intro b s hrun hactive h
  refine ⟨fun hshort => exec_decByte_of_done hrun hactive (decodeByte_short hshort),
    fun henough h16 c e hc hknown => ?_⟩
  rw [exec_decByte_of_done hrun hactive (h.decodeByte_known henough h16 (eq_codeOf_take h16 hc) hknown),
    delivered_eq h]
  rfl

/-- Settles O39: the insert of the KwK path and the one of step 4 write the same pattern at the same code. -/
theorem kwkCodeIsSynthesised : Obligations.KwkCodeIsSynthesised := by
  intro b s c p0 p hrun hactive h henough h16 hc hunknown hnext hprev
  have hdone := h.decodeByte_kwk henough h16 (eq_codeOf_take h16 hc) hunknown hnext hprev
  have hne : s.dec.prev ≠ [] := by rw [hprev]; exact List.cons_ne_nil _ _
  have hslot : s.dec.next.setWidth 16 = c := BitVec.eq_of_toNat_eq (by
    rw [BitVec.toNat_setWidth, ← hnext, Nat.mod_eq_of_lt c.isLt])
  have hfirst : (s.dec.prev ++ [p0]).take 1 = [p0] := by rw [hprev]; rfl
  rw [delivered_eq h, if_neg hne, if_neg hne, hslot, hfirst] at hdone
  refine ⟨_, exec_decByte_of_done hrun hactive hdone, rfl, fun c' => ?_⟩
  simp only [withDec, dtabLookup_dtabInsert]
  split_ifs <;> rfl

/-- Settles O41: at width 17 the byte completes no code, so it is pushed or the fault is taken. -/
theorem seventeenBitCodeFaults : Obligations.SeventeenBitCodeFaults := by
  intro b s hrun hactive h17
  have hwidth : s.dec.width.toNat = 17 := congrArg BitVec.toNat h17
  refine ⟨fun henough => ?_, fun hshort => ?_, fun h => h.width_eq_17_iff.1 h17⟩
  · rcases decodeByte_cases b s.dec with ⟨hshort, _⟩ | ⟨_, _, htrap⟩ | ⟨_, h16, _⟩
    · omega
    · rw [exec_decByte_of_trap hrun hactive htrap, wordOf_decByte_eq]
      rfl
    · omega
  · exact exec_decByte_of_done hrun hactive (decodeByte_short (by omega))

/-- Everything DEC_BYTE's body can do in an operation of a decoder that meets the invariant: fault, store the byte, or
decode one code (R710 (a), (b)). -/
theorem DecInv.decodeByte_at_most_one_code {d : Dec} (h : DecInv d) (hactive : d.active = true) (b : Byte) :
    (∃ cause, decodeByte b d = .trap cause) ∨ decodeByte b d = .done (unpackPush b d) ∨
    ∃ d', decodeByte b d = .done d' ∧ d'.count.toNat = d.count.toNat + 1 ∧ d'.upBits.length ≤ 7 ∧
      d'.out = d.out ++ d'.prev ∧ d'.prev ≠ [] := by
  have hpending := h.pending hactive
  have hrest : ((d.upBits ++ bitsOf Config.fill b).drop d.width.toNat).length ≤ 7 := by
    rw [List.length_drop, List.length_append, length_bitsOf]
    omega
  have hcount : (d.count + 1).toNat = d.count.toNat + 1 :=
    BitVec.toNat_add_of_lt (by have hlast := h.counted.2; simp; omega)
  rcases decodeByte_of_inv b h _ rfl with ⟨_, hpush⟩ | ⟨_, _, htrap⟩ | ⟨_, _, hcode⟩
  · exact .inr (.inl hpush)
  · exact .inl ⟨_, htrap⟩
  · rcases hcode with ⟨e, _, hne, hdone⟩ | ⟨p0, p, _, _, _, hdone⟩ | ⟨_, _, htrap⟩
    · exact .inr (.inr ⟨_, hdone, hcount, hrest, rfl, hne⟩)
    · exact .inr (.inr ⟨_, hdone, hcount, hrest, rfl, List.append_ne_nil_of_right_ne_nil _ (List.cons_ne_nil _ _)⟩)
    · exact .inl ⟨_, htrap⟩

/-- Settles O42, by what the body of DEC_BYTE can do. -/
theorem decByteDecodesAtMostOneCode : Obligations.DecByteDecodesAtMostOneCode := by
  intro b s hrun hactive h
  rcases h.decodeByte_at_most_one_code hactive b with ⟨cause, htrap⟩ | hpush | ⟨d, hdone, hcode⟩
  · exact ⟨_, exec_decByte_of_trap hrun hactive htrap, .inl ⟨rfl, rfl⟩⟩
  · exact ⟨_, exec_decByte_of_done hrun hactive hpush, .inr (.inl ⟨hrun, rfl, rfl, List.length_append⟩)⟩
  · exact ⟨_, exec_decByte_of_done hrun hactive hdone, .inr (.inr ⟨hrun, hcode⟩)⟩

/-! ### DEC_BYTE beside a round of decompress (R710, R750) -/

/-- Below width 17 the counter is below its last value. -/
theorem DecInv.count_lt_of_width {d : Dec} (h : DecInv d) (h16 : d.width.toNat ≤ 16) : d.count.toNat < 65536 :=
  lt_of_lt_of_le h.count_bounds.2 (Nat.pow_le_pow_right (by decide) h16)

theorem decompLoop_of_short {n : Nat} {c : Decomp} (h : c.bits.length < c.width) : decompLoop n c = .ok c.out := by
  cases n with
  | zero => rfl
  | succ n => rw [decompLoop, if_pos h]

theorem decompLoop_of_wide {n : Nat} {c : Decomp} (hbits : c.width ≤ c.bits.length) (hwide : 16 < c.width) :
    decompLoop (n + 1) c = .error .decWidth := by
  rw [decompLoop, if_neg hbits.not_gt, if_pos hwide]

theorem decompLoop_of_code {n : Nat} {c : Decomp} (hbits : c.width ≤ c.bits.length) (h16 : c.width ≤ 16) :
    decompLoop (n + 1) c = (decompCode c (foldMsb 0 (c.bits.take c.width))).bind (decompLoop n) := by
  rw [decompLoop, if_neg hbits.not_gt, if_neg (show ¬ Config.wMax < c.width from h16.not_gt)]
  cases decompCode c (foldMsb 0 (c.bits.take c.width)) <;> rfl

/-- A byte that completes no code is only stored, which takes its bits from those not yet sent. -/
theorem MirrorsD.push {o : List Byte} {d : Dec} {c : Decomp} {b : Byte} {rest : Bits}
    (h : MirrorsD o d c (bitsOf Config.fill b ++ rest)) (hshort : d.upBits.length + 8 < d.width.toNat) :
    MirrorsD o (unpackPush b d) c rest where
  inv := by
    have hpush := decodeByte_short (b := b) hshort
    rcases decInv_decodeByte (b := b) h.inv h.active with ⟨d', hdone, hinv, _⟩ | ⟨cause, htrap⟩
    · exact Decoded.done.inj (hdone.symm.trans hpush) ▸ hinv
    · cases htrap.symm.trans hpush
  active := h.active
  next := h.next
  count := h.count
  width := h.width
  prev := h.prev
  out := h.out
  bits := by rw [h.bits, unpackPush_upBits, List.append_assoc]
  table := h.table

/-- The input demux beside the body of decompress's loop: both deliver the pattern, or both fault (R740, R750). -/
theorem mirrorsD_route {o : List Byte} {d : Dec} {s : Decomp} {c : Code} {bits rest rest' : Bits}
    (h : MirrorsD o d s rest) (h16 : d.width.toNat ≤ 16) (hbits : s.bits.drop s.width = bits ++ rest')
    (hpending : bits.length < 8) :
    (∃ d' s', routeCode c { d with upBits := bits } = .done d' ∧ decompCode s c.toNat = .ok s' ∧
      MirrorsD o d' s' rest' ∧ s'.bits = s.bits.drop s.width) ∨
    (routeCode c { d with upBits := bits } = .trap .decBadCode ∧ decompCode s c.toNat = .error .decBadCode) := by
  have hcount := h.inv.count_lt_of_width h16
  rcases routeCode_cases c { d with upBits := bits } with
    ⟨e, hknown, hroute⟩ | ⟨p0, p, hunknown, hprev, hnext, hroute⟩ | ⟨hunknown, hbad, hroute⟩
  · left
    have hmap : ∀ c', dtabLookup c' d.table = if c' = c then some e else dtabLookup c' d.table := fun c' => by
      split_ifs with hc
      · rw [hc, hknown]
      · rfl
    obtain ⟨d', hdone, hinv, hactive, _⟩ :=
      decInv_deliver h.inv h.active hcount h.inv.rises hmap (.inl hknown) bits hpending
    refine ⟨d', s.deliver e, hroute.trans hdone, ?_, ?_, rfl⟩
    · rw [decompCode, ← h.table, hknown]
    · exact mirrorsD_deliver h (h.inv.nonEmpty _ _ hknown) hcount hbits h.table hdone hinv hactive
  · left
    have hprev : d.prev = p0 :: p := hprev
    have htake : s.prev ++ s.prev.take 1 = d.prev ++ [p0] := by rw [← h.prev, hprev]; rfl
    obtain ⟨d', hdone, hinv, hactive, _⟩ :=
      decInv_deliver h.inv h.active hcount (dtabInsert_rises c (d.prev ++ [p0]) h.inv.rises)
        (fun c' => dtabLookup_dtabInsert c c' _ _) (.inr ⟨hnext, p0, p, hprev, rfl⟩) bits hpending
    refine ⟨d', { s with table := (c.toNat, d.prev ++ [p0]) :: s.table }.deliver (d.prev ++ [p0]),
      hroute.trans hdone, ?_, ?_, rfl⟩
    · have hgo : ¬ (c.toNat ≠ s.next ∨ s.prev = []) := by
        rw [← h.next, ← h.prev, hprev]
        simpa using hnext
      rw [decompCode, ← h.table, hunknown]
      simp only [if_neg hgo, htake]
    · refine mirrorsD_deliver h (by simp) hcount hbits (fun c' => ?_) hdone hinv hactive
      rw [dtabLookup_dtabInsert, tableLookup_cons, h.table]
      simp only [BitVec.toNat_inj]
  · right
    refine ⟨hroute, ?_⟩
    have hstop : c.toNat ≠ s.next ∨ s.prev = [] := by rwa [← h.next, ← h.prev]
    rw [decompCode, ← h.table, hunknown]
    simp only [if_pos hstop]

/-- One DEC_BYTE takes the decoder along with the loop of decompress, by no round or by one, or both end in the same
fault (R710, R750). -/
theorem mirrorsD_byte {o : List Byte} {d : Dec} {s : Decomp} {b : Byte} {rest : Bits} {n : Nat}
    (h : MirrorsD o d s (bitsOf Config.fill b ++ rest)) (hn : s.bits.length ≤ n) :
    (∃ d' s' n', decodeByte b d = .done d' ∧ MirrorsD o d' s' rest ∧ s'.bits.length ≤ n' ∧
      decompLoop n s = decompLoop n' s') ∨
    (∃ cause, decodeByte b d = .trap cause ∧ decompLoop n s = .error cause ∧
      (cause = .decBadCode ∨ cause = .decWidth)) := by
  have hpending := h.inv.pending h.active
  have hwidth := h.width
  have hsplit : s.bits = (d.upBits ++ bitsOf Config.fill b) ++ rest := by rw [h.bits, List.append_assoc]
  have hlen : (d.upBits ++ bitsOf Config.fill b).length = d.upBits.length + 8 := by
    rw [List.length_append, length_bitsOf]
  have hbits : d.upBits.length + 8 ≤ s.bits.length := by rw [hsplit, List.length_append, hlen]; omega
  rcases decodeByte_cases b d with ⟨hshort, hpush⟩ | ⟨henough, hwide, htrap⟩ | ⟨henough, h16, hroute⟩
  · exact .inl ⟨_, s, n, hpush, h.push hshort, hn, rfl⟩
  · obtain ⟨n, rfl⟩ := Nat.exists_eq_succ_of_ne_zero (show n ≠ 0 by omega)
    exact .inr ⟨_, htrap, decompLoop_of_wide (by omega) (by omega), .inr rfl⟩
  · obtain ⟨n, rfl⟩ := Nat.exists_eq_succ_of_ne_zero (show n ≠ 0 by omega)
    have hloop := decompLoop_of_code (n := n) (c := s) (by omega) (by omega)
    set up := d.upBits ++ bitsOf Config.fill b
    have hcode : foldMsb 0 (s.bits.take s.width) = (codeOf (up.take d.width.toNat)).toNat := by
      rw [codeOf_toNat ((List.length_take_le _ _).trans h16), hsplit, ← hwidth,
        List.take_append_of_le_length (by omega)]
    have hdrop : s.bits.drop s.width = up.drop d.width.toNat ++ rest := by
      rw [hsplit, ← hwidth, List.drop_append_of_le_length (by omega)]
    rw [hcode] at hloop
    rcases mirrorsD_route h h16 hdrop (by rw [List.length_drop]; omega) with
      ⟨d', s', hdone, hcomp, hmirrors, hs'⟩ | ⟨htrap, hcomp⟩
    · refine .inl ⟨d', s', n, hroute.trans hdone, hmirrors, ?_, ?_⟩
      · have hw := h.inv.width_range.1
        rw [hs', List.length_drop]
        omega
      · rw [hloop, hcomp]; rfl
    · refine .inr ⟨_, hroute.trans htrap, ?_, .inl rfl⟩
      rw [hloop, hcomp]; rfl

/-! ### The whole decompress operation (R750) -/

/-- A halted block drops the commands of the decoder path, one after the other (R911). -/
theorem acceptAll_of_halted {is : List Instr} (his : ∀ i ∈ is, decoderPath i = true) {s : State}
    (hhalted : s.ctrl.halted = true) : acceptAll (eventsOf is) s = .next s := by
  induction is with
  | nil => rfl
  | cons i is ih =>
    obtain ⟨hi, his⟩ := List.forall_mem_cons.1 his
    have hdrop : exec i s = .next s := by
      rcases decoderPath_iff.1 hi with rfl | ⟨b, rfl⟩ | rfl <;> exact exec_of_halted rfl hhalted
    rw [acceptAll_eventsOf_cons, hdrop]
    exact ih his

/-- How a block that held `s` stands after the bytes of a decompress operation that ends in the result given: with the
output behind `o` and the operation still active, or halted by the fault. -/
inductive BytesTaken (o : List Byte) (s : State) : Except FaultCause (List Byte) → State → Prop where
  | output {d : Dec} {out : List Byte} (active : d.active = true) (hout : d.out = o ++ out) :
      BytesTaken o s (.ok out) (withDec d s)
  | fault {d : Dec} {cause : FaultCause} (w : CmdWord) (hcause : cause = .decBadCode ∨ cause = .decWidth) :
      BytesTaken o s (.error cause) (takeFault cause w (withDec d s))

theorem BytesTaken.of_withDec {o : List Byte} {d : Dec} {s t : State} {result : Except FaultCause (List Byte)}
    (h : BytesTaken o (withDec d s) result t) : BytesTaken o s result t := by
  cases h with
  | output active hout => exact .output active hout
  | fault w hcause => exact .fault w hcause

/-- DEC_BYTE of each byte takes the decoder along with the loop of decompress to its end. -/
theorem acceptAll_decBytes {o : List Byte} (bytes : List Byte) :
    ∀ {s : State} {c : Decomp} {n : Nat}, Running s → MirrorsD o s.dec c (bytes.flatMap (bitsOf Config.fill)) →
      c.bits.length ≤ n →
        ∃ t, acceptAll (eventsOf (bytes.map .decByte)) s = .next t ∧ BytesTaken o s (decompLoop n c) t := by
  induction bytes with
  | nil =>
    intro s c n hrun h _
    have hpending := h.inv.pending h.active
    have hshort : c.bits.length < c.width := by
      rw [h.bits, ← h.width]
      simpa using hpending
    rw [decompLoop_of_short hshort]
    exact ⟨s, rfl, .output h.active h.out⟩
  | cons b bytes ih =>
    intro s c n hrun h hn
    rw [List.map_cons, acceptAll_eventsOf_cons]
    rcases mirrorsD_byte h hn with ⟨d, c', n', hdone, hmirrors, hn', hloop⟩ | ⟨cause, htrap, hloop, hcause⟩
    · obtain ⟨t, hrest, ht⟩ := ih (s := withDec d s) hrun hmirrors hn'
      rw [exec_decByte_of_done hrun h.active hdone, hloop]
      exact ⟨t, hrest, ht.of_withDec⟩
    · rw [exec_decByte_of_trap hrun h.active htrap, hloop]
      exact ⟨_, acceptAll_of_halted (List.forall_mem_map.2 fun _ _ => rfl) rfl, .fault _ hcause⟩

/-- Settles O54: the decoder goes along with the loop of decompress byte by byte; DEC_END leaves the output, and a
halted block drops it. -/
theorem decompressOperationWritesDecompress : Obligations.DecompressOperationWritesDecompress := by
  intro s bytes hrun
  obtain ⟨t, hbytes, ht⟩ := acceptAll_decBytes bytes (s := withDec (startDecoder s.dec) s) hrun
    (mirrorsD_start s.dec (bytes.flatMap (bitsOf Config.fill))) (length_flatMap_bitsOf _ bytes).le
  rw [decompressCommands, acceptAll_eventsOf_cons, exec_decStart_of_running hrun, andThen_next,
    acceptAll_eventsOf_append, hbytes, andThen_next, acceptAll_eventsOf_cons, decompress]
  generalize decompLoop _ _ = result at ht
  cases ht.of_withDec with
  | @output d out active hout =>
    rw [exec_decEnd_of_active (s := withDec d s) hrun active]
    exact ⟨_, rfl, rfl, hrun, hout⟩
  | fault w hcause =>
    rw [exec_of_halted (w := wordOf .decEnd) rfl rfl]
    exact ⟨_, rfl, rfl, rfl, rfl, hcause⟩

/-! ### The round trip (R751) -/

/-- The codes compress emits are a parse of its input. -/
theorem compCodes_parse (symbols : List Byte) (v : Nat) :
    ∃ ps : List Pattern, ps.flatten = symbols ∧ (∀ p ∈ ps, p ≠ []) ∧ (compCodes symbols v).length = ps.length ∧
      ∀ k, (hk : k < (compCodes symbols v).length) → ParseCode ps k ((compCodes symbols v)[k]).1 := by
  obtain ⟨ps, h⟩ := traced_fold symbols (traced_start (le_max_left 256 v))
  have hflat := h.flat
  rw [List.nil_append] at hflat
  by_cases hp : (symbols.foldl (compSymbol v) compStart).pattern = []
  · simp only [compCodes, if_pos hp]
    rw [hp, List.append_nil] at hflat
    exact ⟨ps, hflat, h.nonEmpty, h.len, fun k hk => (h.codes k hk).1⟩
  · simp only [compCodes, if_neg hp]
    obtain ⟨hlen, hcodes⟩ := traced_emit h hp
    refine ⟨_, by simpa using hflat, fun p hmem => ?_, hlen, fun k hk => (hcodes k hk).1⟩
    rcases List.mem_append.1 hmem with hmem | hmem
    · exact h.nonEmpty p hmem
    · exact List.mem_singleton.1 hmem ▸ hp

/-- The code of pattern k of a parse is one of the first 256 + k. -/
theorem ParseCode.lt {ps : List Pattern} {k c : Nat} (h : ParseCode ps k c) : c < 256 + k := by
  rcases h with ⟨hseed, _⟩ | ⟨j, hj, rfl, _⟩ <;> omega

/-- Before its first code decompress stands at the start of every parse. -/
theorem parsed_start (ps : List Pattern) (bits : Bits) : Parsed ps 0 (decompStart bits) where
  count := rfl
  width := bitlen_256.symm
  next := rfl
  prev := rfl
  out := rfl
  seeds c hc := tableLookup_map_range c (fun j => j) (fun j => [BitVec.ofNat 8 j]) 256 c hc rfl fun _ _ h => h
  entries j hj := by omega
  none c hc := tableLookup_map_range_none c (fun j => j) (fun j => [BitVec.ofNat 8 j]) 256 fun j hj h => by
    have hc : 256 ≤ c := hc
    omega

/-- A stream of the codes of a parse, each at the width decompress reads it, comes back as the patterns of the parse. -/
theorem decompress_parse {f : Fill} {bytes : List Byte} {ps : List Pattern} {codes : List (Nat × Nat)} {pad : Bits}
    (hne : ∀ p ∈ ps, p ≠ []) (hpad : pad.length < 9) (hlen : codes.length = ps.length) (hps : ps.length ≤ 65280)
    (hcodes : ∀ k, (hk : k < codes.length) → ParseCode ps k (codes[k]).1 ∧ (codes[k]).2 = bitlen (256 + k))
    (hbits : bytes.flatMap (bitsOf f) = codeBits codes ++ pad) : decompress f bytes = .ok ps.flatten := by
  rw [decompress, hbits]
  refine decompLoop_parse hne pad hpad hps codes 0 _ _ (parsed_start ps _) (by omega) (fun k hk => ?_) rfl ?_
  · obtain ⟨hcode, hwidth⟩ := hcodes k hk
    rw [Nat.zero_add, hwidth]
    exact ⟨hcode, hcode.lt.trans (bitlen_bounds (by omega)).2, rfl⟩
  · rw [← length_flatMap_bitsOf f, hbits]
    exact le_rfl

/-- Below the lockstep bound decompress reads each code at the width it was packed at, so it gives back the patterns of
the parse (R457, R751). -/
theorem decompress_compress (f : Fill) {symbols : List Byte} {v : Nat} (hv : v ≤ 65535)
    (hbound : (compCodes symbols v).length < 2 ^ bitlen (max 256 v) - 255) :
    decompress f (compress f symbols v) = .ok symbols := by
  obtain ⟨ps, hflat, hne, hlen, hcodes⟩ := compCodes_parse symbols v
  obtain ⟨zeros, hzeros, hbits⟩ := packedStream_unpack_zeros f (codeBits (compCodes symbols v))
  have hmax : 2 ^ bitlen (max 256 v) ≤ 2 ^ 16 :=
    Nat.pow_le_pow_right (by decide) (bitlen_le_16 (max_le (by decide) hv))
  have lockstep : ∀ k, (hk : k < (compCodes symbols v).length) →
      ((compCodes symbols v)[k]).2 = bitlen (256 + k) := fun k hk => by
    rw [compCodes_width symbols v k hk, bitlen_min_eq_iff]
    omega
  refine (decompress_parse hne ?_ hlen ?_ (fun k hk => ⟨hcodes k hk, lockstep k hk⟩) hbits).trans (congrArg _ hflat)
  · rw [List.length_replicate]
    omega
  · omega

/-- Settles O55: the algorithms by the parse, the two operations by the algorithms they write. -/
theorem roundTripBelowTheLockstepBound : Obligations.RoundTripBelowTheLockstepBound := by
  refine ⟨fun f symbols v => decompress_compress f, fun s v symbols hrun hbound => ?_⟩
  obtain ⟨t, hcompress, hrunT, houtT, hdec⟩ := compressOperationWritesCompress s v symbols hrun
  obtain ⟨u, hdecompress, _, hu⟩ :=
    decompressOperationWritesDecompress t (compress Config.fill symbols v.toNat) hrunT
  rw [decompress_compress Config.fill (Nat.le_of_lt_succ v.isLt) hbound] at hu
  obtain ⟨hrunU, houtU⟩ := hu
  exact ⟨t, u, _, hcompress, houtT, hdecompress, hrunU, hdec ▸ houtU⟩

/-! ### Past the lockstep bound (R751, V-D8) -/

/-- The code of a one-symbol pattern at the width 9. -/
def symbolCode (x : Byte) : Nat × Nat := (x.toNat, 9)

theorem tableLookup_compStart_singleton (x : Byte) : tableLookup [x] compStart.table = some x.toNat :=
  (traced_start le_rfl).seeds x

theorem tableLookup_compStart_pair (x y : Byte) : tableLookup [x, y] compStart.table = none :=
  tableLookup_map_range_none _ _ _ _ fun j _ h => by cases h

/-- With cap 0 a symbol after another one is a miss: the code of the symbol before it is sent, nothing is inserted. -/
theorem compSymbol_zero (x y : Byte) (codes : List (Nat × Nat)) :
    compSymbol 0 { compStart with pattern := [x], codes := codes } y =
      { compStart with pattern := [y], codes := codes ++ [symbolCode x] } := by
  have hmiss : ¬ (tableLookup ([x] ++ [y]) compStart.table).isSome = true := by
    simp [tableLookup_compStart_pair]
  rw [compSymbol, if_neg hmiss, if_neg (Nat.not_lt_zero _), emit_eq (tableLookup_compStart_singleton x)]
  rfl

theorem emit_foldl_compSymbol_zero (symbols : List Byte) (x : Byte) (codes : List (Nat × Nat)) :
    (symbols.foldl (compSymbol 0) { compStart with pattern := [x], codes := codes }).pattern ≠ [] ∧
    (symbols.foldl (compSymbol 0) { compStart with pattern := [x], codes := codes }).emit =
      codes ++ (x :: symbols).map symbolCode := by
  induction symbols generalizing x codes with
  | nil => exact ⟨List.cons_ne_nil _ _, emit_eq (tableLookup_compStart_singleton x)⟩
  | cons y symbols ih =>
    rw [List.foldl_cons, compSymbol_zero]
    obtain ⟨hpattern, hemit⟩ := ih y (codes ++ [symbolCode x])
    exact ⟨hpattern, hemit.trans (List.append_assoc _ _ _)⟩

/-- With cap 0 compress sends one code of width 9 for each symbol. -/
theorem compCodes_zero (symbols : List Byte) : compCodes symbols 0 = symbols.map symbolCode := by
  cases symbols with
  | nil => rfl
  | cons x symbols =>
    have hhit : (tableLookup (compStart.pattern ++ [x]) compStart.table).isSome = true :=
      Option.isSome_iff_exists.2 ⟨_, tableLookup_compStart_singleton x⟩
    have hfirst : compSymbol 0 compStart x = { compStart with pattern := [x], codes := [] } := by
      rw [compSymbol, if_pos hhit]
      rfl
    obtain ⟨hpattern, hemit⟩ := emit_foldl_compSymbol_zero symbols x []
    rw [compCodes, List.foldl_cons, hfirst]
    simp only [if_neg hpattern, hemit, List.nil_append]

theorem length_codeBits_symbolCode (symbols : List Byte) :
    (codeBits (symbols.map symbolCode)).length = 9 * symbols.length := by
  simp [length_codeBits, symbolCode, Function.comp_def, mul_comm]

/-- The codes of one-symbol patterns at the widths decompress reads them. -/
def readCodes (out : List Byte) : List (Nat × Nat) := out.mapIdx fun i x => (x.toNat, bitlen (256 + i))

/-- decompress gives back the symbols of such codes, whatever stream they come from. -/
theorem decompress_readCodes {f : Fill} {bytes out : List Byte} {pad : Bits} (hpad : pad.length < 9)
    (hout : out.length ≤ 65280) (hbits : bytes.flatMap (bitsOf f) = codeBits (readCodes out) ++ pad) :
    decompress f bytes = .ok out := by
  have hlen : (readCodes out).length = out.length := List.length_mapIdx
  have hflat : (out.map fun x => [x]).flatten = out := by simp [← List.flatMap_def]
  refine (decompress_parse (by simp) hpad (by simp [hlen]) (by simpa using hout) (fun k hk => ?_) hbits).trans
    (congrArg _ hflat)
  have hk : k < out.length := hlen ▸ hk
  have hcode : (readCodes out)[k] = ((out[k]).toNat, bitlen (256 + k)) := List.getElem_mapIdx ..
  rw [hcode]
  exact ⟨.inl ⟨(out[k]).isLt, by simp [List.getD_eq_getElem?_getD, hk]⟩, rfl⟩

/-- The first 256 codes are read at width 9, so they are the codes a compress operation with cap 0 sends. -/
theorem readCodes_append {head tail : List Byte} (hhead : head.length = 256) :
    readCodes (head ++ tail) = head.map symbolCode ++ tail.mapIdx fun i x => (x.toNat, bitlen (512 + i)) := by
  rw [readCodes, List.mapIdx_append, hhead]
  congr 1
  · refine List.ext_getElem (by simp) fun i hi _ => ?_
    have hi : i < 256 := by simpa [hhead] using hi
    have hwidth : bitlen (256 + i) = 9 := bitlen_unique (by omega) (by omega) (by decide)
    simp [symbolCode, hwidth]
  · simp only [← Nat.add_assoc, Nat.add_right_comm 256 _ 256]

/-- The symbols 0 to 255, once each. -/
def everyByte : List Byte := (List.range 256).map (BitVec.ofNat 8)

theorem length_everyByte : everyByte.length = 256 := by simp [everyByte]

theorem length_diverging : (everyByte ++ [0, 1, 2]).length = 259 := by simp [length_everyByte]

/-- The last three 9-bit codes of V-D8 with their padding are three codes of width 10 and two bits. -/
theorem codeBits_diverging :
    codeBits ((everyByte ++ [0, 1, 2]).map symbolCode) ++ List.replicate 5 false =
      codeBits (readCodes (everyByte ++ [0, 4, 16])) ++ List.replicate 2 false := by
  rw [readCodes_append length_everyByte, List.map_append, codeBits_append, codeBits_append, List.append_assoc,
    List.append_assoc]
  exact congrArg (codeBits (everyByte.map symbolCode) ++ ·) (by decide)

/-- V-D8: with cap 0 every byte once and then 0, 1 and 2 comes back as every byte once and then 0, 4 and 16. -/
theorem decompress_compress_diverging :
    decompress Config.fill (compress Config.fill (everyByte ++ [0, 1, 2]) 0) = .ok (everyByte ++ [0, 4, 16]) := by
  obtain ⟨zeros, hzeros, hbits⟩ :=
    packedStream_unpack_zeros Config.fill (codeBits ((everyByte ++ [0, 1, 2]).map symbolCode))
  have hlength := eight_mul_length_packedStream hbits
  rw [length_codeBits_symbolCode, length_diverging] at hlength
  rw [show zeros = 5 by omega, codeBits_diverging] at hbits
  rw [compress, compCodes_zero]
  exact decompress_readCodes (by decide) (by simp [length_everyByte]) hbits

/-- Settles O56 by V-D8, whose codes from the 257th on are packed at width 9 and read at width 10. -/
theorem roundTripFailsPastTheBound : Obligations.RoundTripFailsPastTheBound := by
  refine ⟨_, _, ?_, decompress_compress_diverging, fun h => ?_⟩
  · rw [compCodes_zero, List.length_map, length_diverging, max_eq_left (by decide), bitlen_256]
    decide
  · cases List.append_cancel_left h

end Sys2Proof.Machine
end

section
/-!
PROOFS. The statements of 46_control.md: the commands outside an operation, and the CSR read port.
-/

namespace Sys2Proof.Machine

/-! ### Commands outside an operation (R810, R903, R904) -/

theorem exec_decByte_of_idle {s : State} (hrun : Running s) (hidle : s.dec.active = false) (b : Byte) :
    exec (.decByte b) s = .next (takeFault .decSeq (wordOf (.decByte b)) s) := by
  rw [exec, execDecByte, whenDecoding_of_idle hrun hidle]

/-- The word a faulting ENC_SYM leaves in the fault record (R302, R910). -/
theorem wordOf_encSym_eq (x : Byte) : wordOf (.encSym x) = BitVec.ofNat 32 (0x30000000 + x.toNat) :=
  toNat_byteImm x ▸ commandWord_eq_ofNat 3 (byteImm x)

/-- Settles O12: the gated commands take their sequence fault with their own word when idle; SET_CAP and the two starts
run, and write nothing of the fault record. -/
theorem commandsOutsideAnOperationFault : Obligations.CommandsOutsideAnOperationFault := by
  refine fun s hrun => ⟨fun hidle => ⟨fun x => ?_, exec_encEnd_of_idle hrun hidle⟩,
    fun hidle => ⟨fun b => ?_, exec_decEnd_of_idle hrun hidle⟩,
    fun v => ⟨_, exec_setCap_of_running hrun v, hrun⟩, ⟨_, exec_encStart_of_running hrun, hrun⟩,
    ⟨_, exec_decStart_of_running hrun, hrun⟩⟩
  · rw [exec_encSym_of_idle hrun hidle, wordOf_encSym_eq]
    rfl
  · rw [exec_decByte_of_idle hrun hidle, wordOf_decByte_eq]
    rfl

/-! ### CSR_READ (R820) -/

/-- Settles O18: CSR_READ appends its answer without a dispatch check, so in the halted state too. -/
theorem csrReadAnswersAndChangesNothing : Obligations.CsrReadAnswersAndChangesNothing :=
  fun a s => by rw [exec, execCsrRead]

end Sys2Proof.Machine
end

section
/-!
PROOFS. The statements of 60_exceptions.md: the writes of fault entry and the causes raised, the halted state and its way
out, and the bad code of DEC_BYTE.
-/

namespace Sys2Proof.Machine

/-! ### The faults of DEC_BYTE (R712, R713, R905, R906) -/

/-- The input demux traps on its third path alone, with DEC_BADCODE (R712). -/
theorem routeCode_trap_iff {c : Code} {d : Dec} {cause : FaultCause} : routeCode c d = .trap cause ↔
    cause = .decBadCode ∧ dtabLookup c d.table = none ∧ (c.toNat ≠ d.next.toNat ∨ d.prev = []) := by
  rcases routeCode_cases c d with ⟨e, hknown, hroute⟩ | ⟨p0, p, _, hprev, hnext, hroute⟩ | ⟨hunknown, hbad, hroute⟩
  · rw [hroute]
    exact iff_of_false (deliver_ne_trap _ _ _) (by simp [hknown])
  · rw [hroute]
    exact iff_of_false (deliver_ne_trap _ _ _) (by simp [hprev, hnext])
  · rw [hroute, Decoded.trap.injEq, eq_comm]
    exact (and_iff_left ⟨hunknown, hbad⟩).symm

/-- DEC_BYTE's body traps when the byte completes a code: with DEC_WIDTH at a width past 16, else as the demux does. -/
theorem decodeByte_trap_iff {b : Byte} {d : Dec} {cause : FaultCause} : decodeByte b d = .trap cause ↔
    d.width.toNat ≤ d.upBits.length + 8 ∧ ((cause = .decWidth ∧ 16 < d.width.toNat) ∨
      (cause = .decBadCode ∧ d.width.toNat ≤ 16 ∧
        dtabLookup (codeOf ((d.upBits ++ bitsOf Config.fill b).take d.width.toNat)) d.table = none ∧
        ((codeOf ((d.upBits ++ bitsOf Config.fill b).take d.width.toNat)).toNat ≠ d.next.toNat ∨ d.prev = []))) := by
  rcases decodeByte_cases b d with ⟨hshort, hpush⟩ | ⟨henough, hwide, htrap⟩ | ⟨henough, h16, hroute⟩
  · rw [hpush]
    exact iff_of_false nofun fun h => absurd h.1 (by omega)
  · rw [htrap, Decoded.trap.injEq, eq_comm]
    simp [henough, hwide]
  · rw [hroute, routeCode_trap_iff]
    simp [henough, h16]

/-- Settles O40: the demux traps, and fault entry records the DEC_BYTE word. -/
theorem badCodeFaults : Obligations.BadCodeFaults := by
  intro b s c hrun hactive henough h16 hc hunknown hbad
  obtain rfl := eq_codeOf_take h16 hc
  have htrap : decodeByte b s.dec = .trap .decBadCode :=
    decodeByte_trap_iff.2 ⟨henough, .inr ⟨rfl, h16, hunknown, hbad⟩⟩
  rw [exec_decByte_of_trap hrun hactive htrap, wordOf_decByte_eq]
  rfl

/-! ### What raises a fault (R901 to R906) -/

/-- The faults a legal command raises in a running block. -/
inductive Raises (s : State) : Instr → FaultCause → Prop where
  | encSym (x : Byte) (idle : s.enc.active = false) : Raises s (.encSym x) .encSeq
  | encEnd (idle : s.enc.active = false) : Raises s .encEnd .encSeq
  | decByte (b : Byte) (idle : s.dec.active = false) : Raises s (.decByte b) .decSeq
  | decEnd (idle : s.dec.active = false) : Raises s .decEnd .decSeq
  | code {b : Byte} {cause : FaultCause} (active : s.dec.active = true) (trap : decodeByte b s.dec = .trap cause) :
      Raises s (.decByte b) cause

/-- What an instruction can do to the control state: leave it, or, in a running block only, write `cap` or raise a
fault. -/
theorem exec_ctrl_cases {i : Instr} {s t : State} (h : exec i s = .next t) :
    t.ctrl = s.ctrl ∨ Running s ∧ ((∃ v, t.ctrl = { s.ctrl with cap := v }) ∨
      ∃ cause, Raises s i cause ∧ t = takeFault cause (wordOf i) s) := by
  rcases exec_next h with ⟨rfl, _⟩ | ⟨rfl, hrun, hidle, ⟨x, rfl⟩ | rfl⟩ | ⟨rfl, hrun, hidle, ⟨b, rfl⟩ | rfl⟩ |
    ⟨b, c, rfl, hrun, hactive, htrap, rfl⟩ | ⟨v, _, hrun, rfl⟩ | ⟨_, _, rfl⟩ | ⟨_, _, _, _, _, _, rfl⟩ |
    ⟨_, _, _, rfl⟩ | ⟨_, _, rfl⟩ | ⟨_, _, _, _, _, _, rfl⟩ | ⟨_, _, _, rfl⟩ | ⟨_, _, _, rfl⟩ | ⟨_, rfl⟩ |
    ⟨_, _, rfl⟩ | ⟨_, _, _, rfl⟩ | ⟨_, rfl⟩ | ⟨_, _, _, rfl⟩
  · exact .inl rfl
  · exact .inr ⟨hrun, .inr ⟨_, .encSym x hidle, rfl⟩⟩
  · exact .inr ⟨hrun, .inr ⟨_, .encEnd hidle, rfl⟩⟩
  · exact .inr ⟨hrun, .inr ⟨_, .decByte b hidle, rfl⟩⟩
  · exact .inr ⟨hrun, .inr ⟨_, .decEnd hidle, rfl⟩⟩
  · exact .inr ⟨hrun, .inr ⟨c, .code hactive htrap, rfl⟩⟩
  · exact .inr ⟨hrun, .inl ⟨v, rfl⟩⟩
  -- the other effects write an encoder, a decoder or the ports
  all_goals exact .inl rfl

/-- A command word that halts a running block is illegal, or a legal command raised a fault; the record names the cause
and the word. -/
theorem fault_of_acceptWord_halting {w : CmdWord} {s t : State} (hrun : Running s)
    (h : acceptWord (.command w) s = .next t) (hhalted : t.ctrl.halted = true) :
    ∃ cause, t = takeFault cause w s ∧ ((cause = .illegal ∧ IllegalWord w) ∨
      ∃ i, decode (.command w) = .ok i ∧ Raises s i cause) := by
  rcases hdecode : decode (.command w) with r | i
  · rw [acceptWord_of_reject hdecode, rejectWord, whenRunning_of_running hrun] at h
    exact ⟨.illegal, (Host.Outcome.next.inj h).symm, .inl ⟨rfl, (illegalWord_iff_rejected w).2 ⟨r, hdecode⟩⟩⟩
  · rw [acceptWord_of_decode hdecode] at h
    rcases exec_ctrl_cases h with hkept | ⟨_, ⟨v, hcap⟩ | ⟨cause, hraises, ht⟩⟩
    · rw [hkept, hrun] at hhalted
      cases hhalted
    · rw [hcap, hrun] at hhalted
      cases hhalted
    · have hword : wordOf i = w := by rw [wordOf, encode_of_decode hdecode]
      exact ⟨cause, hword ▸ ht, .inr ⟨i, rfl, hraises⟩⟩

/-- Settles O9: fault entry is the record's three writes, and the cause is that of an illegal word or of the command that
raised it. -/
theorem faultEntryWritesOnlyTheRecord : Obligations.FaultEntryWritesOnlyTheRecord := by
  intro w s t hrun h hhalted
  obtain ⟨cause, ht, ⟨rfl, hillegal⟩ | ⟨i, hdecode, hraises⟩⟩ := fault_of_acceptWord_halting hrun h hhalted
  · exact ⟨.illegal, ht, hillegal⟩
  · refine ⟨cause, ht, ?_⟩
    cases hraises with
    | encSym x idle => exact ⟨idle, .inl ⟨x, hdecode⟩⟩
    | encEnd idle => exact ⟨idle, .inr hdecode⟩
    | decByte b idle => exact ⟨idle, .inl ⟨b, hdecode⟩⟩
    | decEnd idle => exact ⟨idle, .inr hdecode⟩
    | @code b _ active trap =>
      obtain ⟨henough, ⟨rfl, hwide⟩ | ⟨rfl, h16, _⟩⟩ := decodeByte_trap_iff.1 trap
      · exact ⟨active, ⟨b, hdecode⟩, hwide, henough⟩
      · exact ⟨active, ⟨b, hdecode⟩, h16, henough⟩

/-- The fault cause under the invariant: NONE while running, and never a reserved code (R901). -/
theorem CtrlInv.faultCause_le {c : Ctrl} (h : CtrlInv c) : c.faultCause.toNat ≤ 5 := by
  rcases hhalted : c.halted with _ | _
  · rw [(h.clear hhalted).1]
    decide
  · exact (h.cause hhalted).2

/-- Settles O10: each cause is the code of an illegal word or of the command that raised it, and the invariant bounds the
code after every step. -/
theorem faultCausesAreRaisedAsListed : Obligations.FaultCausesAreRaisedAsListed := by
  refine ⟨fun w s t hinv hrun h hhalted => ?_, fun s t hinv hstep => ?_⟩
  · obtain ⟨cause, rfl, ⟨rfl, hillegal⟩ | ⟨i, hdecode, hraises⟩⟩ := fault_of_acceptWord_halting hrun h hhalted
    · exact .inl ⟨rfl, hillegal⟩
    · cases hraises with
      | encSym x idle => exact .inr (.inl ⟨rfl, idle, .inl ⟨x, hdecode⟩⟩)
      | encEnd idle => exact .inr (.inl ⟨rfl, idle, .inr hdecode⟩)
      | decByte b idle => exact .inr (.inr (.inl ⟨rfl, idle, .inl ⟨b, hdecode⟩⟩))
      | decEnd idle => exact .inr (.inr (.inl ⟨rfl, idle, .inr hdecode⟩))
      | @code b _ active trap =>
        obtain ⟨henough, ⟨rfl, hwide⟩ | ⟨rfl, _, hbad⟩⟩ := decodeByte_trap_iff.1 trap
        · have hwidth : s.dec.width.toNat = 17 := le_antisymm hinv.dec.width_range.2 hwide
          exact .inr (.inr (.inr (.inr ⟨rfl, active, ⟨b, hdecode⟩, BitVec.eq_of_toNat_eq hwidth, hwidth ▸ henough⟩)))
        · exact .inr (.inr (.inr (.inl ⟨rfl, active, b, hdecode, henough, hbad⟩)))
  · have ht := (stepKeepsTheInvariant s t hinv hstep).ctrl
    exact ⟨fun hrun => (ht.clear hrun).1, ht.faultCause_le⟩

/-! ### The halted state (R911, R1001) -/

/-- A halted block drops every command word, legal or not (R911). -/
theorem acceptWord_of_halted {s : State} (hhalted : s.ctrl.halted = true) (w : CmdWord) :
    acceptWord (.command w) s = .next s := by
  rcases hdecode : decode (.command w) with r | i
  · rw [acceptWord_of_reject hdecode, rejectWord, whenRunning_of_halted hhalted]
  · rw [acceptWord_of_decode hdecode, exec_of_halted (encode_of_decode hdecode) hhalted]

/-- A halted block that takes no reset keeps its control state, whatever port a word comes on. -/
theorem ctrl_of_acceptEvent_halted {e : Event} {s t : State} (hhalted : s.ctrl.halted = true)
    (h : acceptEvent e s = .next t) : (∃ ws, e = .reset ws) ∨ t.ctrl = s.ctrl := by
  have halted_not_running : ¬ Running s := fun hrun => by cases hhalted.symm.trans hrun
  rcases event_next h with ⟨ws, he, _⟩ | ⟨_, _, _, _, rfl | ⟨_, _, hrun, _⟩⟩ | ⟨_, _, _, _, hexec⟩
  · exact .inl ⟨ws, he⟩
  · exact .inr rfl
  · exact absurd hrun halted_not_running
  · rcases exec_ctrl_cases hexec with hkept | ⟨hrun, _⟩
    · exact .inr hkept
    · exact absurd hrun halted_not_running

/-- Settles O11: words are dropped, CSR_READ writes its port alone, and reset writes the control state of R150. -/
theorem haltedBlockDropsCommands : Obligations.HaltedBlockDropsCommands := fun _ hhalted =>
  ⟨acceptWord_of_halted hhalted, fun _ => ⟨_, rfl, rfl, rfl, rfl⟩, fun _ _ => ctrl_of_acceptEvent_halted hhalted,
    fun _ => ⟨_, rfl, rfl, rfl, rfl⟩⟩

end Sys2Proof.Machine
end

section
/-!
PROOFS. The statements of 70_reset_and_hazards.md: what reset leaves of the block, and that every step of a block
driven by a host answers a next state.
-/

namespace Sys2Proof.Machine

/-! ### Reset (R1000) -/

/-- Settles O14: the block after reset is the one of R150 whatever was written meanwhile, and the ID register is
no state. -/
theorem resetEventClearsTheBlock : Obligations.ResetEventClearsTheBlock :=
  fun s _ => ⟨applyReset s, rfl, rfl, rfl, rfl, rfl, rfl, rfl, rfl, rfl, rfl, rfl⟩

/-! ### Every accepted command completes (R1040) -/

/-- ENC_SYM completes: a miss finds a current pattern with a code (R620 (b)). -/
theorem EncInv.exec_encSym_answers {s : State} (h : EncInv s.enc) (hrun : Running s) (x : Byte) :
    ∃ t, exec (.encSym x) s = .next t := by
  rcases hactive : s.enc.active with _ | _
  · exact ⟨_, exec_encSym_of_idle hrun hactive x⟩
  · obtain ⟨e, hsymbol, _⟩ := encInv_encodeSymbol (sym := x) h hactive
    exact ⟨_, exec_encSym_of_active hrun hactive hsymbol⟩

/-- DEC_BYTE completes, with a fault of the block at the most: the decoded pattern is not empty and DTAB has a slot for
the next entry (R203, R710). -/
theorem DecInv.exec_decByte_answers {s : State} (h : DecInv s.dec) (hrun : Running s) (b : Byte) :
    ∃ t, exec (.decByte b) s = .next t := by
  rcases hactive : s.dec.active with _ | _
  · exact ⟨_, exec_decByte_of_idle hrun hactive b⟩
  · rcases decInv_decodeByte (b := b) h hactive with ⟨d, hdone, _⟩ | ⟨cause, htrap⟩
    · exact ⟨_, exec_decByte_of_done hrun hactive hdone⟩
    · exact ⟨_, exec_decByte_of_trap hrun hactive htrap⟩

/-- A command completes in a running block. -/
theorem exec_command_answers {i : Instr} {w : CmdWord} (hi : encode i = .command w) {s : State} (hrun : Running s)
    (henc : EncInv s.enc) (hdec : DecInv s.dec) : ∃ t, exec i s = .next t := by
  cases i with
  | setCap v => exact ⟨_, exec_setCap_of_running hrun v⟩
  | encStart => exact ⟨_, exec_encStart_of_running hrun⟩
  | encSym x => exact henc.exec_encSym_answers hrun x
  | encEnd =>
    rcases hactive : s.enc.active with _ | _
    · exact ⟨_, exec_encEnd_of_idle hrun hactive⟩
    · exact ⟨_, exec_encEnd_of_active hrun hactive⟩
  | decStart => exact ⟨_, exec_decStart_of_running hrun⟩
  | decByte b => exact hdec.exec_decByte_answers hrun b
  | decEnd =>
    rcases hactive : s.dec.active with _ | _
    · exact ⟨_, exec_decEnd_of_idle hrun hactive⟩
    · exact ⟨_, exec_decEnd_of_active hrun hactive⟩
  -- the words of the other instructions are on other ports
  | _ => cases hi

/-- A command word is answered: an illegal one takes the fault ILLEGAL (R902), and a halted block drops every one
(R911). -/
theorem acceptWord_command_answers {s : State} (henc : EncInv s.enc) (hdec : DecInv s.dec) (w : CmdWord) :
    ∃ t, acceptWord (.command w) s = .next t := by
  rcases hrun : s.ctrl.halted with _ | _
  · rcases hdecode : decode (.command w) with r | i
    · rw [acceptWord_of_reject hdecode, rejectWord, whenRunning_of_running hrun]
      exact ⟨_, rfl⟩
    · rw [acceptWord_of_decode hdecode]
      exact exec_command_answers (encode_of_decode hdecode) hrun henc hdec
  · exact ⟨s, acceptWord_of_halted hrun w⟩

/-- Every event of the host is answered by a next state. -/
theorem acceptEvent_answers {ev : Event} (host : ev.fromHost = true) {s : State} (henc : EncInv s.enc)
    (hdec : DecInv s.dec) : ∃ t, acceptEvent ev s = .next t := by
  cases ev with
  | reset ws => exact ⟨applyReset s, rfl⟩
  | word p =>
    cases p with
    | command w => exact acceptWord_command_answers henc hdec w
    | packer w => cases host
    | unpacker w => cases host
    | csr a => exact ⟨_, csrReadAnswersAndChangesNothing a s⟩

/-- Settles O47: the oldest event waiting is the host's, and the block that takes it meets the invariant; with none
waiting the state stays. -/
theorem stepNeverStops : Obligations.StepNeverStops := by
  intro s h
  rcases hq : s.ports.input with _ | ⟨ev, rest⟩
  · exact ⟨s, step_of_no_event hq⟩
  · rw [step_of_event hq]
    obtain ⟨host, hpop⟩ := inv_pop h hq
    exact acceptEvent_answers host hpop.enc hpop.dec

end Sys2Proof.Machine
end
